-- ==== Sys2Proof/Word.lean ====
section
/-! DEFINITION. The word types of the block and nothing else: a host word is 32 bits (R61), a register
offset 13 bits (R44), a field element or symbol value 8 bits (R11), the exponent operand 16 bits (R37). -/

namespace Sys2Proof

/-- A 32-bit host word (R61), also the command word (R80). -/
abbrev Word := BitVec 32

/-- A field element, R11: an 8-bit value. -/
abbrev Byte := BitVec 8

/-- The 16 bits of OPN, R37. -/
abbrev Half := BitVec 16

/-- A byte offset into the 8 KiB register space, R44. -/
abbrev Offset := BitVec 13

end Sys2Proof
end

