-- ==== Sys2Proof/Config.lean ====
section
/-! DEFINITION. What is fixed for one machine: the parameters of R9, and the values the spec leaves open,
which have no body, so that no proof can rest on one of them. -/

namespace Sys2Proof.Config

/-- MAX_N of R9 and R25: the largest codeword length K + T. -/
def maxN : Nat := 255

/-- BUF_DEPTH of R9. -/
def bufDepth : Nat := 255

/-- SYN_DEPTH of R9. -/
def synDepth : Nat := 255

/-- BASE of R60: where the platform puts the block's 8 KiB. FREE: the platform's choice (log entry 7). -/
opaque base : Nat

/-- The n-th word returned by a host read whose value the spec leaves unspecified (R48, R67; M6, M7).
FREE: nothing constrains it, reserved bits included (log entry 3). -/
opaque freeWord : Nat → BitVec 32

/-- The entry the log table would hold for 0, which R100 leaves undefined and no rule reads. FREE (log entry 5). -/
opaque logOfZero : Nat

end Sys2Proof.Config
end

