-- ==== Sys2Proof/Machine/State.lean ====
section
/-! DEFINITION. The state of one block, its host and its schedule, as plain data (R20, R45, R19), and the state
after reset (R47). The constants CAP0, CAP1, EXP and LOG are in Machine/Tables.lean: nothing changes them. -/

namespace Sys2Proof.Machine

/-! ## Pieces of state -/

/-- The outcomes a command reports in STATUS.ERR, R190. Codes 7 to 15 are never reported, so they have no name. -/
inductive ErrorKind where
  | ok
  | divByZero
  | tooManyErasures
  | tooManyErrors
  | logOfZero
  | length
  | illegalCmd
  deriving DecidableEq, Repr

/-- An entry of the symbol buffer, R39. -/
structure Symbol where
  value : Byte
  erased : Bool
  deriving DecidableEq, Repr

/-- The entries of a window that hold a value, by index, indexes strictly rising. An index that is not listed
holds no value (R48). -/
abbrev Memory (α : Type) := List (Nat × α)

/-- The canonical form of a memory of the given depth: indexes strictly rising, each below the depth. -/
abbrev Memory.wf {α : Type} (depth : Nat) (m : Memory α) : Prop :=
  m.Pairwise (fun x y => x.1 < y.1) ∧ ∀ c ∈ m, c.1 < depth

/-- The pending command of R45 and R195: the word stored at the start and the snapshot it reads. -/
structure Pending where
  word : Word
  cfgT : Byte
  opa : Byte
  opb : Byte
  opn : Half
  buf : Memory Symbol
  deriving DecidableEq, Repr

/-- The width of a host access. Only word is defined (R61). -/
inductive Width where
  | byte
  | half
  | word
  deriving DecidableEq, Repr

/-- One operation of a host program, in the notation of R86 and R87: an access of the given width at an offset
from BASE, the loop POLL, or WAITIRQ. The other pseudo-operations are expansions into these. -/
inductive HostOp where
  | read (off : Offset) (width : Width)
  | write (off : Offset) (width : Width) (value : Word)
  | poll
  | waitIrq
  deriving DecidableEq, Repr

/-- The three event sources of R19. A list of turns is an interleaving in the sense of R71; how many host turns
stand between a start and the next engine turn is CompletionDelay (R215). -/
inductive Turn where
  | host
  | engine
  | reset
  deriving DecidableEq, Repr

/-! ## The state -/

/-- The state of the machine. The fields up to pending are the block's (R20, R45); program is what the host
has still to do, turns who moves next, log the words the host's reads returned, oldest first, and draws how many
unspecified words have been drawn: these four are the model's own. -/
structure State where
  ie : Bool
  cmd : Word
  busy : Bool
  done : Bool
  err : ErrorKind
  neras : Byte
  nerr : Byte
  cfgT : Byte
  opa : Byte
  opb : Byte
  opn : Half
  result : Byte
  buf : Memory Symbol
  gen : Vector Byte 256
  syn : Memory Byte
  pending : Option Pending
  program : List HostOp
  turns : List Turn
  log : List (Offset × Word)
  draws : Nat
  deriving DecidableEq, Repr

/-- GEN after reset, R47: GEN[0] = 1 and GEN[1..256) = 0. -/
def resetGen : Vector Byte 256 := (Vector.replicate 256 0).set 0 1

/-- The state after reset, R47: every register 0, GEN the generator for T = 0, no entry of BUF and SYN holding a
value, no command pending. DESIGN CHOICE: the model's own fields are empty (log entry 13). -/
def State.reset : State where
  ie := false
  cmd := 0
  busy := false
  done := false
  err := .ok
  neras := 0
  nerr := 0
  cfgT := 0
  opa := 0
  opb := 0
  opn := 0
  result := 0
  buf := []
  gen := resetGen
  syn := []
  pending := none
  program := []
  turns := []
  log := []
  draws := 0

/-! ## Why a step can stop -/

/-- The faults of a step. -/
inductive Fault where
  /-- Raised by RS_ENCODE, RS_SYNDROME and RS_DECODE when they read an entry of the buffer that holds no value: R48
  and M6 say that a model treats such a read by a command as a fault. Safe. -/
  | unwrittenSymbol
  /-- Raised by every command's meaning when no command is pending: the engine then has no enabled step (R196), so
  this is the stuck state. No run from reset reaches it. Safe. -/
  | noPendingCommand
  deriving DecidableEq, Repr

/-- The refusals of a step. -/
inductive Refusal where
  /-- Raised by an arm of exec that has no meaning yet; no arm raises it. Safe. -/
  | notModelled (mnemonic : String)
  /-- Raised by a host access of a width other than 32 bits: R61 says that a model refuses it. Safe. -/
  | accessWidth
  /-- Raised by a host access at an offset that is not word aligned: R62 says that a model refuses it. Safe. -/
  | misalignedAccess
  deriving DecidableEq, Repr

/-- What a step or a command answers. -/
abbrev Result := Host.Outcome State Fault Refusal

end Sys2Proof.Machine
end

