-- ==== Sys2Proof/Machine/Field.lean ====
section
/-! DEFINITION. The field primitives of the GF(256) arithmetic unit (R97, R101 to R104). A failure is the error
code with which it ends a command (R15). -/

namespace Sys2Proof.Machine

/-- gmul, R101. -/
def gmul (x y : Byte) : Byte :=
  if x = 0 ∨ y = 0 then 0 else expTable (logTable x + logTable y)

/-- gdiv, R102: the divisor is tested first. -/
def gdiv (x y : Byte) : Except ErrorKind Byte :=
  if y = 0 then .error .divByZero
  else if x = 0 then .ok 0
  else .ok (expTable (logTable x + 255 - logTable y))

/-- gpow, R103: the exponent may be negative, and the modulo is the floor modulo of R11. -/
def gpow (x : Byte) (n : Int) : Except ErrorKind Byte :=
  if x = 0 then .error .logOfZero
  else .ok (expTable (((logTable x : Int) * n) % 255).toNat)

/-- ginv, R104. -/
def ginv (x : Byte) : Except ErrorKind Byte :=
  if x = 0 then .error .logOfZero else .ok (expTable (255 - logTable x))

end Sys2Proof.Machine
end

