-- ==== Sys2Proof/Machine/Poly.lean ====
section
/-! DEFINITION. The polynomial datapath (R130 to R140): sequences of field elements, highest-degree coefficient
first. Field addition is bitwise exclusive-or (R97). -/

namespace Sys2Proof.Machine

/-- A sequence of field elements, R13 and R130. -/
abbrev Poly := List Byte

/-- [0]*n of the spec's notation. -/
def zeros (n : Nat) : Poly := List.replicate n 0

/-- padd, R131: the shorter operand is padded with zeros on the high-degree side. -/
def padd (a b : Poly) : Poly :=
  List.zipWith (· ^^^ ·) (zeros (b.length - a.length) ++ a) (zeros (a.length - b.length) ++ b)

/-- pscale, R132. -/
def pscale (p : Poly) (k : Byte) : Poly := p.map fun c => gmul c k

/-- peval, R133, by Horner's method, in the form that starts from 0. -/
def peval (p : Poly) (x : Byte) : Byte := p.foldl (fun acc c => gmul acc x ^^^ c) 0

/-- The buffer with row[j] added into entry p + j for every j, as the inner loops of R134 and R153 do. -/
def xorAt : Poly → Nat → Poly → Poly
  | [], _, _ => []
  | b :: buf, 0, [] => b :: buf
  | b :: buf, 0, r :: row => (b ^^^ r) :: xorAt buf 0 row
  | b :: buf, p + 1, row => b :: xorAt buf p row

/-- pmul, R134: the first coefficient of a contributes its multiple of b at offset 0, and the product of the rest
stands one place later. The result has length len(a) + len(b) - 1. -/
def pmul : Poly → Poly → Poly
  | [], b => zeros (b.length - 1)
  | c :: a, b => xorAt (0 :: pmul a b) 0 (pscale b c)

/-- pmodx, R135: the remainder of a by x^k, exactly k coefficients. -/
def pmodx (a : Poly) (k : Nat) : Poly :=
  if k ≤ a.length then a.drop (a.length - k) else zeros (k - a.length) ++ a

/-- generator(T), R137: the product of (x - 2^i) for i < T. -/
def generator (t : Nat) : Poly :=
  (List.range t).foldl (fun g i => pmul g [1, expTable i]) [1]

/-- syndrome(w, T), R138: S[i] = w(2^i), a sequence indexed by i. -/
def syndrome (w : Poly) (t : Nat) : List Byte := (List.range t).map fun i => peval w (expTable i)

/-- errataLocator(C), R139: the product of (1 + 2^c x) over the coefficient positions in C. -/
def errataLocator (cs : List Nat) : Poly :=
  cs.foldl (fun l c => pmul l [expTable c, 1]) [1]

/-- errorEvaluator(S, L, T), R140: S read lowest degree first, times L, modulo x^T. -/
def errorEvaluator (s : List Byte) (l : Poly) (t : Nat) : Poly := pmodx (pmul s.reverse l) t

end Sys2Proof.Machine
end

