-- ==== Sys2Proof/Machine/Encoder.lean ====
section
/-! DEFINITION. The parity generator (R153). -/

namespace Sys2Proof.Machine

/-- One pass of the reduction of R153 at position p. It uses the running value of the buffer (conflict C1). -/
def reduceAt (g : Poly) (buf : Poly) (p : Nat) : Poly :=
  let coef := buf.getD p 0
  if coef = 0 then buf else xorAt buf p (pscale g coef)

/-- encode_core, R153: the reduction of m followed by T zeros, after which the message symbols are restored. -/
def encodeCore (m g : Poly) (t : Nat) : Poly :=
  let reduced := (List.range m.length).foldl (reduceAt g) (m ++ zeros t)
  m ++ reduced.drop m.length

end Sys2Proof.Machine
end

