-- ==== Sys2Proof/Machine/Decoder.lean ====
section
/-! DEFINITION. The decoder's stages (R163 to R177) as functions of the received word. -/

namespace Sys2Proof.Machine

/-! ## Stage 1 -/

/-- The erasure list E of R163, in ascending order. -/
def erasures (rx : List Symbol) : List Nat :=
  (List.range rx.length).filter fun p => (rx.getD p ⟨0, false⟩).erased

/-- The working copy W of R163: an erased position is zero-filled, whatever its value bits. -/
def workingCopy (rx : List Symbol) : Poly :=
  rx.map fun x => if x.erased then 0 else x.value

/-! ## Stage 3 -/

/-- One pass of R166: F[j] * X + F[j+1], one coefficient shorter. -/
def forneyPass (x : Byte) (f : List Byte) : List Byte :=
  List.zipWith (fun a b => gmul a x ^^^ b) f f.tail

/-- forneySyndromes, R166: one pass for each erasure, keyed on its locator value. -/
def forneySyndromes (s : List Byte) (es : List Nat) (n : Nat) : List Byte :=
  es.foldl (fun f p => forneyPass (expTable (n - 1 - p)) f) s

/-! ## Stage 4 -/

/-- The discrepancy of R167 at iteration r: the x^j coefficient of the locator stands j places before its end. -/
def discrepancy (f : List Byte) (loc : Poly) (r : Nat) : Byte :=
  (List.range (loc.length - 1)).foldl
    (fun d i => d ^^^ gmul (loc.getD (loc.length - 1 - (i + 1)) 0) (f.getD (r - (i + 1)) 0))
    (f.getD r 0)

/-- One iteration of R167 on the locator and the auxiliary polynomial. The inverse is taken of a non-zero
discrepancy only, so it does not fail (R105). -/
def bmStep (f : List Byte) (lb : Poly × Poly) (r : Nat) : Except ErrorKind (Poly × Poly) :=
  let d := discrepancy f lb.1 r
  let aux := lb.2 ++ [0]
  if d = 0 then .ok (lb.1, aux)
  else if lb.1.length < aux.length then
    match ginv d with
    | .error e => .error e
    | .ok di =>
      let aux' := pscale lb.1 di
      .ok (padd (pscale aux d) (pscale aux' d), aux')
  else .ok (padd lb.1 (pscale aux d), aux)

/-- normalise, R168: leading zeros are removed while more than one coefficient is left. -/
def normalise : Poly → Poly
  | [] => []
  | [c] => [c]
  | c :: d :: p => if c = 0 then normalise (d :: p) else c :: d :: p

/-- The iterations of R167 over the given positions. -/
def bmLoop (f : List Byte) : List Nat → Poly × Poly → Except ErrorKind (Poly × Poly)
  | [], lb => .ok lb
  | r :: rs, lb =>
    match bmStep f lb r with
    | .error e => .error e
    | .ok lb' => bmLoop f rs lb'

/-- berlekampMassey, R167: the normalised error locator, highest degree first. -/
def berlekampMassey (f : List Byte) : Except ErrorKind Poly :=
  match bmLoop f (List.range f.length) ([1], [1]) with
  | .error e => .error e
  | .ok lb => .ok (normalise lb.1)

/-! ## Stage 5 -/

/-- The indexes i in 0..254 at which the reversed locator is 0 at 2^i (R170), ascending. -/
def chienRoots (loc : Poly) : List Nat :=
  (List.range 255).filter fun i => peval loc.reverse (expTable i) = 0

/-- The error positions R of R170: index i names position n-1-i. -/
def chienPositions (loc : Poly) (n : Nat) : List Nat :=
  ((chienRoots loc).filter fun i => i < n).map fun i => n - 1 - i

/-- The flag outside of R170: some root names no position of the codeword. -/
def chienOutside (loc : Poly) (n : Nat) : Bool := (chienRoots loc).any fun i => n ≤ i

/-! ## Stage 6 -/

/-- The denominator D_l of R175, over the locator values xs: the product over the other indexes. -/
def forneyDenominator (xs : List Byte) (xinv : Byte) (l : Nat) : Byte :=
  (List.range xs.length).foldl
    (fun d m => if m = l then d else gmul d (1 ^^^ gmul xinv (xs.getD m 0))) 1

/-- The magnitude Y_l of R175, which fails with DIV_BY_ZERO when D_l = 0 (R176). -/
def magnitude (omega : Poly) (xs : List Byte) (l : Nat) : Except ErrorKind Byte :=
  match ginv (xs.getD l 0) with
  | .error e => .error e
  | .ok xinv => gdiv (peval omega xinv) (forneyDenominator xs xinv l)

/-- The magnitudes of the given indexes in turn, or the first failure among them. -/
def magnitudes (omega : Poly) (xs : List Byte) : List Nat → Except ErrorKind (List Byte)
  | [] => .ok []
  | l :: ls =>
    match magnitude omega xs l, magnitudes omega xs ls with
    | .error e, _ => .error e
    | .ok _, .error e => .error e
    | .ok y, .ok ys => .ok (y :: ys)

/-- The correction of R177: each magnitude is added at its position. -/
def correct (w : Poly) (ps : List Nat) (ys : List Byte) : Poly :=
  (ps.zip ys).foldl (fun w py => xorAt w py.1 [py.2]) w

/-- Stages 6b to 6e over the errata list P (R172 to R177). -/
def correctErrata (w : Poly) (s : List Byte) (ps : List Nat) (n t : Nat) : Except ErrorKind Poly :=
  let cs := ps.map fun p => n - 1 - p
  let omega := errorEvaluator s (errataLocator cs) t
  match magnitudes omega (cs.map expTable) (List.range ps.length) with
  | .error e => .error e
  | .ok ys => .ok (correct w ps ys)

/-- Stages 3 to 6 after a non-zero syndrome: the corrected word and the number of errors located, or the first
failure in the order of R197. -/
def locateAndCorrect (w : Poly) (s : List Byte) (es : List Nat) (n t : Nat) :
    Except ErrorKind (Poly × Nat) :=
  let f := forneySyndromes s es n
  match berlekampMassey f with
  | .error e => .error e
  | .ok loc =>
    let nu := loc.length - 1
    if f.length < 2 * nu then .error .tooManyErrors
    else if chienOutside loc n = true ∨ (chienPositions loc n).length ≠ nu then .error .tooManyErrors
    else
      match correctErrata w s (es ++ chienPositions loc n) n t with
      | .error e => .error e
      | .ok w' => .ok (w', nu)

/-! ## The whole decode -/

/-- What a decode that passed the length check writes: the outcome, the counts, and the syndromes and the word
that it writes, if it writes any (R162). -/
structure DecodeReport where
  err : ErrorKind
  neras : Nat
  nerr : Nat
  syn : Option (List Byte)
  word : Option Poly
  deriving DecidableEq, Repr

/-- RS_DECODE after its length check, R162, for the received word rx. DEDUCED: beyond the capacity it gives the one
outcome of the rules, R181 (log entry 12). -/
def decodeWord (rx : List Symbol) (t : Nat) : DecodeReport :=
  let es := erasures rx
  let w := workingCopy rx
  let e := es.length
  if t < e then ⟨.tooManyErasures, e, 0, none, none⟩
  else
    let s := syndrome w t
    if s.all (· = 0) then ⟨.ok, e, 0, some s, some w⟩
    else
      match locateAndCorrect w s es rx.length t with
      | .error k => ⟨k, e, 0, some s, none⟩
      | .ok (w', nu) => ⟨.ok, e, nu, some s, some w'⟩

end Sys2Proof.Machine
end

