-- ==== Sys2Proof/Syntax.lean ====
section
/-! DEFINITION. The commands of the block: one constructor per row of the opcode table (R81). -/

namespace Sys2Proof

/-- A command, R81. The argument of a codec command is the count that ARG holds: T for RS_CONFIG, K for the
others, an unsigned number that is never sign-extended or scaled (R88). -/
inductive Instr where
  | gfMul
  | gfDiv
  | gfPow
  | gfInv
  | rsConfig (t : Nat)
  | rsEncode (k : Nat)
  | rsSyndrome (k : Nat)
  | rsDecode (k : Nat)
  deriving DecidableEq, Repr

end Sys2Proof
end

