-- ==== Sys2Proof/WellFormed.lean ====
section
/-! DEFINITION. Which commands a command word can hold: ARG has 8 bits (R80, R88). -/

namespace Sys2Proof

/-- The argument of a codec command lies in 0..255 (R88). The field commands carry no argument (R80). -/
def Instr.wellFormed : Instr → Bool
  | .gfMul => true
  | .gfDiv => true
  | .gfPow => true
  | .gfInv => true
  | .rsConfig t => decide (t ≤ 255)
  | .rsEncode k => decide (k ≤ 255)
  | .rsSyndrome k => decide (k ≤ 255)
  | .rsDecode k => decide (k ≤ 255)

end Sys2Proof
end

