-- ==== Sys2Proof/Decode.lean ====
section
/-! DEFINITION. Command words: the byte lanes of a word (R63), the decoder (R82), which is total and rejects by
name, and the encoder (R80, R81). -/

namespace Sys2Proof

/-- Why a word is Illegal (R82, R84). All of them complete with ILLEGAL_CMD (R192). -/
inductive DecodeError where
  | reservedBits      -- w[31:16] is not 0
  | argumentNotZero   -- a field command with ARG not 0
  | unknownOpcode     -- OP is not in the table of R81
  | wrongLength       -- not four bytes: every command is one 32-bit word (R85)
  deriving DecidableEq, Repr

/-! ## Fields (R80) -/

/-- OP, bits 7:0. -/
def opField (w : Word) : Byte := w.extractLsb' 0 8

/-- ARG, bits 15:8. -/
def argField (w : Word) : Byte := w.extractLsb' 8 8

/-- RSV, bits 31:16. -/
def rsvField (w : Word) : Half := w.extractLsb' 16 16

/-! ## Decoding -/

/-- R82: a command word to its command, or the reason why it is Illegal. -/
def decode (w : Word) : Except DecodeError Instr :=
  if rsvField w ≠ 0 then .error .reservedBits
  else if opField w = 0x01 then (if argField w = 0 then .ok .gfMul else .error .argumentNotZero)
  else if opField w = 0x02 then (if argField w = 0 then .ok .gfDiv else .error .argumentNotZero)
  else if opField w = 0x03 then (if argField w = 0 then .ok .gfPow else .error .argumentNotZero)
  else if opField w = 0x04 then (if argField w = 0 then .ok .gfInv else .error .argumentNotZero)
  else if opField w = 0x10 then .ok (.rsConfig (argField w).toNat)
  else if opField w = 0x11 then .ok (.rsEncode (argField w).toNat)
  else if opField w = 0x12 then .ok (.rsSyndrome (argField w).toNat)
  else if opField w = 0x13 then .ok (.rsDecode (argField w).toNat)
  else .error .unknownOpcode

/-! ## Byte lanes (R63) -/

/-- Byte k of the word at an offset is bits 8k+7 : 8k. -/
def byteLane (w : Word) (k : Nat) : Byte := w.extractLsb' (8 * k) 8

/-- The word whose byte lanes 0 to 3 are given. -/
def wordOfLanes (b0 b1 b2 b3 : Byte) : Word := b3 ++ b2 ++ b1 ++ b0

/-- The four bytes of a word, lowest address first. -/
def bytesOfWord (w : Word) : List Byte :=
  [byteLane w 0, byteLane w 1, byteLane w 2, byteLane w 3]

/-- Decoding from bytes, lowest address first, total on every list of bytes. -/
def decodeBytes : List Byte → Except DecodeError Instr
  | [b0, b1, b2, b3] => decode (wordOfLanes b0 b1 b2 b3)
  | _ => .error .wrongLength

/-! ## Encoding -/

/-- The opcode of R81. -/
def opcode : Instr → Nat
  | .gfMul => 0x01
  | .gfDiv => 0x02
  | .gfPow => 0x03
  | .gfInv => 0x04
  | .rsConfig _ => 0x10
  | .rsEncode _ => 0x11
  | .rsSyndrome _ => 0x12
  | .rsDecode _ => 0x13

/-- The argument that ARG holds, 0 for the field commands (R80). -/
def argument : Instr → Nat
  | .gfMul => 0
  | .gfDiv => 0
  | .gfPow => 0
  | .gfInv => 0
  | .rsConfig t => t
  | .rsEncode k => k
  | .rsSyndrome k => k
  | .rsDecode k => k

/-- The command word of a well-formed command: RSV = 0, ARG, OP (R80). -/
def encode (i : Instr) : Word :=
  BitVec.ofNat 16 0 ++ BitVec.ofNat 8 (argument i) ++ BitVec.ofNat 8 (opcode i)

/-- The mask of the command's row, R83. -/
def rowMask : Instr → Word
  | .gfMul => 0xFFFFFFFF
  | .gfDiv => 0xFFFFFFFF
  | .gfPow => 0xFFFFFFFF
  | .gfInv => 0xFFFFFFFF
  | .rsConfig _ => 0xFFFF00FF
  | .rsEncode _ => 0xFFFF00FF
  | .rsSyndrome _ => 0xFFFF00FF
  | .rsDecode _ => 0xFFFF00FF

/-- The match of the command's row, R83. -/
def rowMatch : Instr → Word
  | .gfMul => 0x00000001
  | .gfDiv => 0x00000002
  | .gfPow => 0x00000003
  | .gfInv => 0x00000004
  | .rsConfig _ => 0x00000010
  | .rsEncode _ => 0x00000011
  | .rsSyndrome _ => 0x00000012
  | .rsDecode _ => 0x00000013

/-! ## The opcode table's numbering -/

/-- The command word whose low nbits bits are those of w, the bits above them 0. -/
def tableWord (nbits w : Nat) : Word := BitVec.ofNat 32 (w % 2 ^ nbits)

/-- What the decoder reads from the instruction whose bits are w: one 32-bit word, laid out in its byte lanes.
No command is longer than 32 bits (R85). -/
def decodeTableWord (nbits w : Nat) : Option Instr :=
  if 32 < nbits then none
  else
    match decodeBytes (bytesOfWord (tableWord nbits w)) with
    | .ok i => some i
    | .error _ => none

end Sys2Proof
end

