-- ==== Sys2Proof/Machine/Flags.lean ====
section
/-! DEFINITION. STATUS (R28 to R33, R46): its word, and the two events that set its fields, and the interrupt
output (R198). -/

namespace Sys2Proof.Machine

/-- The code that STATUS.ERR holds, R190. -/
def ErrorKind.code : ErrorKind → BitVec 4
  | .ok => 0
  | .divByZero => 1
  | .tooManyErasures => 2
  | .tooManyErrors => 3
  | .logOfZero => 4
  | .length => 5
  | .illegalCmd => 6

/-- The word a read of STATUS returns, R28: NERR 23:16, NERAS 15:8, ERR 7:4, DONE 1, BUSY 0, the rest 0. -/
def statusWord (s : State) : Word :=
  0#8 ++ s.nerr ++ s.neras ++ s.err.code ++ 0#2 ++ BitVec.ofBool s.done ++ BitVec.ofBool s.busy

/-- The interrupt output, R198: DONE and IE, at every instant. -/
def State.irq (s : State) : Bool := s.done && s.ie

/-- STATUS at a command's start, R195: BUSY set, every other field cleared. -/
def State.startStatus (s : State) : State :=
  { s with busy := true, done := false, err := .ok, neras := 0, nerr := 0 }

/-- STATUS at a command's completion, R196: the outcome and the counts, DONE set, BUSY cleared. -/
def State.completeStatus (s : State) (err : ErrorKind) (neras nerr : Nat) : State :=
  { s with busy := false, done := true, err := err,
           neras := BitVec.ofNat 8 neras, nerr := BitVec.ofNat 8 nerr }

/-- DONE cleared, by a write of STATUS with bit 1 set (R30). The other fields are kept. -/
def State.clearDone (s : State) : State := { s with done := false }

end Sys2Proof.Machine
end

