-- ==== Sys2Proof/Machine/Ops.lean ====
section
/-! DEFINITION. The named operations over windows and registers, and the three events that every command shares:
its start (R195), its completion (R196), which takes the place of taking an exception and returning from it (R190,
R199: the block has no traps), and reset (R210). -/

namespace Sys2Proof.Machine

/-! ## Windows that may hold no value (R48) -/

/-- The entry at an index; none where the index holds no value. -/
def Memory.read {α : Type} : Memory α → Nat → Option α
  | [], _ => none
  | (j, x) :: m, i => if i = j then some x else Memory.read m i

/-- The memory with an entry stored at an index, in canonical form. -/
def Memory.write {α : Type} : Memory α → Nat → α → Memory α
  | [], i, x => [(i, x)]
  | (j, y) :: m, i, x =>
    if i < j then (i, x) :: (j, y) :: m
    else if i = j then (i, x) :: m
    else (j, y) :: Memory.write m i x

/-- The memory with a sequence stored at an index and the ones after it. -/
def Memory.writeFrom {α : Type} : Memory α → Nat → List α → Memory α
  | m, _, [] => m
  | m, i, x :: xs => Memory.writeFrom (m.write i x) (i + 1) xs

/-- The n entries from an index on; none where one of them holds no value. -/
def Memory.readFrom {α : Type} (m : Memory α) : Nat → Nat → Option (List α)
  | _, 0 => some []
  | i, n + 1 =>
    match m.read i, Memory.readFrom m (i + 1) n with
    | some x, some xs => some (x :: xs)
    | _, _ => none

/-- GEN for the generator g of T parity symbols, R151: (i <= T) ? g[i] : 0. -/
def genWindow (t : Nat) (g : Poly) : Vector Byte 256 :=
  ⟨⟨(List.range 256).map fun i => if i ≤ t then g.getD i 0 else 0⟩, by simp⟩

/-! ## Results that a completion writes -/

/-- RESULT written, R38. -/
def State.setResult (s : State) (v : Byte) : State := { s with result := v }

/-- CFG.T and GEN written, R151: the two change together. -/
def State.setConfig (s : State) (t : Nat) : State :=
  { s with cfgT := BitVec.ofNat 8 t, gen := genWindow t (generator t) }

/-- BUF[0..n) written with every tag cleared, R152, R165 and R177. -/
def State.setWord (s : State) (w : Poly) : State :=
  { s with buf := s.buf.writeFrom 0 (w.map fun v => ⟨v, false⟩) }

/-- SYN[0..T) written, R161 and R164. -/
def State.setSyndromes (s : State) (sy : List Byte) : State :=
  { s with syn := s.syn.writeFrom 0 sy }

/-! ## Start, completion, reset -/

/-- The snapshot of a start, R195. -/
def snapshot (s : State) (w : Word) : Pending :=
  { word := w, cfgT := s.cfgT, opa := s.opa, opb := s.opb, opn := s.opn, buf := s.buf }

/-- Command start, R195, one atomic step. -/
def State.start (s : State) (w : Word) : State :=
  { s.startStatus with cmd := w, pending := some (snapshot s w) }

/-- Command completion, R196: the status written and nothing pending any more. -/
def State.complete (s : State) (err : ErrorKind) (neras nerr : Nat) : State :=
  { s.completeStatus err neras nerr with pending := none }

/-- A command's meaning applied to the pending command. With none pending the engine has no enabled step (R196). -/
def withPending (s : State) (f : Pending → Result) : Result :=
  match s.pending with
  | none => .fault .noPendingCommand
  | some p => f p

/-- The completion of an Illegal word, R192: nothing but STATUS is written. -/
def completeIllegal (s : State) : State := s.complete .illegalCmd 0 0

/-- The reset event, R210. DESIGN CHOICE: the host and the schedule are outside the block and
go on (log entry 14). -/
def State.resetBlock (s : State) : State :=
  { State.reset with program := s.program, turns := s.turns, log := s.log, draws := s.draws }

/-! ## The register space (R44) -/

/-- What an aligned offset names. -/
inductive Reg where
  | cap0
  | cap1
  | ctrl
  | cmd
  | status
  | cfg
  | opa
  | opb
  | opn
  | result
  | buf (i : Nat)
  | gen (i : Nat)
  | syn (i : Nat)
  | exp (i : Nat)
  | log (i : Nat)
  | unmapped
  deriving DecidableEq, Repr

/-- The first ten words of the map of R44; the words after them are unmapped. -/
def registerAt : Nat → Reg
  | 0 => .cap0
  | 1 => .cap1
  | 2 => .ctrl
  | 3 => .cmd
  | 4 => .status
  | 5 => .cfg
  | 6 => .opa
  | 7 => .opb
  | 8 => .opn
  | 9 => .result
  | _ => .unmapped

/-- The windows of the map of R44, from 0x0400 on. Entry i of a window is at its base plus 4i (R75). -/
def windowAt (o : Nat) : Reg :=
  if o < 0x07FC then .buf ((o - 0x0400) / 4)
  else if o < 0x0800 then .unmapped
  else if o < 0x0C00 then .gen ((o - 0x0800) / 4)
  else if o < 0x0FFC then .syn ((o - 0x0C00) / 4)
  else if o < 0x1000 then .unmapped
  else if o < 0x1800 then .exp ((o - 0x1000) / 4)
  else if o < 0x1C00 then .log ((o - 0x1800) / 4)
  else .unmapped

/-- The map of R44, for a word-aligned offset. -/
def regAt (off : Offset) : Reg :=
  if off.toNat < 0x0400 then registerAt (off.toNat / 4) else windowAt off.toNat

/-- The word of a buffer entry, R39: VALUE 7:0, ERASED 8. -/
def symbolWord (x : Symbol) : Word := 0#23 ++ BitVec.ofBool x.erased ++ x.value

/-- The buffer entry that a written word stores, R39: bits 8:0. -/
def symbolOfWord (w : Word) : Symbol := ⟨w.setWidth 8, w.getLsbD 8⟩

/-- The word of a log table entry, R43: VALID 8 and the exponent 7:0; LOG[0] reads 0. -/
def logWord (i : Nat) : Word :=
  if i = 0 then 0 else 0#23 ++ 1#1 ++ BitVec.ofNat 8 (logTable (BitVec.ofNat 8 i))

/-- The word a host read returns, defined bits zero-extended (R76); none where it is unspecified: RESULT, CFG, BUF,
GEN and SYN while busy (R67), and an entry of BUF or SYN that holds no value (R48). -/
def readReg (s : State) : Reg → Option Word
  | .cap0 => some cap0
  | .cap1 => some cap1
  | .ctrl => some (0#31 ++ BitVec.ofBool s.ie)
  | .cmd => some s.cmd
  | .status => some (statusWord s)
  | .cfg => if s.busy then none else some (s.cfgT.setWidth 32)
  | .opa => some (s.opa.setWidth 32)
  | .opb => some (s.opb.setWidth 32)
  | .opn => some (s.opn.setWidth 32)
  | .result => if s.busy then none else some (s.result.setWidth 32)
  | .buf i => if s.busy then none else (s.buf.read i).map symbolWord
  | .gen i => if s.busy then none else some ((s.gen.toList.getD i 0).setWidth 32)
  | .syn i => if s.busy then none else (s.syn.read i).map (·.setWidth 32)
  | .exp i => some ((expTable i).setWidth 32)
  | .log i => some (logWord i)
  | .unmapped => some 0

/-- What a host write stores: the writable bits (R76), at once; reserved bits, read-only registers and unmapped
offsets ignore it (R66); CMD starts a command while idle (R27); STATUS clears DONE (R30); while busy CMD, OPA,
OPB, OPN and BUF ignore it (R67). -/
def writeReg (s : State) (v : Word) : Reg → State
  | .cap0 => s
  | .cap1 => s
  | .ctrl => { s with ie := v.getLsbD 0 }
  | .cmd => if s.busy then s else s.start v
  | .status => if v.getLsbD 1 then s.clearDone else s
  | .cfg => s
  | .opa => if s.busy then s else { s with opa := v.setWidth 8 }
  | .opb => if s.busy then s else { s with opb := v.setWidth 8 }
  | .opn => if s.busy then s else { s with opn := v.setWidth 16 }
  | .result => s
  | .buf i => if s.busy then s else { s with buf := s.buf.write i (symbolOfWord v) }
  | .gen _ => s
  | .syn _ => s
  | .exp _ => s
  | .log _ => s
  | .unmapped => s

end Sys2Proof.Machine
end

