-- ==== Sys2Proof/Machine/Operands.lean ====
section
/-! DEFINITION. Operand assembly (R88): what a command reads from its snapshot. -/

namespace Sys2Proof.Machine

/-- x of the field commands: OPA[7:0], unsigned (R35). -/
def operandX (p : Pending) : Byte := p.opa

/-- y of the field commands: OPB[7:0], unsigned (R36). -/
def operandY (p : Pending) : Byte := p.opb

/-- n of GF_POW: OPN[15:0] as a two's-complement integer (R37). -/
def operandN (p : Pending) : Int := p.opn.toInt

/-- T of the codec commands but RS_CONFIG: CFG.T (R150). -/
def parityCount (p : Pending) : Nat := p.cfgT.toNat

/-- n = K + T, the length of the codeword; it does not wrap (R152). -/
def codeLength (p : Pending) (k : Nat) : Nat := k + parityCount p

/-- The n entries BUF[0..n) with their tags; none where one holds no value (R48). -/
def receivedWord (p : Pending) (n : Nat) : Option (List Symbol) := p.buf.readFrom 0 n

/-- The message of RS_ENCODE: the values of BUF[0..K), tags ignored (R152). -/
def messageOf (p : Pending) (k : Nat) : Option Poly :=
  match p.buf.readFrom 0 k with
  | none => none
  | some xs => some (xs.map Symbol.value)

/-- The generator coefficients GEN[0..T] that RS_ENCODE uses (R152). DEDUCED: read at the completion, since R195's
snapshot does not name GEN (log entry 20). -/
def generatorOf (s : State) (p : Pending) : Poly := s.gen.toList.take (parityCount p + 1)

end Sys2Proof.Machine
end

