-- ==== Sys2Proof/Machine/CodecCommands.lean ====
section
/-! DEFINITION. The codec commands RS_CONFIG, RS_ENCODE, RS_SYNDROME and RS_DECODE (R151, R152, R161, R162). -/

namespace Sys2Proof.Machine

/-- The length check that the three block commands share: K + T > 255 completes with LENGTH, nothing else written
(R152, R161, R162). -/
def withLength (s : State) (p : Pending) (k : Nat) (f : Nat → Result) : Result :=
  if Config.maxN < codeLength p k then .next (s.complete .length 0 0) else f (codeLength p k)

/-- What RS_DECODE writes: the syndromes once they are computed, the word on success, the outcome (R162, R164). -/
def applyReport (s : State) (r : DecodeReport) : State :=
  let s1 := match r.syn with
    | none => s
    | some sy => s.setSyndromes sy
  let s2 := match r.word with
    | none => s1
    | some w => s1.setWord w
  s2.complete r.err r.neras r.nerr

/-- RS_CONFIG, R151. -/
def execRsConfig (t : Nat) (s : State) : Result :=
  withPending s fun _ => .next ((s.setConfig t).complete .ok 0 0)

/-- RS_ENCODE, R152. -/
def execRsEncode (k : Nat) (s : State) : Result :=
  withPending s fun p =>
    withLength s p k fun _ =>
      match messageOf p k with
      | none => .fault .unwrittenSymbol
      | some m => .next ((s.setWord (encodeCore m (generatorOf s p) (parityCount p))).complete .ok 0 0)

/-- RS_SYNDROME, R161. -/
def execRsSyndrome (k : Nat) (s : State) : Result :=
  withPending s fun p =>
    withLength s p k fun n =>
      match receivedWord p n with
      | none => .fault .unwrittenSymbol
      | some rx =>
        .next ((s.setSyndromes (syndrome (workingCopy rx) (parityCount p))).complete .ok (erasures rx).length 0)

/-- RS_DECODE, R162. -/
def execRsDecode (k : Nat) (s : State) : Result :=
  withPending s fun p =>
    withLength s p k fun n =>
      match receivedWord p n with
      | none => .fault .unwrittenSymbol
      | some rx => .next (applyReport s (decodeWord rx (parityCount p)))

end Sys2Proof.Machine
end

