-- ==== Sys2Proof/Machine/FieldCommands.lean ====
section
/-! DEFINITION. The field commands GF_MUL, GF_DIV, GF_POW and GF_INV (R106 to R109). -/

namespace Sys2Proof.Machine

/-- The completion of a field command: RESULT written on success and unchanged on failure (R38), both counts 0. -/
def completeField (s : State) : Except ErrorKind Byte → State
  | .ok v => (s.setResult v).complete .ok 0 0
  | .error e => s.complete e 0 0

/-- GF_MUL, R106. -/
def execGfMul (s : State) : Result :=
  withPending s fun p => .next (completeField s (.ok (gmul (operandX p) (operandY p))))

/-- GF_DIV, R107. -/
def execGfDiv (s : State) : Result :=
  withPending s fun p => .next (completeField s (gdiv (operandX p) (operandY p)))

/-- GF_POW, R108. -/
def execGfPow (s : State) : Result :=
  withPending s fun p => .next (completeField s (gpow (operandX p) (operandN p)))

/-- GF_INV, R109. -/
def execGfInv (s : State) : Result :=
  withPending s fun p => .next (completeField s (ginv (operandX p)))

end Sys2Proof.Machine
end

