-- ==== Sys2Proof/Machine/Dispatch.lean ====
section
/-! DEFINITION. exec: the completion of the pending command (R196), one arm per command of R81. -/

namespace Sys2Proof.Machine

def exec (i : Instr) (s : State) : Host.Outcome State Fault Refusal :=
  match i with
  | .gfMul => Sys2Proof.Machine.execGfMul s
  | .gfDiv => Sys2Proof.Machine.execGfDiv s
  | .gfPow => Sys2Proof.Machine.execGfPow s
  | .gfInv => Sys2Proof.Machine.execGfInv s
  | .rsConfig t => Sys2Proof.Machine.execRsConfig t s
  | .rsEncode k => Sys2Proof.Machine.execRsEncode k s
  | .rsSyndrome k => Sys2Proof.Machine.execRsSyndrome k s
  | .rsDecode k => Sys2Proof.Machine.execRsDecode k s

end Sys2Proof.Machine
end

