-- ==== Sys2Proof/Machine/HostAccess.lean ====
section
/-! DEFINITION. The host: single accesses (R61 to R66), the loops POLL and WAITIRQ and the other pseudo-operations
(R86, R87), and where the platform puts the block (R60). -/

namespace Sys2Proof.Machine

/-! ## Addresses (R60, R68) -/

/-- The address at which the host finds an offset. -/
def busAddress (off : Offset) : Nat := Config.base + off.toNat

/-- The offset that the block decodes from an address; none where the address is not one of the block's. -/
def offsetOfAddress (a : Nat) : Option Offset :=
  if Config.base ≤ a ∧ a < Config.base + 0x2000 then some (BitVec.ofNat 13 (a - Config.base)) else none

/-! ## One access -/

/-- Why an access has no step: a width other than 32 bits (R61), or an offset that is not word aligned (R62).
DESIGN CHOICE: the width is looked at first (log entry 15). -/
def accessRefusal (off : Offset) (width : Width) : Option Refusal :=
  if width ≠ .word then some .accessWidth
  else if off.toNat % 4 ≠ 0 then some .misalignedAccess
  else none

/-- A host read, R65: the block's state does not change. The word goes to the host's log; an unspecified one is
the next free value. -/
def hostRead (s : State) (off : Offset) : State :=
  match readReg s (regAt off) with
  | some v => { s with log := s.log ++ [(off, v)] }
  | none => { s with log := s.log ++ [(off, Config.freeWord s.draws)], draws := s.draws + 1 }

/-- A host write, R65 and R66. -/
def hostWrite (s : State) (off : Offset) (v : Word) : State := writeReg s v (regAt off)

/-! ## The host's turn -/

/-- STATUS's offset, R44. -/
def statusOffset : Offset := 0x0010

/-- The host performs its next operation. POLL reads STATUS and is over when BUSY reads 0; WAITIRQ does nothing
until IRQ is 1 and then reads STATUS (R87). A host with nothing left to do does nothing.
DESIGN CHOICE: one turn of either loop is one step (log entry 18). -/
def hostTurn (s : State) : Result :=
  match s.program with
  | [] => .next s
  | .read off width :: rest =>
    match accessRefusal off width with
    | some r => .refused r
    | none => .next { hostRead s off with program := rest }
  | .write off width v :: rest =>
    match accessRefusal off width with
    | some r => .refused r
    | none => .next { hostWrite s off v with program := rest }
  | .poll :: rest =>
    if s.busy then .next (hostRead s statusOffset)
    else .next { hostRead s statusOffset with program := rest }
  | .waitIrq :: rest =>
    if s.irq then .next { hostRead s statusOffset with program := rest } else .next s

/-! ## Notation of R86 and R87 -/

/-- W offset, value. -/
def wr (off : Offset) (v : Word) : HostOp := .write off .word v

/-- R offset. -/
def rd (off : Offset) : HostOp := .read off .word

/-- The offset of BUF[j], R75. -/
def bufOffset (j : Nat) : Offset := BitVec.ofNat 13 (0x0400 + 4 * j)

/-- ACK. -/
def ackOps : List HostOp := [wr 0x0010 0x00000002]

/-- GFMUL x, y. -/
def gfMulOps (x y : Word) : List HostOp := [wr 0x0018 x, wr 0x001C y, wr 0x000C 0x00000001, .poll, rd 0x0024]

/-- GFDIV x, y. -/
def gfDivOps (x y : Word) : List HostOp := [wr 0x0018 x, wr 0x001C y, wr 0x000C 0x00000002, .poll, rd 0x0024]

/-- GFPOW x, n. -/
def gfPowOps (x : Word) (n : Int) : List HostOp :=
  [wr 0x0018 x, wr 0x0020 (BitVec.ofInt 32 n &&& 0xFFFF), wr 0x000C 0x00000003, .poll, rd 0x0024]

/-- GFINV x. -/
def gfInvOps (x : Word) : List HostOp := [wr 0x0018 x, wr 0x000C 0x00000004, .poll, rd 0x0024]

/-- A codec command and its POLL: the word (arg << 8) | op. -/
def codecOps (op arg : Nat) : List HostOp :=
  [wr 0x000C ((BitVec.ofNat 32 arg <<< 8) ||| BitVec.ofNat 32 op), .poll]

/-- CONFIG t. -/
def configOps (t : Nat) : List HostOp := codecOps 0x10 t

/-- ENCODE k. -/
def encodeOps (k : Nat) : List HostOp := codecOps 0x11 k

/-- SYNDROME k. -/
def syndromeOps (k : Nat) : List HostOp := codecOps 0x12 k

/-- DECODE k. -/
def decodeOps (k : Nat) : List HostOp := codecOps 0x13 k

/-- LOADSYM j, v, for v in 0..255. -/
def loadSymOps (j : Nat) (v : Byte) : List HostOp := [wr (bufOffset j) (v.setWidth 32)]

/-- LOADERASE j. -/
def loadEraseOps (j : Nat) : List HostOp := [wr (bufOffset j) 0x00000100]

end Sys2Proof.Machine
end

