-- ==== Sys2Proof/Machine/Engine.lean ====
section
/-! DEFINITION. The turns of R19 and R71: the engine's, and one turn of whoever moves next. -/

namespace Sys2Proof.Machine

/-- The engine's turn, R196: while BUSY = 1 it completes the pending command, an Illegal word with ILLEGAL_CMD
(R192); while BUSY = 0 it has no step to take. -/
def engineTurn (s : State) : Result :=
  if s.busy = true then
    match s.pending with
    | none => .fault .noPendingCommand
    | some p =>
      match decode p.word with
      | .ok i => exec i s
      | .error _ => .next (completeIllegal s)
  else .next s

/-- One turn of the given agent. -/
def takeTurn (t : Turn) (s : State) : Result :=
  match t with
  | .host => hostTurn s
  | .engine => engineTurn s
  | .reset => .next s.resetBlock

/-- DESIGN CHOICE (log entry 2): who moves once the schedule has run out: the engine while a command is pending, so that every command completes
(R215), and the host otherwise. -/
def defaultTurn (s : State) : Turn := if s.busy = true then .engine else .host

/-- One atomic step of the interleaving of R71. -/
def schedule (s : State) : Result :=
  match s.turns with
  | [] => takeTurn (defaultTurn s) s
  | t :: ts => takeTurn t { s with turns := ts }

/-- The state in which a command word has just been written to CMD, with the engine to move next. DESIGN CHOICE
(log entry 9). -/
def placeCommand (s : State) (w : Word) : State :=
  { s.start w with turns := .engine :: s.turns }

end Sys2Proof.Machine
end

