-- ==== Sys2Proof/Machine/Step.lean ====
section
/-! DEFINITION. The step of the machine: one atomic step of the host, the engine or reset (R71). -/

namespace Sys2Proof.Machine

/-- One atomic step. -/
def step : State → Host.Outcome State Fault Refusal := schedule

/-- The state in which the next step runs the command whose bits are w: CMD written while idle, and the engine to
move (log entry 9). -/
def State.withFetchWord (s : State) (nbits w : Nat) : State := placeCommand s (tableWord nbits w)

end Sys2Proof.Machine
end

