-- ==== Sys2Proof/Safety.lean ====
section
/-! DEFINITION. The terms that claims use: the block's part of a state, the invariant of the machine, a reported
error, and the end of a run. -/

namespace Sys2Proof.Machine

/-- The block's part of a state (R20, R45): the host's program and log, the schedule and the count of draws are
left out. -/
def State.block (s : State) : State := { s with program := [], turns := [], log := [], draws := 0 }

/-- What holds in every state that a run reaches. -/
structure Inv (s : State) : Prop where
  /-- A command is pending exactly while BUSY = 1 (R29, R195, R196). -/
  busy_pending : s.busy = s.pending.isSome
  /-- While BUSY = 1 every other field of STATUS is 0 (R67, R195); so BUSY and DONE are never both 1 (R29). -/
  busy_status : s.busy = true → s.done = false ∧ s.err = .ok ∧ s.neras = 0 ∧ s.nerr = 0
  /-- The snapshot still agrees with the registers, which nothing can write while BUSY = 1 (R67, R70). -/
  pending_snapshot : ∀ p, s.pending = some p → p = snapshot s s.cmd
  /-- GEN holds the generator for the current CFG.T (R40). -/
  gen_generator : s.gen = genWindow s.cfgT.toNat (generator s.cfgT.toNat)
  /-- BUF is in canonical form, with at most 255 entries. -/
  buf_wf : s.buf.wf Config.bufDepth
  /-- SYN is in canonical form, with at most 255 entries. -/
  syn_wf : s.syn.wf Config.synDepth

/-- The last completed command reported an error. A claim about a program takes that this is false as a premise
(M13, M14). -/
def reportsError (s : State) : Bool := s.done && decide (s.err ≠ .ok)

/-- The end of a run, R220: the host's program is over and no command is pending. -/
def runOver (s : State) : Bool := s.program.isEmpty && !s.busy

/-! ## Reference arithmetic of R101 -/

/-- The carry-less product of two bytes (R101): the sum of y shifted by i over the bits i of x. -/
def carrylessProduct (x y : Byte) : BitVec 16 :=
  (List.range 8).foldl (fun acc i => if x.getLsbD i then acc ^^^ (y.setWidth 16 <<< i) else acc) 0

/-- A value of up to 15 bits modulo 0x11D (R96): the bits 14 to 8 are cleared from the top. -/
def reduceByPrim (v : BitVec 16) : Byte :=
  ((List.range 7).foldl
    (fun acc i => if acc.getLsbD (14 - i) then acc ^^^ (0x11D#16 <<< (6 - i)) else acc) v).setWidth 8

end Sys2Proof.Machine
end

