-- ==== Sys2Proof/Certificates/Slice0/Obligations.lean ====
section
/-! DEFINITION. The statements about the block, each from numbered rules of the spec. -/

open Sys2Proof Sys2Proof.Machine

/-! ## Command words -/

/-- R80 to R82, R88: no bit of a command's argument is lost in its word. -/
def Obligations.DecodeOfEncodeIsIdentity : Prop :=
  ∀ i : Instr, i.wellFormed = true → decode (encode i) = .ok i

/-- R80 to R82: a word that decodes is the word of the command it decodes to. -/
def Obligations.EncodeOfDecodeIsIdentity : Prop :=
  ∀ (w : Word) (i : Instr), decode w = .ok i → encode i = w ∧ i.wellFormed = true

/-- R82, on the value of the word: bits 7:0 are w mod 256, bits 15:8 are w / 256 mod 256, bits 31:16 are w / 65536. -/
def Obligations.DecodingFollowsTheOpcodeMap : Prop :=
  (∀ w : Word,
    (w.toNat / 65536 ≠ 0 → ∃ e, decode w = .error e) ∧
    (w.toNat / 65536 = 0 → w.toNat % 256 ∈ [0x01, 0x02, 0x03, 0x04] → w.toNat / 256 % 256 ≠ 0 →
      ∃ e, decode w = .error e) ∧
    (w.toNat / 65536 = 0 → w.toNat / 256 % 256 = 0 →
      (w.toNat % 256 = 0x01 → decode w = .ok .gfMul) ∧ (w.toNat % 256 = 0x02 → decode w = .ok .gfDiv) ∧
      (w.toNat % 256 = 0x03 → decode w = .ok .gfPow) ∧ (w.toNat % 256 = 0x04 → decode w = .ok .gfInv)) ∧
    (w.toNat / 65536 = 0 →
      (w.toNat % 256 = 0x10 → decode w = .ok (.rsConfig (w.toNat / 256 % 256))) ∧
      (w.toNat % 256 = 0x11 → decode w = .ok (.rsEncode (w.toNat / 256 % 256))) ∧
      (w.toNat % 256 = 0x12 → decode w = .ok (.rsSyndrome (w.toNat / 256 % 256))) ∧
      (w.toNat % 256 = 0x13 → decode w = .ok (.rsDecode (w.toNat / 256 % 256)))) ∧
    (w.toNat / 65536 = 0 → w.toNat % 256 ∉ [0x01, 0x02, 0x03, 0x04, 0x10, 0x11, 0x12, 0x13] →
      ∃ e, decode w = .error e)) ∧
  (∀ w : Word, (∃ i, decode w = .ok i) ↔
    w ∈ [0x00000001, 0x00000002, 0x00000003, 0x00000004] ∨
      ∃ kk : Byte, w ∈ [0x0000#16 ++ kk ++ 0x10#8, 0x0000#16 ++ kk ++ 0x11#8,
        0x0000#16 ++ kk ++ 0x12#8, 0x0000#16 ++ kk ++ 0x13#8]) ∧
  (∀ (s : State) (p : Pending) (e : DecodeError), s.busy = true → s.pending = some p → decode p.word = .error e →
    ∃ t, engineTurn s = .next t ∧ t.err = .illegalCmd)

/-- R83: each row of the opcode table, by match and mask, and at most one row for a word. -/
def Obligations.RowsMatchAndDoNotOverlap : Prop :=
  (∀ w : Word,
    (decode w = .ok .gfMul ↔ w &&& 0xFFFFFFFF = 0x00000001) ∧
    (decode w = .ok .gfDiv ↔ w &&& 0xFFFFFFFF = 0x00000002) ∧
    (decode w = .ok .gfPow ↔ w &&& 0xFFFFFFFF = 0x00000003) ∧
    (decode w = .ok .gfInv ↔ w &&& 0xFFFFFFFF = 0x00000004) ∧
    ((∃ t, decode w = .ok (.rsConfig t)) ↔ w &&& 0xFFFF00FF = 0x00000010) ∧
    ((∃ k, decode w = .ok (.rsEncode k)) ↔ w &&& 0xFFFF00FF = 0x00000011) ∧
    ((∃ k, decode w = .ok (.rsSyndrome k)) ↔ w &&& 0xFFFF00FF = 0x00000012) ∧
    ((∃ k, decode w = .ok (.rsDecode k)) ↔ w &&& 0xFFFF00FF = 0x00000013)) ∧
  (∀ (w : Word) (i j : Fin 8),
    let rows : Vector (Word × Word) 8 :=
      #v[(0x00000001, 0xFFFFFFFF), (0x00000002, 0xFFFFFFFF), (0x00000003, 0xFFFFFFFF), (0x00000004, 0xFFFFFFFF),
         (0x00000010, 0xFFFF00FF), (0x00000011, 0xFFFF00FF), (0x00000012, 0xFFFF00FF), (0x00000013, 0xFFFF00FF)]
    w &&& rows[i].2 = rows[i].1 → w &&& rows[j].2 = rows[j].1 → i = j)

/-- R89: the example words. -/
def Obligations.ExampleWordsDecode : Prop :=
  decode 0x00000001 = .ok .gfMul ∧ decode 0x00000410 = .ok (.rsConfig 4) ∧
  decode 0x00000511 = .ok (.rsEncode 5) ∧ decode 0x00000513 = .ok (.rsDecode 5) ∧
  decode 0x00000512 = .ok (.rsSyndrome 5) ∧ decode 0x00010001 = .error .reservedBits ∧
  decode 0x00000101 = .error .argumentNotZero ∧ decode 0x00000000 = .error .unknownOpcode

/-- R63 and R85: byte k of a word is its bits 8k+7:8k, and the decoder reads the same command from the four bytes,
lowest address first; no other number of bytes is a command. That a command word is read from its byte lanes is the
model's (DEDUCED, log entry 10): the block itself takes a command word whole, from a write of CMD. -/
def Obligations.ByteLanesCarryTheCommand : Prop :=
  (∀ (w : Word) (k : Nat), k < 4 → (byteLane w k).toNat = w.toNat / 2 ^ (8 * k) % 256) ∧
  (∀ w : Word, decodeBytes (bytesOfWord w) = decode w) ∧
  (∀ bs : List Byte, bs.length ≠ 4 → decodeBytes bs = .error .wrongLength)

/-! ## Register space -/

/-- R44, R60, R75: what each aligned offset names, the edges of the windows included, and the block decodes only the
offset from BASE, whatever BASE is. -/
def Obligations.OffsetsNameTheRegisters : Prop :=
  (∀ off : Offset, offsetOfAddress (busAddress off) = some off) ∧
  (∀ (a : Nat) (off : Offset), offsetOfAddress a = some off → busAddress off = a) ∧
  (∀ a : Nat, (offsetOfAddress a = none ↔ a < Config.base ∨ Config.base + 0x2000 ≤ a)) ∧
  ∀ off : Offset, off.toNat % 4 = 0 →
    regAt off =
      if off.toNat = 0x0000 then .cap0 else if off.toNat = 0x0004 then .cap1
      else if off.toNat = 0x0008 then .ctrl else if off.toNat = 0x000C then .cmd
      else if off.toNat = 0x0010 then .status else if off.toNat = 0x0014 then .cfg
      else if off.toNat = 0x0018 then .opa else if off.toNat = 0x001C then .opb
      else if off.toNat = 0x0020 then .opn else if off.toNat = 0x0024 then .result
      else if off.toNat ≤ 0x03FC then .unmapped
      else if off.toNat ≤ 0x0400 + 4 * 254 then .buf ((off.toNat - 0x0400) / 4)
      else if off.toNat = 0x07FC then .unmapped
      else if off.toNat ≤ 0x0800 + 4 * 255 then .gen ((off.toNat - 0x0800) / 4)
      else if off.toNat ≤ 0x0C00 + 4 * 254 then .syn ((off.toNat - 0x0C00) / 4)
      else if off.toNat = 0x0FFC then .unmapped
      else if off.toNat ≤ 0x1000 + 4 * 511 then .exp ((off.toNat - 0x1000) / 4)
      else if off.toNat ≤ 0x1800 + 4 * 255 then .log ((off.toNat - 0x1800) / 4)
      else .unmapped

/-- R28: where the fields of STATUS stand. -/
def Obligations.StatusWordLayout : Prop :=
  ∀ s : State, ∃ w : Word, readReg s .status = some w ∧
    w.toNat = s.nerr.toNat * 2 ^ 16 + s.neras.toNat * 2 ^ 8 + s.err.code.toNat * 2 ^ 4 +
      (if s.done = true then 2 else 0) + (if s.busy = true then 1 else 0)

/-- R65: a host turn whose operation is not a write changes nothing in the block. -/
def Obligations.ReadsHaveNoSideEffects : Prop :=
  ∀ s t : State, (∀ off width v rest, s.program ≠ .write off width v :: rest) → hostTurn s = .next t →
    t.block = s.block ∧ t.turns = s.turns

/-- R24 to R43, R66, R67, R76: the word that a read of each register, window entry and unmapped offset returns. CFG,
RESULT, BUF, GEN and SYN have one only while idle; the others have it at any time, also while a command is pending. An
aligned read of an offset that has such a word completes, and hands the word to the host. EXP is stated by the
procedure of R98; its last entry, EXP[511] = 2, is an inference of the spec (DEDUCED, log entry 16). -/
def Obligations.IdleReadsReturnTheFields : Prop :=
  ∀ s : State,
    (readReg s .cap0 = some 0x0002011D ∧ readReg s .cap1 = some 0x000000FF ∧
      readReg s .ctrl = some (if s.ie = true then 1 else 0) ∧ readReg s .cmd = some s.cmd ∧
      readReg s .status = some (BitVec.ofNat 32 (s.nerr.toNat * 2 ^ 16 + s.neras.toNat * 2 ^ 8 +
        s.err.code.toNat * 2 ^ 4 + (if s.done = true then 2 else 0) + (if s.busy = true then 1 else 0))) ∧
      readReg s .opa = some (s.opa.setWidth 32) ∧ readReg s .opb = some (s.opb.setWidth 32) ∧
      readReg s .opn = some (s.opn.setWidth 32) ∧ readReg s .unmapped = some 0 ∧
      (∀ i : Nat, i < 512 → readReg s (.exp i) = some ((expBuilt (i % 255)).setWidth 32)) ∧
      readReg s (.log 0) = some 0 ∧
      (∀ v : Byte, v ≠ 0 → readReg s (.log v.toNat) = some (BitVec.ofNat 32 (256 + logTable v)))) ∧
    (s.busy = false →
      readReg s .cfg = some (s.cfgT.setWidth 32) ∧ readReg s .result = some (s.result.setWidth 32) ∧
      (∀ (i : Nat) (x : Symbol), s.buf.read i = some x →
        readReg s (.buf i) = some (BitVec.ofNat 32 (x.value.toNat + if x.erased = true then 256 else 0))) ∧
      (∀ i : Fin 256, readReg s (.gen i) = some (s.gen[i].setWidth 32)) ∧
      (∀ (i : Nat) (v : Byte), s.syn.read i = some v → readReg s (.syn i) = some (v.setWidth 32))) ∧
    (∀ (off : Offset) (v : Word) (rest : List HostOp), off.toNat % 4 = 0 →
      s.program = .read off .word :: rest → readReg s (regAt off) = some v →
      hostTurn s = .next { s with program := rest, log := s.log ++ [(off, v)] })

/-- R67, R48: a read that returns an unspecified word returns the next free word, whatever that word is: while busy
from RESULT, CFG, BUF, GEN and SYN, and at any time from an entry of BUF or SYN that holds no value. -/
def Obligations.UnspecifiedReadsReturnAFreeWord : Prop :=
  ∀ (s : State) (off : Offset) (rest : List HostOp), off.toNat % 4 = 0 →
    s.program = .read off .word :: rest →
    (s.busy = true ∧ (regAt off = .result ∨ regAt off = .cfg ∨ ∃ i, regAt off = .buf i ∨ regAt off = .gen i ∨
        regAt off = .syn i)) ∨
      (∃ i, (regAt off = .buf i ∧ s.buf.read i = none) ∨ (regAt off = .syn i ∧ s.syn.read i = none)) →
    hostTurn s = .next { s with
      program := rest, log := s.log ++ [(off, Config.freeWord s.draws)], draws := s.draws + 1 }

/-- R67: a read of STATUS while a command is pending returns 0x00000001. -/
def Obligations.BusyStatusReadsOne : Prop :=
  ∀ s : State, Inv s → s.busy = true → readReg s .status = some 0x00000001

/-- R67: what a write does while a command is pending. -/
def Obligations.BusyWritesAreIgnored : Prop :=
  ∀ (s : State) (off : Offset) (v : Word), Inv s → s.busy = true → off.toNat % 4 = 0 →
    hostWrite s off v = if off.toNat = 0x0008 then { s with ie := v.getLsbD 0 } else s

/-- R30, R66, R76: what a write stores in an idle block, for every offset, CMD apart. -/
def Obligations.IdleWritesStoreTheWritableBits : Prop :=
  ∀ (s : State) (off : Offset) (v : Word), s.busy = false → off.toNat % 4 = 0 → off.toNat ≠ 0x000C →
    hostWrite s off v =
      if off.toNat = 0x0008 then { s with ie := decide (v.toNat % 2 = 1) }
      else if off.toNat = 0x0010 then { s with done := s.done && decide (v.toNat / 2 % 2 = 0) }
      else if off.toNat = 0x0018 then { s with opa := BitVec.ofNat 8 (v.toNat % 256) }
      else if off.toNat = 0x001C then { s with opb := BitVec.ofNat 8 (v.toNat % 256) }
      else if off.toNat = 0x0020 then { s with opn := BitVec.ofNat 16 (v.toNat % 65536) }
      else if 0x0400 ≤ off.toNat ∧ off.toNat ≤ 0x07F8 then
        { s with
          buf := s.buf.write ((off.toNat - 0x0400) / 4)
            (Symbol.mk (BitVec.ofNat 8 (v.toNat % 256)) (decide (v.toNat / 256 % 2 = 1))) }
      else s

/-- R61, R62: an access of another width, or not word aligned, has no step. -/
def Obligations.UndefinedAccessesAreRefused : Prop :=
  ∀ (s : State) (off : Offset) (width : Width) (v : Word) (rest : List HostOp),
    s.program = .read off width :: rest ∨ s.program = .write off width v :: rest →
    (width ≠ .word → hostTurn s = .refused .accessWidth) ∧
    (width = .word → off.toNat % 4 ≠ 0 → hostTurn s = .refused .misalignedAccess)

/-! ## Start, step, completion, interrupt -/

/-- R195, R27: a write of CMD, idle and busy. -/
def Obligations.CmdWriteStartsACommandWhenIdle : Prop :=
  ∀ (s : State) (w : Word) (rest : List HostOp), s.program = .write 0x000C .word w :: rest →
    (s.busy = false → hostTurn s = .next { s with
      program := rest, cmd := w, busy := true, done := false, err := .ok, neras := 0, nerr := 0,
      pending := some { word := w, cfgT := s.cfgT, opa := s.opa, opb := s.opb, opn := s.opn, buf := s.buf } }) ∧
    (s.busy = true → hostTurn s = .next { s with program := rest })

/-- R195: a write of CMD is the only way a command starts. -/
def Obligations.OnlyACmdWriteStartsACommand : Prop :=
  ∀ s t : State, step s = .next t → s.busy = false → t.busy = true →
    ∃ off w rest, s.program = .write off .word w :: rest ∧ regAt off = .cmd ∧ t.cmd = w ∧
      t.pending = some (snapshot s w)

/-- R70, R74, R195: nothing the host does reaches a command that has started. -/
def Obligations.HostCannotReachAPendingCommand : Prop :=
  ∀ (s t : State) (p : Pending), s.busy = true → s.pending = some p → hostTurn s = .next t →
    t.pending = some p ∧ t.busy = true ∧ t.cmd = s.cmd ∧ t.cfgT = s.cfgT ∧ t.result = s.result ∧
      t.opa = s.opa ∧ t.opb = s.opb ∧ t.opn = s.opn ∧ t.buf = s.buf ∧ t.gen = s.gen ∧ t.syn = s.syn

/-- R196: when the engine moves while a command is pending, the step is exec of the command that the pending word
decodes to; a placed word, given by its bits or its bytes, is run by the very next step. -/
def Obligations.StepRunsThePendingCommand : Prop :=
  (∀ (s : State) (p : Pending) (i : Instr), s.busy = true → s.pending = some p → decode p.word = .ok i →
    (s.turns = [] → step s = exec i s) ∧
    (∀ ts, s.turns = .engine :: ts → step s = exec i { s with turns := ts })) ∧
  (∀ (s : State) (w : Word) (i : Instr), decode w = .ok i → step (placeCommand s w) = exec i (s.start w)) ∧
  (∀ (s : State) (w : Nat) (i : Instr), decodeTableWord 32 w = some i →
    step (s.withFetchWord 32 w) = exec i (s.start (BitVec.ofNat 32 w)))

/-- R87: POLL reads STATUS until BUSY reads 0; WAITIRQ waits for IRQ and then reads STATUS. -/
def Obligations.PollAndWaitIrqSynchronise : Prop :=
  ∀ (s : State) (rest : List HostOp),
    (s.program = .poll :: rest → s.busy = true →
      hostTurn s = .next { s with log := s.log ++ [(0x0010, statusWord s)] }) ∧
    (s.program = .poll :: rest → s.busy = false →
      hostTurn s = .next { s with log := s.log ++ [(0x0010, statusWord s)], program := rest }) ∧
    (s.program = .waitIrq :: rest → s.irq = false → hostTurn s = .next s) ∧
    (s.program = .waitIrq :: rest → s.irq = true →
      hostTurn s = .next { s with log := s.log ++ [(0x0010, statusWord s)], program := rest })

/-- R192: an Illegal word, from its write to its completion. -/
def Obligations.IllegalWordCompletesWithIllegalCmd : Prop :=
  ErrorKind.illegalCmd.code = 6 ∧
  ∀ (s : State) (w : Word) (e : DecodeError) (rest : List HostOp), s.busy = false → decode w = .error e →
    s.program = .write 0x000C .word w :: rest →
    ∃ s1, hostTurn s = .next s1 ∧ s1.busy = true ∧
      engineTurn s1 = .next { s with
        program := rest, cmd := w, busy := false, done := true, err := .illegalCmd, neras := 0, nerr := 0,
        pending := none }

/-- R196: the engine's turn while busy either completes the command, or finds a buffer entry that holds no value. -/
def Obligations.EngineCompletesOrFindsNoValue : Prop :=
  ∀ s : State, Inv s → s.busy = true →
    (∃ t, engineTurn s = .next t ∧ t.busy = false ∧ t.done = true ∧ t.pending = none ∧ t.cmd = s.cmd ∧
      t.ie = s.ie ∧ t.opa = s.opa ∧ t.opb = s.opb ∧ t.opn = s.opn ∧ t.program = s.program ∧ t.log = s.log) ∨
    (engineTurn s = .fault .unwrittenSymbol ∧ ∃ j, j < 255 ∧ s.buf.read j = none)

/-- R196, R215: every started command completes, unless a reset cancels it, within the schedule that stands plus one
step, or the run stops on an entry that holds no value or on an undefined access. -/
def Obligations.EveryStartedCommandCompletes : Prop :=
  ∀ s : State, Inv s → s.busy = true → ∃ n, n ≤ s.turns.length + 1 ∧
    match Host.Core.run Sys2Proof.core n s with
    | .next t => State.busy t = false
    | .fault r => r = Fault.unwrittenSymbol
    | .refused r => r = Refusal.accessWidth ∨ r = Refusal.misalignedAccess

/-- R198, R199: the interrupt output, and what makes it fall and rise. -/
def Obligations.InterruptIsDoneAndEnabled : Prop :=
  ∀ s : State, (s.irq = true ↔ s.done = true ∧ s.ie = true) ∧
    (∀ v : Word, v.getLsbD 1 = true → (hostWrite s 0x0010 v).irq = false) ∧
    (∀ v : Word, v.getLsbD 1 = false → (hostWrite s 0x0010 v).irq = s.irq) ∧
    (∀ v : Word, v.getLsbD 0 = false → (hostWrite s 0x0008 v).irq = false) ∧
    (∀ v : Word, v.getLsbD 0 = true → (hostWrite s 0x0008 v).irq = s.done) ∧
    (∀ v : Word, s.busy = false → (hostWrite s 0x000C v).irq = false)

/-! ## Reset and invariants -/

/-- R47: the state after reset. EXP and LOG are stated by the procedure of R98, not by the tables of the
model. EXP[511] = 2 is an inference of the spec, R99 (DEDUCED, log entry 16). -/
def Obligations.ResetStateIsAsStated : Prop :=
  readReg State.reset .cap0 = some 0x0002011D ∧ readReg State.reset .cap1 = some 0x000000FF ∧
  readReg State.reset .ctrl = some 0 ∧ State.reset.ie = false ∧ readReg State.reset .cmd = some 0 ∧
  readReg State.reset .status = some 0 ∧ State.reset.busy = false ∧ State.reset.done = false ∧
  State.reset.err = .ok ∧ State.reset.neras = 0 ∧ State.reset.nerr = 0 ∧
  readReg State.reset .cfg = some 0 ∧ readReg State.reset .opa = some 0 ∧ readReg State.reset .opb = some 0 ∧
  readReg State.reset .opn = some 0 ∧ readReg State.reset .result = some 0 ∧
  (∀ i : Fin 256, State.reset.gen[i] = if i = 0 then 1 else 0) ∧
  (∀ i : Nat, State.reset.buf.read i = none ∧ State.reset.syn.read i = none) ∧
  (∀ i : Nat, i < 512 → readReg State.reset (.exp i) = some ((expBuilt (i % 255)).setWidth 32)) ∧
  (∀ i : Nat, i < 255 → readReg State.reset (.log (expBuilt i).toNat) = some (BitVec.ofNat 32 (256 + i))) ∧
  readReg State.reset (.log 0) = some 0 ∧
  State.reset.pending = none ∧ State.reset.irq = false

/-- R210: the reset event, at any instant. -/
def Obligations.ResetEventRestoresTheResetState : Prop :=
  ∀ (s : State) (ts : List Turn), s.turns = .reset :: ts →
    ∃ t, step s = .next t ∧ t.block = State.reset.block ∧ t.pending = none ∧ t.irq = false ∧
      t.program = s.program ∧ t.turns = ts ∧ t.log = s.log

/-- The invariant of the machine holds after reset (R47). -/
def Obligations.InvariantHoldsAfterReset : Prop := Inv State.reset

/-- R29, R40, R67, R195, R196: every step keeps the invariant, from every state that meets it. -/
def Obligations.EveryStepKeepsTheInvariant : Prop :=
  ∀ s t : State, Inv s → step s = .next t → Inv t

/-- R34, R40: only RS_CONFIG and reset write CFG.T and GEN. -/
def Obligations.OnlyRsConfigWritesTheConfiguration : Prop :=
  ∀ s t : State, step s = .next t → t.cfgT ≠ s.cfgT ∨ t.gen ≠ s.gen →
    (∃ ts, s.turns = .reset :: ts) ∨
    ∃ p n, s.pending = some p ∧ s.busy = true ∧ decode p.word = .ok (.rsConfig n) ∧ t.err = .ok ∧
      t.cfgT.toNat = n ∧ t.gen = genWindow n (generator n)

/-- R38: only a successful field command and reset write RESULT. -/
def Obligations.OnlyFieldCommandsWriteTheResult : Prop :=
  ∀ s t : State, step s = .next t → t.result ≠ s.result →
    (∃ ts, s.turns = .reset :: ts) ∨
    ∃ p, s.pending = some p ∧ s.busy = true ∧ t.err = .ok ∧
      (decode p.word = .ok .gfMul ∨ decode p.word = .ok .gfDiv ∨ decode p.word = .ok .gfPow ∨
        decode p.word = .ok .gfInv)

/-- R39, R41, R65, R219: what can write BUF and SYN. -/
def Obligations.OnlyCodecCommandsAndTheHostWriteTheWindows : Prop :=
  ∀ s t : State, step s = .next t →
    (t.syn ≠ s.syn → (∃ ts, s.turns = .reset :: ts) ∨
      ∃ p k, s.pending = some p ∧ s.busy = true ∧
        (decode p.word = .ok (.rsSyndrome k) ∨ decode p.word = .ok (.rsDecode k))) ∧
    (t.buf ≠ s.buf → (∃ ts, s.turns = .reset :: ts) ∨
      (s.busy = false ∧ ∃ off w rest i, s.program = .write off .word w :: rest ∧ regAt off = .buf i) ∨
      ∃ p k, s.pending = some p ∧ s.busy = true ∧ t.err = .ok ∧
        (decode p.word = .ok (.rsEncode k) ∨ decode p.word = .ok (.rsDecode k)))

/-! ## Field commands -/

/-- R106, whole: the result, the status, the frame, the encoding, the corner cases and the example. -/
def Obligations.GfMulWritesTheProduct : Prop :=
  (∀ (s : State) (p : Pending), s.pending = some p →
    exec .gfMul s = .next { s with
      result := gmul p.opa p.opb, busy := false, done := true, err := .ok, neras := 0, nerr := 0,
      pending := none }) ∧
  decode 0x00000001 = .ok .gfMul ∧ (∀ x : Byte, gmul x 0 = 0 ∧ gmul 0 x = 0) ∧ gmul 16 16 = 29 ∧ gmul 2 2 = 4

/-- R107, whole: the quotient is the element whose product with y is x; DIV_BY_ZERO when y = 0, whatever x is. -/
def Obligations.GfDivWritesTheQuotient : Prop :=
  (∀ (s : State) (p : Pending), s.pending = some p →
    (p.opb = 0 → exec .gfDiv s = .next { s with
      busy := false, done := true, err := .divByZero, neras := 0, nerr := 0, pending := none }) ∧
    (p.opb ≠ 0 → ∃ v, gdiv p.opa p.opb = .ok v ∧ gmul v p.opb = p.opa ∧
      exec .gfDiv s = .next { s with
        result := v, busy := false, done := true, err := .ok, neras := 0, nerr := 0, pending := none })) ∧
  decode 0x00000002 = .ok .gfDiv ∧ ErrorKind.divByZero.code = 1 ∧
  (∀ x : Byte, x ≠ 0 → gdiv 0 x = .ok 0 ∧ gdiv x x = .ok 1) ∧ gdiv 4 2 = .ok 2

/-- R108, whole: the power with a signed exponent; LOG_OF_ZERO when x = 0, for every n. -/
def Obligations.GfPowWritesThePower : Prop :=
  (∀ (s : State) (p : Pending), s.pending = some p →
    (p.opa = 0 → exec .gfPow s = .next { s with
      busy := false, done := true, err := .logOfZero, neras := 0, nerr := 0, pending := none }) ∧
    (p.opa ≠ 0 → exec .gfPow s = .next { s with
      result := expTable (((logTable p.opa : Int) * p.opn.toInt) % 255).toNat,
      busy := false, done := true, err := .ok, neras := 0, nerr := 0, pending := none })) ∧
  decode 0x00000003 = .ok .gfPow ∧ ErrorKind.logOfZero.code = 4 ∧
  (∀ x : Byte, x ≠ 0 → gpow x 0 = .ok 1 ∧ gpow x (0xFFFF#16).toInt = ginv x ∧
    gpow x (0x8000#16).toInt = gpow x 127) ∧
  gpow 2 (8#16).toInt = .ok 29 ∧ gpow 2 (0xFFFF#16).toInt = .ok 142

/-- R109, whole: the inverse is the element whose product with x is 1; LOG_OF_ZERO when x = 0; OPB and OPN are not
read. -/
def Obligations.GfInvWritesTheInverse : Prop :=
  (∀ (s : State) (p : Pending), s.pending = some p →
    (p.opa = 0 → exec .gfInv s = .next { s with
      busy := false, done := true, err := .logOfZero, neras := 0, nerr := 0, pending := none }) ∧
    (p.opa ≠ 0 → ∃ v, ginv p.opa = .ok v ∧ gmul p.opa v = 1 ∧
      exec .gfInv s = .next { s with
        result := v, busy := false, done := true, err := .ok, neras := 0, nerr := 0, pending := none })) ∧
  decode 0x00000004 = .ok .gfInv ∧ ErrorKind.logOfZero.code = 4 ∧ ginv 1 = .ok 1 ∧ ginv 2 = .ok 142 ∧
  gmul 2 142 = 1

/-! ## Field arithmetic -/

/-- R98 to R100: the exponent table is what the procedure builds, and has period 255; the log table maps each
non-zero element to the one exponent in 0..254 that gives it. EXP[511] = 2 is an inference of the spec, R99 (DEDUCED,
log entry 16). -/
def Obligations.TablesAreThePowersOfTwoAndTheirLogs : Prop :=
  expTable 0 = 1 ∧ (∀ i, i < 254 → expTable (i + 1) = xtime (expTable i)) ∧
  (∀ i, 255 ≤ i → i < 512 → expTable i = expTable (i - 255)) ∧
  expTable 255 = 1 ∧ expTable 510 = 1 ∧ expTable 511 = 2 ∧
  (∀ v : Byte, v ≠ 0 → logTable v ≤ 254 ∧ expTable (logTable v) = v) ∧
  (∀ i, i ≤ 254 → expTable i ≠ 0 ∧ logTable (expTable i) = i)

/-- R101, whole. -/
def Obligations.GmulIsMultiplicationModuloPrim : Prop :=
  (∀ x y : Byte, (x = 0 ∨ y = 0 → gmul x y = 0) ∧
    (x ≠ 0 → y ≠ 0 → gmul x y = expTable (logTable x + logTable y) ∧ logTable x + logTable y ≤ 508)) ∧
  (∀ x : Byte, gmul x 1 = x ∧ gmul x 0 = 0) ∧
  (∀ x y : Byte, gmul x y = gmul y x) ∧
  (∀ x y z : Byte, gmul (gmul x y) z = gmul x (gmul y z)) ∧
  (∀ x y z : Byte, gmul x (y ^^^ z) = gmul x y ^^^ gmul x z) ∧
  (∀ x y : Byte, gmul x y = reduceByPrim (carrylessProduct x y))

/-- R102, R104 and the source's properties L-1 and L-2: division undoes multiplication, and the inverse is the
quotient of 1 and the power -1. -/
def Obligations.DivisionUndoesMultiplication : Prop :=
  (∀ x y : Byte, y ≠ 0 → gdiv (gmul x y) y = .ok x) ∧
  (∀ x : Byte, gdiv x 0 = .error .divByZero) ∧
  (∀ x : Byte, x ≠ 0 → ginv x = gdiv 1 x ∧ ginv x = gpow x (-1)) ∧
  ginv 0 = .error .logOfZero

/-- R103: powers multiply, for exponents of either sign, and depend only on the exponent modulo 255. -/
def Obligations.PowersFollowTheExponentLaws : Prop :=
  (∀ x : Byte, x ≠ 0 → ∀ n k : Int, ∃ a b, gpow x n = .ok a ∧ gpow x k = .ok b ∧ gpow x (n + k) = .ok (gmul a b)) ∧
  (∀ x : Byte, x ≠ 0 → gpow x 0 = .ok 1 ∧ gpow x 1 = .ok x) ∧
  (∀ (x : Byte) (n : Int), gpow x n = gpow x (n % 255)) ∧
  (∀ n : Int, gpow 0 n = .error .logOfZero ∧ gpow 1 n = .ok 1)

/-! ## Polynomials -/

/-- R131, R133, R134: evaluation respects sums and products, and a sum is undone by adding again. -/
def Obligations.EvaluationRespectsSumsAndProducts : Prop :=
  (∀ (a b : Poly) (x : Byte), peval (padd a b) x = peval a x ^^^ peval b x) ∧
  (∀ (a b : Poly) (x : Byte), peval (pmul a b) x = gmul (peval a x) (peval b x)) ∧
  (∀ a b : Poly, padd (padd a b) b = zeros (b.length - a.length) ++ a) ∧
  (∀ (c : Byte) (p : Poly), peval (c :: p) 0 = (c :: p).getLastD 0)

/-- R137: the generator grows by one factor for each root; it is monic of length T + 1, and its roots are exactly
2^0 to 2^(T-1). -/
def Obligations.GeneratorHasExactlyTheStatedRoots : Prop :=
  (∀ t, t ≤ 255 → (generator t).length = t + 1 ∧ (generator t).head? = some 1 ∧
    ∀ v : Byte, peval (generator t) v = 0 ↔ ∃ i, i < t ∧ v = expTable i) ∧
  (∀ t, t < 255 → generator (t + 1) = pmul (generator t) [1, expTable t]) ∧
  generator 0 = [1] ∧ generator 1 = [1, 1] ∧ generator 2 = [1, 3, 2] ∧ generator 3 = [1, 7, 14, 8] ∧
  generator 4 = [1, 15, 54, 120, 64]

/-- R139: the locator grows by one factor for each position; its constant term is 1, its roots are the inverses of the locator values, and the order of the
positions does not matter. -/
def Obligations.ErrataLocatorHasTheInverseRoots : Prop :=
  errataLocator [] = [1] ∧
  (∀ (cs : List Nat) (c : Nat), errataLocator (cs ++ [c]) = pmul (errataLocator cs) [expTable c, 1]) ∧
  (∀ cs : List Nat, (errataLocator cs).length = cs.length + 1 ∧ (errataLocator cs).getLast? = some 1) ∧
  (∀ (cs : List Nat) (v : Byte), peval (errataLocator cs) v = 0 ↔ ∃ c, c ∈ cs ∧ gmul v (expTable c) = 1) ∧
  (∀ cs ds : List Nat, cs.Perm ds → errataLocator cs = errataLocator ds)

/-! ## Codec commands -/

/-- R151, whole: RS_CONFIG sets T and builds the generator window, and writes nothing else; its word, the corner
cases T = 0 and T = 255, and the example. -/
def Obligations.RsConfigBuildsTheGenerator : Prop :=
  (∀ tt, tt ≤ 255 → decode (BitVec.ofNat 32 (tt * 256 + 0x10)) = .ok (.rsConfig tt)) ∧
  genWindow 0 (generator 0) = State.reset.gen ∧
  generator 255 = [1] ++ zeros 254 ++ [1] ∧
  generator 4 = [1, 15, 54, 120, 64] ∧
  ∀ (s : State) (p : Pending) (tt : Nat), s.pending = some p → tt ≤ 255 →
    ∃ t, exec (.rsConfig tt) s = .next t ∧
      t = { s with cfgT := BitVec.ofNat 8 tt, gen := t.gen, busy := false, done := true, err := .ok,
                   neras := 0, nerr := 0, pending := none } ∧
      t.cfgT.toNat = tt ∧
      (∀ i : Fin 256, t.gen[i] = if i.val ≤ tt then (generator tt).getD i.val 0 else 0)

/-- R152, R161, R162, R190: each block command reports LENGTH when K + T > 255 and writes nothing else. -/
def Obligations.TooLongWordsReportLength : Prop :=
  ∀ (s : State) (p : Pending) (k : Nat) (i : Instr), s.pending = some p → 255 < k + p.cfgT.toNat →
    i ∈ [.rsEncode k, .rsSyndrome k, .rsDecode k] →
    exec i s = .next { s with
      busy := false, done := true, err := .length, neras := 0, nerr := 0, pending := none }

/-- R48, M6: a block command that reads an entry holding no value stops there. -/
def Obligations.CommandsStopOnEntriesWithoutValue : Prop :=
  ∀ (s : State) (p : Pending) (k j : Nat), s.pending = some p → k + p.cfgT.toNat ≤ 255 → p.buf.read j = none →
    (j < k → exec (.rsEncode k) s = .fault .unwrittenSymbol) ∧
    (j < k + p.cfgT.toNat → exec (.rsSyndrome k) s = .fault .unwrittenSymbol ∧
      exec (.rsDecode k) s = .fault .unwrittenSymbol)

/-- R152: RS_ENCODE writes the codeword over BUF[0..n) with every tag cleared, and nothing else but STATUS; the tags
of the message are ignored. The message and T come from the snapshot; GEN is read at the completion (DEDUCED, log
entry 20), since R195's snapshot does not name it. -/
def Obligations.RsEncodeWritesTheCodeword : Prop :=
  ∀ (s : State) (p : Pending) (k : Nat) (m : Poly), s.pending = some p → k + p.cfgT.toNat ≤ 255 → m.length = k →
    (∀ j, j < k → ∃ e, p.buf.read j = some ⟨m.getD j 0, e⟩) →
    ∃ t, exec (.rsEncode k) s = .next t ∧
      t = { s with buf := t.buf, busy := false, done := true, err := .ok, neras := 0, nerr := 0,
                   pending := none } ∧
      (∀ j, j < k + p.cfgT.toNat → t.buf.read j =
        some ⟨(encodeCore m ((List.range (p.cfgT.toNat + 1)).map fun i => s.gen.toList.getD i 0)
          p.cfgT.toNat).getD j 0, false⟩) ∧
      (∀ j, k + p.cfgT.toNat ≤ j → t.buf.read j = s.buf.read j)

/-- R154: the codeword is the message followed by the remainder of m(x) x^T by the generator, so it is a multiple of
the generator and its syndrome is zero. -/
def Obligations.CodewordIsSystematic : Prop :=
  ∀ (m : Poly) (t : Nat),
    ∃ q r : Poly, encodeCore m (generator t) t = m ++ r ∧ r.length = t ∧ q.length = m.length ∧
      m ++ zeros t = padd (pmul q (generator t)) r ∧
      m ++ r = pmul q (generator t) ∧
      (∀ i, i < t → peval (m ++ r) (expTable i) = 0) ∧
      syndrome (m ++ r) t = zeros t

/-- R155: the parity of a sum is the sum of the parities, and the example with T = 4. -/
def Obligations.EncodingIsLinear : Prop :=
  encodeCore [1] (generator 4) 4 = [1, 15, 54, 120, 64] ∧
  ∀ (m1 m2 : Poly) (t : Nat), m1.length = m2.length →
    encodeCore (List.zipWith (· ^^^ ·) m1 m2) (generator t) t =
      List.zipWith (· ^^^ ·) (encodeCore m1 (generator t) t) (encodeCore m2 (generator t) t)

/-- R161, R163: RS_SYNDROME writes S[i] = W(2^i) over SYN[0..T) and the erasure count, and nothing else. -/
def Obligations.RsSyndromeWritesTheSyndromes : Prop :=
  ∀ (s : State) (p : Pending) (k : Nat) (rx : List Symbol), s.pending = some p → k + p.cfgT.toNat ≤ 255 →
    rx.length = k + p.cfgT.toNat → (∀ j, j < k + p.cfgT.toNat → p.buf.read j = rx[j]?) →
    ∃ t, exec (.rsSyndrome k) s = .next t ∧
      t = { s with syn := t.syn, busy := false, done := true, err := .ok,
                   neras := BitVec.ofNat 8 (rx.countP Symbol.erased), nerr := 0, pending := none } ∧
      (∀ i, i < p.cfgT.toNat → t.syn.read i =
        some (peval (rx.map fun x => if x.erased = true then 0 else x.value) (expTable i))) ∧
      (∀ i, p.cfgT.toNat ≤ i → t.syn.read i = s.syn.read i)

/-- R165: the zero-syndrome path writes the zero-filled working copy back, erasures or not. -/
def Obligations.ZeroSyndromeWritesTheWorkingCopy : Prop :=
  ∀ (s : State) (p : Pending) (k : Nat) (rx : List Symbol), s.pending = some p → k + p.cfgT.toNat ≤ 255 →
    rx.length = k + p.cfgT.toNat → (∀ j, j < k + p.cfgT.toNat → p.buf.read j = rx[j]?) →
    rx.countP Symbol.erased ≤ p.cfgT.toNat →
    (∀ i, i < p.cfgT.toNat → peval (rx.map fun x => if x.erased = true then 0 else x.value) (expTable i) = 0) →
    ∃ t, exec (.rsDecode k) s = .next t ∧
      t = { s with buf := t.buf, syn := t.syn, busy := false, done := true, err := .ok,
                   neras := BitVec.ofNat 8 (rx.countP Symbol.erased), nerr := 0, pending := none } ∧
      (∀ j, j < k + p.cfgT.toNat → t.buf.read j =
        (rx[j]?).map fun x => ⟨if x.erased = true then 0 else x.value, false⟩) ∧
      (∀ j, k + p.cfgT.toNat ≤ j → t.buf.read j = s.buf.read j) ∧
      (∀ i, i < p.cfgT.toNat → t.syn.read i = some 0) ∧
      (∀ i, p.cfgT.toNat ≤ i → t.syn.read i = s.syn.read i)

/-- R162, R166 to R177, R197: the outcome of RS_DECODE on any readable word that fits, in the order of its checks, and
what it writes. DIV_BY_ZERO is reported exactly when two errata have one locator value (R176). The outcomes beyond
the capacity are the one outcome of the rules, R181, which rests on the spec's own choices D25, D26, D28 and D29
(DEDUCED, log entry 12). -/
def Obligations.RsDecodeOutcome : Prop :=
  ∀ (s : State) (p : Pending) (k : Nat) (rx : List Symbol), s.pending = some p → k + p.cfgT.toNat ≤ 255 →
    p.buf.readFrom 0 (k + p.cfgT.toNat) = some rx →
    let n := k + p.cfgT.toNat
    let es := erasures rx
    let sy := syndrome (workingCopy rx) p.cfgT.toNat
    let f := forneySyndromes sy es n
    ∃ loc t, berlekampMassey f = .ok loc ∧ exec (.rsDecode k) s = .next t ∧
      t = { s with buf := t.buf, syn := t.syn, busy := false, done := true, err := t.err,
                   neras := BitVec.ofNat 8 es.length, nerr := t.nerr, pending := none } ∧
      (t.err =
        if p.cfgT.toNat < es.length then .tooManyErasures
        else if sy = zeros p.cfgT.toNat then .ok
        else if p.cfgT.toNat - es.length < 2 * (loc.length - 1) then .tooManyErrors
        else if (∃ i, i < 255 ∧ n ≤ i ∧ peval loc.reverse (expTable i) = 0) ∨
            (chienPositions loc n).length ≠ loc.length - 1 then .tooManyErrors
        else if (es ++ chienPositions loc n).Nodup then .ok else .divByZero) ∧
      (t.err ≠ .ok → t.buf = s.buf ∧ t.nerr = 0) ∧
      (t.err = .ok → sy ≠ zeros p.cfgT.toNat → t.nerr = BitVec.ofNat 8 (loc.length - 1)) ∧
      (∀ i, t.syn.read i =
        if t.err ≠ .tooManyErasures ∧ i < p.cfgT.toNat then some (sy.getD i 0) else s.syn.read i) ∧
      (∀ j, n ≤ j → t.buf.read j = s.buf.read j) ∧
      (t.err = .ok → ∀ j, j < n → ∃ v, t.buf.read j = some ⟨v, false⟩ ∧
        (j ∉ es → j ∉ chienPositions loc n → v = (workingCopy rx).getD j 0)) ∧
      (t.err = .ok → sy = zeros p.cfgT.toNat → ∀ j, j < n →
        t.buf.read j = some ⟨(workingCopy rx).getD j 0, false⟩) ∧
      (t.err = .ok → sy ≠ zeros p.cfgT.toNat →
        ∃ w, correctErrata (workingCopy rx) sy (es ++ chienPositions loc n) n p.cfgT.toNat = .ok w ∧
          ∀ j, j < n → t.buf.read j = some ⟨w.getD j 0, false⟩)

/-- R172 to R175, R177: on the correction path every errata position receives its magnitude, and every other position
keeps the working copy's value. With X_m = 2^(n-1-ps[m]), the magnitude at index l is S(x) times the product of the
1 + X_m x, modulo x^T, at the inverse of X_l, over the product of the 1 + X_m / X_l for the m that are not l. It holds
for any syndromes, so also beyond the capacity, where it is the rules' one outcome (DEDUCED, log entry 12). -/
def Obligations.CorrectionAddsTheMagnitudes : Prop :=
  ∀ (w : Poly) (sy : List Byte) (ps : List Nat) (n t : Nat), w.length = n → n ≤ 255 → ps.Nodup →
    (∀ q, q ∈ ps → q < n) →
    let xs := ps.map fun q => expTable (n - 1 - q)
    let product := pmul sy.reverse ((xs.map fun x => [x, 1]).foldl pmul [1])
    ∃ w', correctErrata w sy ps n t = .ok w' ∧ w'.length = n ∧
      (∀ j, j < n → j ∉ ps → w'.getD j 0 = w.getD j 0) ∧
      (∀ l, l < ps.length → ∃ xinv y,
        ginv (xs.getD l 0) = .ok xinv ∧
        gdiv (peval (product.drop (product.length - t)) xinv)
          ((((List.range ps.length).filter fun m => m ≠ l).map fun m => 1 ^^^ gmul (xs.getD m 0) xinv).foldl gmul 1) =
            .ok y ∧
        w'.getD (ps.getD l 0) 0 = w.getD (ps.getD l 0) 0 ^^^ y)

/-- R166: each pass shortens the syndromes by one, and the order of the erasures does not matter. -/
def Obligations.ForneyPassesCommute : Prop :=
  (∀ (sy : List Byte) (es : List Nat) (n : Nat), es.length ≤ sy.length →
    (forneySyndromes sy es n).length = sy.length - es.length) ∧
  (∀ (sy : List Byte) (es ds : List Nat) (n : Nat), es.Perm ds →
    forneySyndromes sy es n = forneySyndromes sy ds n)

/-- R167, R168, R105: the Berlekamp-Massey pass never fails; its locator has constant term 1 and no leading zero, and
at most one coefficient more than there are syndromes. -/
def Obligations.LocatorIsNormal : Prop :=
  ∀ f : List Byte, ∃ loc, berlekampMassey f = .ok loc ∧ loc.getLast? = some 1 ∧
    (loc.length = 1 ∨ loc.head? ≠ some 0) ∧ loc.length ≤ f.length + 1

/-- R170, R171: for the locator of distinct positions of the word, the Chien search finds exactly those positions, and
no root outside the word. -/
def Obligations.ChienSearchFindsTheLocatorPositions : Prop :=
  ∀ (ps : List Nat) (n : Nat), n ≤ 255 → ps.Nodup → (∀ q, q ∈ ps → q < n) →
    (chienPositions (errataLocator (ps.map fun q => n - 1 - q)) n).Perm ps ∧
    chienOutside (errataLocator (ps.map fun q => n - 1 - q)) n = false ∧
    (chienPositions (errataLocator (ps.map fun q => n - 1 - q)) n).Pairwise (· > ·)

/-- R190, R192: the error codes that a command can report at its completion. -/
def Obligations.CommandsReportOnlyTheirErrors : Prop :=
  ∀ (i : Instr) (s t : State), exec i s = .next t →
    t.err ∈ (match i with
      | .gfMul => [.ok]
      | .gfDiv => [.ok, .divByZero]
      | .gfPow => [.ok, .logOfZero]
      | .gfInv => [.ok, .logOfZero]
      | .rsConfig _ => [.ok]
      | .rsEncode _ => [.ok, .length]
      | .rsSyndrome _ => [.ok, .length]
      | .rsDecode _ => [.ok, .divByZero, .tooManyErasures, .tooManyErrors, .length] : List ErrorKind)

/-- R182: a decode depends on CFG.T, the tags, and the values of the entries that are not erased, and on nothing
else. -/
def Obligations.RsDecodeDependsOnlyOnTheWord : Prop :=
  ∀ (s s' : State) (p p' : Pending) (k : Nat) (t : State), s.pending = some p → s'.pending = some p' →
    p.cfgT = p'.cfgT →
    (∀ j, j < k + p.cfgT.toNat →
      (p.buf.read j).map (fun x => (x.erased, if x.erased = true then 0 else x.value)) =
        (p'.buf.read j).map (fun x => (x.erased, if x.erased = true then 0 else x.value))) →
    exec (.rsDecode k) s = .next t →
    ∃ t', exec (.rsDecode k) s' = .next t' ∧ t'.err = t.err ∧ t'.neras = t.neras ∧ t'.nerr = t.nerr ∧
      (t.err = .ok → ∀ j, j < k + p.cfgT.toNat → t'.buf.read j = t.buf.read j) ∧
      (t.err ∉ [.length, .tooManyErasures] → ∀ i, i < p.cfgT.toNat → t'.syn.read i = t.syn.read i)

/-! ## The code's contract -/

/-- R165, R180 without corruption (L-9): what RS_ENCODE wrote, RS_DECODE accepts and leaves as it is. -/
def Obligations.DecodeOfEncodeReturnsTheMessage : Prop :=
  ∀ (s s1 s2 : State) (p : Pending) (k : Nat), Inv s → s.pending = some p →
    exec (.rsEncode k) s = .next s1 → s1.err = .ok → s2 = s1.start (encode (.rsDecode k)) →
    ∃ t, exec (.rsDecode k) s2 = .next t ∧ t.err = .ok ∧ t.neras = 0 ∧ t.nerr = 0 ∧
      (∀ j, t.buf.read j = s1.buf.read j) ∧
      (∀ j, j < k → (t.buf.read j).map Symbol.value = (p.buf.read j).map Symbol.value)

/-- R180 for erasures alone: up to T erasures of a codeword are filled in. -/
def Obligations.UpToTErasuresAreRecovered : Prop :=
  ∀ (s : State) (p : Pending) (m : Poly) (rx : List Symbol), s.pending = some p →
    m.length + p.cfgT.toNat ≤ 255 → p.buf.readFrom 0 (m.length + p.cfgT.toNat) = some rx →
    (∀ j, j < m.length + p.cfgT.toNat → ∀ x, rx[j]? = some x → x.erased = false →
      x.value = (encodeCore m (generator p.cfgT.toNat) p.cfgT.toNat).getD j 0) →
    rx.countP Symbol.erased ≤ p.cfgT.toNat →
    ∃ t, exec (.rsDecode m.length) s = .next t ∧ t.err = .ok ∧ t.nerr = 0 ∧
      t.neras = BitVec.ofNat 8 (rx.countP Symbol.erased) ∧
      (∀ j, j < m.length + p.cfgT.toNat →
        t.buf.read j = some ⟨(encodeCore m (generator p.cfgT.toNat) p.cfgT.toNat).getD j 0, false⟩)

/-- R180, whole: e erasures and f errors with e + 2f <= T are corrected. -/
def Obligations.CorrectableWordsAreRecovered : Prop :=
  ∀ (s : State) (p : Pending) (m : Poly) (rx : List Symbol), s.pending = some p →
    m.length + p.cfgT.toNat ≤ 255 → p.buf.readFrom 0 (m.length + p.cfgT.toNat) = some rx →
    let c := encodeCore m (generator p.cfgT.toNat) p.cfgT.toNat
    let e := rx.countP Symbol.erased
    let f := (rx.zip c).countP fun xc => !xc.1.erased && decide (xc.1.value ≠ xc.2)
    e + 2 * f ≤ p.cfgT.toNat →
    ∃ t, exec (.rsDecode m.length) s = .next t ∧ t.err = .ok ∧ t.neras = BitVec.ofNat 8 e ∧
      t.nerr = (if syndrome (workingCopy rx) p.cfgT.toNat = zeros p.cfgT.toNat then 0 else BitVec.ofNat 8 f) ∧
      (∀ j, j < m.length + p.cfgT.toNat → t.buf.read j = some ⟨c.getD j 0, false⟩)
end

