-- ==== Sys2Proof/Laws/Memory.lean ====
section
/-! SUPPORT. The laws of the windows that may hold no value: a read after a write, and the canonical form. -/

namespace Sys2Proof.Machine

variable {α : Type}

@[simp] theorem Memory.read_nil (i : Nat) : Memory.read ([] : Memory α) i = none := rfl

/-- What was written is read back. -/
@[simp] theorem Memory.read_write_same (m : Memory α) (i : Nat) (x : α) :
    (m.write i x).read i = some x := by
  induction m with
  | nil => simp [Memory.write, Memory.read]
  | cons c m ih =>
    obtain ⟨j, y⟩ := c
    simp only [Memory.write]
    split
    · simp [Memory.read]
    · split
      · simp [Memory.read]
      · rename_i h; simp [Memory.read, h, ih]

/-- A write leaves every other index alone. -/
theorem Memory.read_write_other (m : Memory α) {i k : Nat} (x : α) (h : k ≠ i) :
    (m.write i x).read k = m.read k := by
  induction m with
  | nil => simp [Memory.write, Memory.read, h]
  | cons c m ih =>
    obtain ⟨j, y⟩ := c
    simp only [Memory.write]
    split
    · simp [Memory.read, h]
    · split
      · rename_i hij; subst hij; simp [Memory.read, h]
      · simp only [Memory.read]; split
        · rfl
        · exact ih

/-- An index listed after a write was listed before or is the one written. -/
theorem Memory.mem_write {m : Memory α} {i : Nat} {x : α} {c : Nat × α} (h : c ∈ m.write i x) :
    c = (i, x) ∨ c ∈ m := by
  induction m with
  | nil => simpa [Memory.write] using h
  | cons d m ih =>
    obtain ⟨j, y⟩ := d
    simp only [Memory.write] at h
    split at h
    · simpa using h
    · split at h
      · rcases List.mem_cons.1 h with h | h
        · exact .inl h
        · exact .inr (List.mem_cons_of_mem _ h)
      · rcases List.mem_cons.1 h with h | h
        · exact .inr (h ▸ List.mem_cons_self)
        · exact (ih h).imp id (List.mem_cons_of_mem _)

/-- A write inside the depth keeps the canonical form. -/
theorem Memory.wf_write {depth : Nat} {m : Memory α} (hm : m.wf depth) {i : Nat} (hi : i < depth) (x : α) :
    (m.write i x).wf depth := by
  refine ⟨?_, fun c hc => ?_⟩
  · obtain ⟨hp, -⟩ := hm
    induction m with
    | nil => simp [Memory.write]
    | cons d m ih =>
      obtain ⟨j, y⟩ := d
      obtain ⟨hj, hp'⟩ := List.pairwise_cons.1 hp
      simp only [Memory.write]
      split
      · rename_i hij
        exact List.pairwise_cons.2
          ⟨fun c hc => (List.mem_cons.1 hc).elim (fun h => h ▸ hij) (fun h => hij.trans (hj c h)), hp⟩
      · split
        · rename_i hij; subst hij; exact List.pairwise_cons.2 ⟨hj, hp'⟩
        · refine List.pairwise_cons.2 ⟨fun c hc => ?_, ih hp'⟩
          rcases Memory.mem_write hc with rfl | h
          · simp only; omega
          · exact hj c h
  · rcases Memory.mem_write hc with rfl | h
    · exact hi
    · exact hm.2 c h

/-- Storing a sequence inside the depth keeps the canonical form. -/
theorem Memory.wf_writeFrom {depth : Nat} {m : Memory α} (hm : m.wf depth) (xs : List α) {i : Nat}
    (hi : i + xs.length ≤ depth) : (m.writeFrom i xs).wf depth := by
  induction xs generalizing m i with
  | nil => exact hm
  | cons x xs ih =>
    simp only [List.length_cons] at hi
    exact ih (Memory.wf_write hm (by omega) x) (by omega)

/-- Storing a sequence leaves every index before it alone. -/
theorem Memory.read_writeFrom_before (m : Memory α) (xs : List α) {i k : Nat} (h : k < i) :
    (m.writeFrom i xs).read k = m.read k := by
  induction xs generalizing m i with
  | nil => rfl
  | cons x xs ih =>
    rw [Memory.writeFrom, ih _ (by omega), Memory.read_write_other _ _ (by omega)]

/-- What an index reads after a sequence is stored. -/
theorem Memory.read_writeFrom (m : Memory α) (xs : List α) (i k : Nat) :
    (m.writeFrom i xs).read k = if i ≤ k ∧ k < i + xs.length then xs[k - i]? else m.read k := by
  induction xs generalizing m i with
  | nil => simp only [Memory.writeFrom, List.length_nil]; rw [if_neg (by omega)]
  | cons x xs ih =>
    rw [Memory.writeFrom, ih]
    by_cases hk : k = i
    · subst hk; simp
    · rw [Memory.read_write_other _ _ hk]
      simp only [List.length_cons]
      by_cases h : i + 1 ≤ k ∧ k < i + 1 + xs.length
      · have : k - i = (k - (i + 1)) + 1 := by omega
        rw [if_pos h, if_pos (by omega), this, List.getElem?_cons_succ]
      · rw [if_neg h, if_neg (by omega)]

/-- A sequence is read exactly when each of its entries holds a value. -/
theorem Memory.readFrom_eq_some {m : Memory α} {i n : Nat} {xs : List α} :
    m.readFrom i n = some xs ↔ xs.length = n ∧ ∀ j, j < n → m.read (i + j) = xs[j]? := by
  induction n generalizing i xs with
  | zero => simp [Memory.readFrom, eq_comm]
  | succ n ih =>
    simp only [Memory.readFrom]
    constructor
    · intro h
      split at h
      · rename_i x ys hx hy
        obtain ⟨hl, hr⟩ := ih.1 hy
        obtain rfl := Option.some.inj h
        refine ⟨by simp [hl], fun j hj => ?_⟩
        cases j with
        | zero => simpa using hx
        | succ j => simpa [Nat.add_assoc, Nat.add_comm 1 j] using hr j (by omega)
      · cases h
    · rintro ⟨hl, hr⟩
      cases xs with
      | nil => simp at hl
      | cons x ys =>
        have h0 : m.read i = some x := by simpa using hr 0 (by omega)
        have hy : m.readFrom (i + 1) n = some ys :=
          ih.2 ⟨by simpa using hl, fun j hj => by
            simpa [Nat.add_assoc, Nat.add_comm 1 j] using hr (j + 1) (by omega)⟩
        rw [h0, hy]

/-- A sequence that is read has the length asked for. -/
theorem Memory.readFrom_length {m : Memory α} {i n : Nat} {xs : List α} (h : m.readFrom i n = some xs) :
    xs.length = n := (Memory.readFrom_eq_some.1 h).1

/-- A sequence is not read exactly when one of its entries holds no value. -/
theorem Memory.readFrom_eq_none {m : Memory α} {i n : Nat} :
    m.readFrom i n = none ↔ ∃ j, j < n ∧ m.read (i + j) = none := by
  induction n generalizing i with
  | zero => simp [Memory.readFrom]
  | succ n ih =>
    simp only [Memory.readFrom]
    cases hx : m.read i with
    | none => exact ⟨fun _ => ⟨0, by omega, by simpa using hx⟩, fun _ => by simp⟩
    | some x =>
      cases hy : m.readFrom (i + 1) n with
      | none =>
        obtain ⟨j, hj, hr⟩ := ih.1 hy
        exact ⟨fun _ => ⟨j + 1, by omega, by simpa [Nat.add_assoc, Nat.add_comm 1 j] using hr⟩, fun _ => by simp⟩
      | some ys =>
        refine ⟨fun h => by simp at h, ?_⟩
        rintro ⟨j, hj, hr⟩
        cases j with
        | zero => simp [hx] at hr
        | succ j =>
          have : m.readFrom (i + 1) n = none :=
            ih.2 ⟨j, by omega, by simpa [Nat.add_assoc, Nat.add_comm 1 j] using hr⟩
          simp [hy] at this

/-- What has just been stored is read back whole. -/
theorem Memory.readFrom_writeFrom (m : Memory α) (xs : List α) (i : Nat) :
    (m.writeFrom i xs).readFrom i xs.length = some xs :=
  Memory.readFrom_eq_some.2 ⟨rfl, fun j hj => by
    rw [Memory.read_writeFrom, if_pos (by omega)]; congr 1; omega⟩

end Sys2Proof.Machine
end

