-- ==== Sys2Proof/Laws/Poly.lean ====
section
/-! SUPPORT. The lengths of the polynomial datapath's results and of what the encoder and the decoder write, and the
entries of an addition into a buffer. -/

namespace Sys2Proof.Machine

/-! ## Datapath -/

@[simp] theorem zeros_length (n : Nat) : (zeros n).length = n := by simp [zeros]

@[simp] theorem pscale_length (p : Poly) (k : Byte) : (pscale p k).length = p.length := by simp [pscale]

/-- R131: the sum has the length of the longer operand. -/
theorem padd_length (a b : Poly) : (padd a b).length = max a.length b.length := by
  simp [padd]; omega

@[simp] theorem xorAt_length (buf : Poly) (p : Nat) (row : Poly) : (xorAt buf p row).length = buf.length := by
  induction buf generalizing p row with
  | nil => rfl
  | cons b buf ih =>
    cases p with
    | zero => cases row with
      | nil => rfl
      | cons r row => simp [xorAt, ih]
    | succ p => simp [xorAt, ih]

@[simp] theorem xorAt_nil_row (buf : Poly) (p : Nat) : xorAt buf p [] = buf := by
  induction buf generalizing p with
  | nil => rfl
  | cons b buf ih => cases p <;> simp [xorAt, ih]

/-- The entry i of a buffer after row is added at p: entry i - p of row is added, where row has one. -/
theorem xorAt_getD (buf : Poly) (p : Nat) (row : Poly) (i : Nat) (h : i < buf.length) :
    (xorAt buf p row).getD i 0 = buf.getD i 0 ^^^ (if p ≤ i then row.getD (i - p) 0 else 0) := by
  induction buf generalizing p row i with
  | nil => simp at h
  | cons b buf ih =>
    cases p with
    | zero => cases row with
      | nil => simp
      | cons r row => cases i with
        | zero => simp [xorAt]
        | succ i => simpa [xorAt] using ih 0 row i (by simpa using h)
    | succ p => cases i with
      | zero => simp [xorAt]
      | succ i => simpa [xorAt] using ih p row i (by simpa using h)

/-- R134: the product has length len(a) + len(b) - 1, for a non-empty b. -/
theorem pmul_length (a b : Poly) (hb : b ≠ []) : (pmul a b).length = a.length + b.length - 1 := by
  have : 0 < b.length := List.length_pos_iff.2 hb
  induction a with
  | nil => simp [pmul]
  | cons c a ih => simp [pmul, ih]; omega

/-- R135: the remainder has exactly k coefficients. -/
@[simp] theorem pmodx_length (a : Poly) (k : Nat) : (pmodx a k).length = k := by
  unfold pmodx; split <;> simp <;> omega

/-- R137: the generator has T + 1 coefficients. -/
theorem generator_length (t : Nat) : (generator t).length = t + 1 := by
  induction t with
  | zero => rfl
  | succ t ih =>
    have : generator (t + 1) = pmul (generator t) [1, expTable t] := by
      simp [generator, List.range_succ]
    rw [this, pmul_length _ _ (by simp), ih]; simp

/-- One more root, R137. -/
theorem generator_succ (t : Nat) : generator (t + 1) = pmul (generator t) [1, expTable t] := by
  simp [generator, List.range_succ]

@[simp] theorem syndrome_length (w : Poly) (t : Nat) : (syndrome w t).length = t := by simp [syndrome]

/-- R138, entry by entry. -/
theorem syndrome_getD (w : Poly) (t i : Nat) (h : i < t) :
    (syndrome w t).getD i 0 = peval w (expTable i) := by simp [syndrome, h]

@[simp] theorem errorEvaluator_length (s : List Byte) (l : Poly) (t : Nat) :
    (errorEvaluator s l t).length = t := by simp [errorEvaluator]

/-! ## Encoder -/

@[simp] theorem reduceAt_length (g buf : Poly) (p : Nat) : (reduceAt g buf p).length = buf.length := by
  simp only [reduceAt]; split <;> simp

/-- The reduction keeps the buffer's length. -/
theorem reduce_length (g : Poly) (ps : List Nat) (buf : Poly) :
    (ps.foldl (reduceAt g) buf).length = buf.length := by
  induction ps generalizing buf with
  | nil => rfl
  | cons p ps ih => simp [ih]

/-- R153: the codeword has K + T symbols. -/
@[simp] theorem encodeCore_length (m g : Poly) (t : Nat) : (encodeCore m g t).length = m.length + t := by
  simp [encodeCore, reduce_length]

/-- R153: the message stands in front. -/
theorem encodeCore_message (m g : Poly) (t : Nat) : (encodeCore m g t).take m.length = m := by
  simp [encodeCore]

/-! ## Decoder -/

@[simp] theorem workingCopy_length (rx : List Symbol) : (workingCopy rx).length = rx.length := by
  simp [workingCopy]

theorem erasures_length_le (rx : List Symbol) : (erasures rx).length ≤ rx.length := by
  simpa [erasures] using List.length_filter_le (fun p => (rx.getD p ⟨0, false⟩).erased) (List.range rx.length)

@[simp] theorem correct_length (w : Poly) (ps : List Nat) (ys : List Byte) :
    (correct w ps ys).length = w.length := by
  unfold correct
  induction ps.zip ys generalizing w with
  | nil => rfl
  | cons py l ih => simp [ih]

/-- The corrected word has the length of the received one. -/
theorem correctErrata_length {w : Poly} {s : List Byte} {ps : List Nat} {n t : Nat} {w' : Poly}
    (h : correctErrata w s ps n t = .ok w') : w'.length = w.length := by
  simp only [correctErrata] at h
  split at h
  · cases h
  · cases h; simp

/-- What a successful location and correction says. -/
theorem locateAndCorrect_ok {w : Poly} {s : List Byte} {es : List Nat} {n t : Nat} {w' : Poly} {nu : Nat}
    (h : locateAndCorrect w s es n t = .ok (w', nu)) :
    ∃ loc, berlekampMassey (forneySyndromes s es n) = .ok loc ∧ nu = loc.length - 1 ∧
      2 * nu ≤ (forneySyndromes s es n).length ∧ chienOutside loc n = false ∧
      (chienPositions loc n).length = nu ∧ correctErrata w s (es ++ chienPositions loc n) n t = .ok w' := by
  simp only [locateAndCorrect] at h
  split at h
  · cases h
  · rename_i loc hloc
    split at h
    · cases h
    · rename_i h2
      split at h
      · cases h
      · rename_i h3
        simp only [not_or, Bool.not_eq_true, ne_eq, not_not] at h3
        split at h
        · cases h
        · rename_i hc
          cases h
          exact ⟨loc, hloc, rfl, by omega, h3.1, h3.2, hc⟩

/-- A decode that reports too many erasures writes nothing else (R162). -/
theorem decodeWord_of_lt {rx : List Symbol} {t : Nat} (h : t < (erasures rx).length) :
    decodeWord rx t = ⟨.tooManyErasures, (erasures rx).length, 0, none, none⟩ := by
  simp [decodeWord, h]

/-- The zero-syndrome path (R165). -/
theorem decodeWord_of_zero {rx : List Symbol} {t : Nat} (h : (erasures rx).length ≤ t)
    (hz : (syndrome (workingCopy rx) t).all (· = 0) = true) :
    decodeWord rx t = ⟨.ok, (erasures rx).length, 0, some (syndrome (workingCopy rx) t), some (workingCopy rx)⟩ := by
  simp only [decodeWord]; rw [if_neg (by omega), if_pos hz]

/-- The correction stages (R166 to R177). -/
theorem decodeWord_of_nonzero {rx : List Symbol} {t : Nat} (h : (erasures rx).length ≤ t)
    (hz : (syndrome (workingCopy rx) t).all (· = 0) = false) :
    decodeWord rx t =
      match locateAndCorrect (workingCopy rx) (syndrome (workingCopy rx) t) (erasures rx) rx.length t with
      | .error k => ⟨k, (erasures rx).length, 0, some (syndrome (workingCopy rx) t), none⟩
      | .ok (w', nu) => ⟨.ok, (erasures rx).length, nu, some (syndrome (workingCopy rx) t), some w'⟩ := by
  have ht : ¬ t < (erasures rx).length := by omega
  cases hl : locateAndCorrect (workingCopy rx) (syndrome (workingCopy rx) t) (erasures rx) rx.length t <;>
    simp only [decodeWord, if_neg ht, hz, hl, Bool.false_eq_true, if_false]

/-- NERAS is the number of erasures, whatever the outcome (R32). -/
@[simp] theorem decodeWord_neras (rx : List Symbol) (t : Nat) :
    (decodeWord rx t).neras = (erasures rx).length := by
  simp only [decodeWord]; repeat' split
  all_goals rfl

/-- The syndromes that a decode writes are T in number (R164). -/
theorem decodeWord_syn_length {rx : List Symbol} {t : Nat} {sy : List Byte}
    (h : (decodeWord rx t).syn = some sy) : sy.length = t := by
  simp only [decodeWord] at h
  repeat' split at h
  all_goals (cases h <;> simp)

/-- The word that a decode writes has the length of the received one (R165, R177). -/
theorem decodeWord_word_length {rx : List Symbol} {t : Nat} {w : Poly}
    (h : (decodeWord rx t).word = some w) : w.length = rx.length := by
  rcases Nat.lt_or_ge t (erasures rx).length with he | he
  · rw [decodeWord_of_lt he] at h; cases h
  · cases hz : (syndrome (workingCopy rx) t).all (· = 0) with
    | true => rw [decodeWord_of_zero he hz] at h; cases h; simp
    | false =>
      rw [decodeWord_of_nonzero he hz] at h
      split at h
      · cases h
      · rename_i hl
        cases h
        obtain ⟨loc, -, -, -, -, -, hc⟩ := locateAndCorrect_ok hl
        simpa using correctErrata_length hc

end Sys2Proof.Machine
end

