-- ==== Sys2Proof/Laws/State.lean ====
section
/-! SUPPORT. The fields of a state after each named update: one lemma per field, so that no proof unfolds an update. -/

namespace Sys2Proof.Machine

/-! ## setResult -/

@[simp] theorem setResult_ie (s : State) (v : Byte) : (s.setResult v).ie = s.ie := rfl
@[simp] theorem setResult_cmd (s : State) (v : Byte) : (s.setResult v).cmd = s.cmd := rfl
@[simp] theorem setResult_busy (s : State) (v : Byte) : (s.setResult v).busy = s.busy := rfl
@[simp] theorem setResult_done (s : State) (v : Byte) : (s.setResult v).done = s.done := rfl
@[simp] theorem setResult_err (s : State) (v : Byte) : (s.setResult v).err = s.err := rfl
@[simp] theorem setResult_neras (s : State) (v : Byte) : (s.setResult v).neras = s.neras := rfl
@[simp] theorem setResult_nerr (s : State) (v : Byte) : (s.setResult v).nerr = s.nerr := rfl
@[simp] theorem setResult_cfgT (s : State) (v : Byte) : (s.setResult v).cfgT = s.cfgT := rfl
@[simp] theorem setResult_opa (s : State) (v : Byte) : (s.setResult v).opa = s.opa := rfl
@[simp] theorem setResult_opb (s : State) (v : Byte) : (s.setResult v).opb = s.opb := rfl
@[simp] theorem setResult_opn (s : State) (v : Byte) : (s.setResult v).opn = s.opn := rfl
@[simp] theorem setResult_result (s : State) (v : Byte) : (s.setResult v).result = v := rfl
@[simp] theorem setResult_buf (s : State) (v : Byte) : (s.setResult v).buf = s.buf := rfl
@[simp] theorem setResult_gen (s : State) (v : Byte) : (s.setResult v).gen = s.gen := rfl
@[simp] theorem setResult_syn (s : State) (v : Byte) : (s.setResult v).syn = s.syn := rfl
@[simp] theorem setResult_pending (s : State) (v : Byte) : (s.setResult v).pending = s.pending := rfl
@[simp] theorem setResult_program (s : State) (v : Byte) : (s.setResult v).program = s.program := rfl
@[simp] theorem setResult_turns (s : State) (v : Byte) : (s.setResult v).turns = s.turns := rfl
@[simp] theorem setResult_log (s : State) (v : Byte) : (s.setResult v).log = s.log := rfl
@[simp] theorem setResult_draws (s : State) (v : Byte) : (s.setResult v).draws = s.draws := rfl

/-! ## setConfig -/

@[simp] theorem setConfig_ie (s : State) (t : Nat) : (s.setConfig t).ie = s.ie := rfl
@[simp] theorem setConfig_cmd (s : State) (t : Nat) : (s.setConfig t).cmd = s.cmd := rfl
@[simp] theorem setConfig_busy (s : State) (t : Nat) : (s.setConfig t).busy = s.busy := rfl
@[simp] theorem setConfig_done (s : State) (t : Nat) : (s.setConfig t).done = s.done := rfl
@[simp] theorem setConfig_err (s : State) (t : Nat) : (s.setConfig t).err = s.err := rfl
@[simp] theorem setConfig_neras (s : State) (t : Nat) : (s.setConfig t).neras = s.neras := rfl
@[simp] theorem setConfig_nerr (s : State) (t : Nat) : (s.setConfig t).nerr = s.nerr := rfl
@[simp] theorem setConfig_cfgT (s : State) (t : Nat) : (s.setConfig t).cfgT = BitVec.ofNat 8 t := rfl
@[simp] theorem setConfig_opa (s : State) (t : Nat) : (s.setConfig t).opa = s.opa := rfl
@[simp] theorem setConfig_opb (s : State) (t : Nat) : (s.setConfig t).opb = s.opb := rfl
@[simp] theorem setConfig_opn (s : State) (t : Nat) : (s.setConfig t).opn = s.opn := rfl
@[simp] theorem setConfig_result (s : State) (t : Nat) : (s.setConfig t).result = s.result := rfl
@[simp] theorem setConfig_buf (s : State) (t : Nat) : (s.setConfig t).buf = s.buf := rfl
@[simp] theorem setConfig_gen (s : State) (t : Nat) : (s.setConfig t).gen = genWindow t (generator t) := rfl
@[simp] theorem setConfig_syn (s : State) (t : Nat) : (s.setConfig t).syn = s.syn := rfl
@[simp] theorem setConfig_pending (s : State) (t : Nat) : (s.setConfig t).pending = s.pending := rfl
@[simp] theorem setConfig_program (s : State) (t : Nat) : (s.setConfig t).program = s.program := rfl
@[simp] theorem setConfig_turns (s : State) (t : Nat) : (s.setConfig t).turns = s.turns := rfl
@[simp] theorem setConfig_log (s : State) (t : Nat) : (s.setConfig t).log = s.log := rfl
@[simp] theorem setConfig_draws (s : State) (t : Nat) : (s.setConfig t).draws = s.draws := rfl

/-! ## setWord -/

@[simp] theorem setWord_ie (s : State) (w : Poly) : (s.setWord w).ie = s.ie := rfl
@[simp] theorem setWord_cmd (s : State) (w : Poly) : (s.setWord w).cmd = s.cmd := rfl
@[simp] theorem setWord_busy (s : State) (w : Poly) : (s.setWord w).busy = s.busy := rfl
@[simp] theorem setWord_done (s : State) (w : Poly) : (s.setWord w).done = s.done := rfl
@[simp] theorem setWord_err (s : State) (w : Poly) : (s.setWord w).err = s.err := rfl
@[simp] theorem setWord_neras (s : State) (w : Poly) : (s.setWord w).neras = s.neras := rfl
@[simp] theorem setWord_nerr (s : State) (w : Poly) : (s.setWord w).nerr = s.nerr := rfl
@[simp] theorem setWord_cfgT (s : State) (w : Poly) : (s.setWord w).cfgT = s.cfgT := rfl
@[simp] theorem setWord_opa (s : State) (w : Poly) : (s.setWord w).opa = s.opa := rfl
@[simp] theorem setWord_opb (s : State) (w : Poly) : (s.setWord w).opb = s.opb := rfl
@[simp] theorem setWord_opn (s : State) (w : Poly) : (s.setWord w).opn = s.opn := rfl
@[simp] theorem setWord_result (s : State) (w : Poly) : (s.setWord w).result = s.result := rfl
@[simp] theorem setWord_buf (s : State) (w : Poly) : (s.setWord w).buf = s.buf.writeFrom 0 (w.map fun v => ⟨v, false⟩) := rfl
@[simp] theorem setWord_gen (s : State) (w : Poly) : (s.setWord w).gen = s.gen := rfl
@[simp] theorem setWord_syn (s : State) (w : Poly) : (s.setWord w).syn = s.syn := rfl
@[simp] theorem setWord_pending (s : State) (w : Poly) : (s.setWord w).pending = s.pending := rfl
@[simp] theorem setWord_program (s : State) (w : Poly) : (s.setWord w).program = s.program := rfl
@[simp] theorem setWord_turns (s : State) (w : Poly) : (s.setWord w).turns = s.turns := rfl
@[simp] theorem setWord_log (s : State) (w : Poly) : (s.setWord w).log = s.log := rfl
@[simp] theorem setWord_draws (s : State) (w : Poly) : (s.setWord w).draws = s.draws := rfl

/-! ## setSyndromes -/

@[simp] theorem setSyndromes_ie (s : State) (sy : List Byte) : (s.setSyndromes sy).ie = s.ie := rfl
@[simp] theorem setSyndromes_cmd (s : State) (sy : List Byte) : (s.setSyndromes sy).cmd = s.cmd := rfl
@[simp] theorem setSyndromes_busy (s : State) (sy : List Byte) : (s.setSyndromes sy).busy = s.busy := rfl
@[simp] theorem setSyndromes_done (s : State) (sy : List Byte) : (s.setSyndromes sy).done = s.done := rfl
@[simp] theorem setSyndromes_err (s : State) (sy : List Byte) : (s.setSyndromes sy).err = s.err := rfl
@[simp] theorem setSyndromes_neras (s : State) (sy : List Byte) : (s.setSyndromes sy).neras = s.neras := rfl
@[simp] theorem setSyndromes_nerr (s : State) (sy : List Byte) : (s.setSyndromes sy).nerr = s.nerr := rfl
@[simp] theorem setSyndromes_cfgT (s : State) (sy : List Byte) : (s.setSyndromes sy).cfgT = s.cfgT := rfl
@[simp] theorem setSyndromes_opa (s : State) (sy : List Byte) : (s.setSyndromes sy).opa = s.opa := rfl
@[simp] theorem setSyndromes_opb (s : State) (sy : List Byte) : (s.setSyndromes sy).opb = s.opb := rfl
@[simp] theorem setSyndromes_opn (s : State) (sy : List Byte) : (s.setSyndromes sy).opn = s.opn := rfl
@[simp] theorem setSyndromes_result (s : State) (sy : List Byte) : (s.setSyndromes sy).result = s.result := rfl
@[simp] theorem setSyndromes_buf (s : State) (sy : List Byte) : (s.setSyndromes sy).buf = s.buf := rfl
@[simp] theorem setSyndromes_gen (s : State) (sy : List Byte) : (s.setSyndromes sy).gen = s.gen := rfl
@[simp] theorem setSyndromes_syn (s : State) (sy : List Byte) : (s.setSyndromes sy).syn = s.syn.writeFrom 0 sy := rfl
@[simp] theorem setSyndromes_pending (s : State) (sy : List Byte) : (s.setSyndromes sy).pending = s.pending := rfl
@[simp] theorem setSyndromes_program (s : State) (sy : List Byte) : (s.setSyndromes sy).program = s.program := rfl
@[simp] theorem setSyndromes_turns (s : State) (sy : List Byte) : (s.setSyndromes sy).turns = s.turns := rfl
@[simp] theorem setSyndromes_log (s : State) (sy : List Byte) : (s.setSyndromes sy).log = s.log := rfl
@[simp] theorem setSyndromes_draws (s : State) (sy : List Byte) : (s.setSyndromes sy).draws = s.draws := rfl

/-! ## clearDone -/

@[simp] theorem clearDone_ie (s : State) : (s.clearDone).ie = s.ie := rfl
@[simp] theorem clearDone_cmd (s : State) : (s.clearDone).cmd = s.cmd := rfl
@[simp] theorem clearDone_busy (s : State) : (s.clearDone).busy = s.busy := rfl
@[simp] theorem clearDone_done (s : State) : (s.clearDone).done = false := rfl
@[simp] theorem clearDone_err (s : State) : (s.clearDone).err = s.err := rfl
@[simp] theorem clearDone_neras (s : State) : (s.clearDone).neras = s.neras := rfl
@[simp] theorem clearDone_nerr (s : State) : (s.clearDone).nerr = s.nerr := rfl
@[simp] theorem clearDone_cfgT (s : State) : (s.clearDone).cfgT = s.cfgT := rfl
@[simp] theorem clearDone_opa (s : State) : (s.clearDone).opa = s.opa := rfl
@[simp] theorem clearDone_opb (s : State) : (s.clearDone).opb = s.opb := rfl
@[simp] theorem clearDone_opn (s : State) : (s.clearDone).opn = s.opn := rfl
@[simp] theorem clearDone_result (s : State) : (s.clearDone).result = s.result := rfl
@[simp] theorem clearDone_buf (s : State) : (s.clearDone).buf = s.buf := rfl
@[simp] theorem clearDone_gen (s : State) : (s.clearDone).gen = s.gen := rfl
@[simp] theorem clearDone_syn (s : State) : (s.clearDone).syn = s.syn := rfl
@[simp] theorem clearDone_pending (s : State) : (s.clearDone).pending = s.pending := rfl
@[simp] theorem clearDone_program (s : State) : (s.clearDone).program = s.program := rfl
@[simp] theorem clearDone_turns (s : State) : (s.clearDone).turns = s.turns := rfl
@[simp] theorem clearDone_log (s : State) : (s.clearDone).log = s.log := rfl
@[simp] theorem clearDone_draws (s : State) : (s.clearDone).draws = s.draws := rfl

/-! ## start -/

@[simp] theorem start_ie (s : State) (w : Word) : (s.start w).ie = s.ie := rfl
@[simp] theorem start_cmd (s : State) (w : Word) : (s.start w).cmd = w := rfl
@[simp] theorem start_busy (s : State) (w : Word) : (s.start w).busy = true := rfl
@[simp] theorem start_done (s : State) (w : Word) : (s.start w).done = false := rfl
@[simp] theorem start_err (s : State) (w : Word) : (s.start w).err = .ok := rfl
@[simp] theorem start_neras (s : State) (w : Word) : (s.start w).neras = 0 := rfl
@[simp] theorem start_nerr (s : State) (w : Word) : (s.start w).nerr = 0 := rfl
@[simp] theorem start_cfgT (s : State) (w : Word) : (s.start w).cfgT = s.cfgT := rfl
@[simp] theorem start_opa (s : State) (w : Word) : (s.start w).opa = s.opa := rfl
@[simp] theorem start_opb (s : State) (w : Word) : (s.start w).opb = s.opb := rfl
@[simp] theorem start_opn (s : State) (w : Word) : (s.start w).opn = s.opn := rfl
@[simp] theorem start_result (s : State) (w : Word) : (s.start w).result = s.result := rfl
@[simp] theorem start_buf (s : State) (w : Word) : (s.start w).buf = s.buf := rfl
@[simp] theorem start_gen (s : State) (w : Word) : (s.start w).gen = s.gen := rfl
@[simp] theorem start_syn (s : State) (w : Word) : (s.start w).syn = s.syn := rfl
@[simp] theorem start_pending (s : State) (w : Word) : (s.start w).pending = some (snapshot s w) := rfl
@[simp] theorem start_program (s : State) (w : Word) : (s.start w).program = s.program := rfl
@[simp] theorem start_turns (s : State) (w : Word) : (s.start w).turns = s.turns := rfl
@[simp] theorem start_log (s : State) (w : Word) : (s.start w).log = s.log := rfl
@[simp] theorem start_draws (s : State) (w : Word) : (s.start w).draws = s.draws := rfl

/-! ## complete -/

@[simp] theorem complete_ie (s : State) (e : ErrorKind) (a f : Nat) : (s.complete e a f).ie = s.ie := rfl
@[simp] theorem complete_cmd (s : State) (e : ErrorKind) (a f : Nat) : (s.complete e a f).cmd = s.cmd := rfl
@[simp] theorem complete_busy (s : State) (e : ErrorKind) (a f : Nat) : (s.complete e a f).busy = false := rfl
@[simp] theorem complete_done (s : State) (e : ErrorKind) (a f : Nat) : (s.complete e a f).done = true := rfl
@[simp] theorem complete_err (s : State) (e : ErrorKind) (a f : Nat) : (s.complete e a f).err = e := rfl
@[simp] theorem complete_neras (s : State) (e : ErrorKind) (a f : Nat) : (s.complete e a f).neras = BitVec.ofNat 8 a := rfl
@[simp] theorem complete_nerr (s : State) (e : ErrorKind) (a f : Nat) : (s.complete e a f).nerr = BitVec.ofNat 8 f := rfl
@[simp] theorem complete_cfgT (s : State) (e : ErrorKind) (a f : Nat) : (s.complete e a f).cfgT = s.cfgT := rfl
@[simp] theorem complete_opa (s : State) (e : ErrorKind) (a f : Nat) : (s.complete e a f).opa = s.opa := rfl
@[simp] theorem complete_opb (s : State) (e : ErrorKind) (a f : Nat) : (s.complete e a f).opb = s.opb := rfl
@[simp] theorem complete_opn (s : State) (e : ErrorKind) (a f : Nat) : (s.complete e a f).opn = s.opn := rfl
@[simp] theorem complete_result (s : State) (e : ErrorKind) (a f : Nat) : (s.complete e a f).result = s.result := rfl
@[simp] theorem complete_buf (s : State) (e : ErrorKind) (a f : Nat) : (s.complete e a f).buf = s.buf := rfl
@[simp] theorem complete_gen (s : State) (e : ErrorKind) (a f : Nat) : (s.complete e a f).gen = s.gen := rfl
@[simp] theorem complete_syn (s : State) (e : ErrorKind) (a f : Nat) : (s.complete e a f).syn = s.syn := rfl
@[simp] theorem complete_pending (s : State) (e : ErrorKind) (a f : Nat) : (s.complete e a f).pending = none := rfl
@[simp] theorem complete_program (s : State) (e : ErrorKind) (a f : Nat) : (s.complete e a f).program = s.program := rfl
@[simp] theorem complete_turns (s : State) (e : ErrorKind) (a f : Nat) : (s.complete e a f).turns = s.turns := rfl
@[simp] theorem complete_log (s : State) (e : ErrorKind) (a f : Nat) : (s.complete e a f).log = s.log := rfl
@[simp] theorem complete_draws (s : State) (e : ErrorKind) (a f : Nat) : (s.complete e a f).draws = s.draws := rfl

/-! ## resetBlock -/

@[simp] theorem resetBlock_ie (s : State) : s.resetBlock.ie = State.reset.ie := rfl
@[simp] theorem resetBlock_cmd (s : State) : s.resetBlock.cmd = State.reset.cmd := rfl
@[simp] theorem resetBlock_busy (s : State) : s.resetBlock.busy = State.reset.busy := rfl
@[simp] theorem resetBlock_done (s : State) : s.resetBlock.done = State.reset.done := rfl
@[simp] theorem resetBlock_err (s : State) : s.resetBlock.err = State.reset.err := rfl
@[simp] theorem resetBlock_neras (s : State) : s.resetBlock.neras = State.reset.neras := rfl
@[simp] theorem resetBlock_nerr (s : State) : s.resetBlock.nerr = State.reset.nerr := rfl
@[simp] theorem resetBlock_cfgT (s : State) : s.resetBlock.cfgT = State.reset.cfgT := rfl
@[simp] theorem resetBlock_opa (s : State) : s.resetBlock.opa = State.reset.opa := rfl
@[simp] theorem resetBlock_opb (s : State) : s.resetBlock.opb = State.reset.opb := rfl
@[simp] theorem resetBlock_opn (s : State) : s.resetBlock.opn = State.reset.opn := rfl
@[simp] theorem resetBlock_result (s : State) : s.resetBlock.result = State.reset.result := rfl
@[simp] theorem resetBlock_buf (s : State) : s.resetBlock.buf = State.reset.buf := rfl
@[simp] theorem resetBlock_gen (s : State) : s.resetBlock.gen = State.reset.gen := rfl
@[simp] theorem resetBlock_syn (s : State) : s.resetBlock.syn = State.reset.syn := rfl
@[simp] theorem resetBlock_pending (s : State) : s.resetBlock.pending = State.reset.pending := rfl
@[simp] theorem resetBlock_program (s : State) : s.resetBlock.program = s.program := rfl
@[simp] theorem resetBlock_turns (s : State) : s.resetBlock.turns = s.turns := rfl
@[simp] theorem resetBlock_log (s : State) : s.resetBlock.log = s.log := rfl
@[simp] theorem resetBlock_draws (s : State) : s.resetBlock.draws = s.draws := rfl

/-! ## block -/

@[simp] theorem block_ie (s : State) : s.block.ie = s.ie := rfl
@[simp] theorem block_cmd (s : State) : s.block.cmd = s.cmd := rfl
@[simp] theorem block_busy (s : State) : s.block.busy = s.busy := rfl
@[simp] theorem block_done (s : State) : s.block.done = s.done := rfl
@[simp] theorem block_err (s : State) : s.block.err = s.err := rfl
@[simp] theorem block_neras (s : State) : s.block.neras = s.neras := rfl
@[simp] theorem block_nerr (s : State) : s.block.nerr = s.nerr := rfl
@[simp] theorem block_cfgT (s : State) : s.block.cfgT = s.cfgT := rfl
@[simp] theorem block_opa (s : State) : s.block.opa = s.opa := rfl
@[simp] theorem block_opb (s : State) : s.block.opb = s.opb := rfl
@[simp] theorem block_opn (s : State) : s.block.opn = s.opn := rfl
@[simp] theorem block_result (s : State) : s.block.result = s.result := rfl
@[simp] theorem block_buf (s : State) : s.block.buf = s.buf := rfl
@[simp] theorem block_gen (s : State) : s.block.gen = s.gen := rfl
@[simp] theorem block_syn (s : State) : s.block.syn = s.syn := rfl
@[simp] theorem block_pending (s : State) : s.block.pending = s.pending := rfl

/-- The block's part does not depend on what belongs to the host and the schedule. -/
@[simp] theorem block_of_host_fields (s : State) (pr : List HostOp) (ts : List Turn)
    (lg : List (Offset × Word)) (d : Nat) :
    State.block { s with program := pr, turns := ts, log := lg, draws := d } = s.block := rfl

@[simp] theorem block_program (s : State) (pr : List HostOp) :
    State.block { s with program := pr } = s.block := rfl

@[simp] theorem block_turns (s : State) (ts : List Turn) :
    State.block { s with turns := ts } = s.block := rfl

/-- The snapshot reads only registers that no status update touches. -/
@[simp] theorem snapshot_start (s : State) (w v : Word) : snapshot (s.start w) v = snapshot s v := rfl

end Sys2Proof.Machine
end

