-- ==== Sys2Proof/Laws/Commands.lean ====
section
/-! SUPPORT. What the operations that the commands share can do, said once: the pending command, the length check,
the completion of a field command and of a decode, and the part of the state that no command touches. -/

namespace Sys2Proof.Machine

/-! ## withPending and withLength -/

theorem withPending_some {s : State} {p : Pending} (h : s.pending = some p) (f : Pending → Result) :
    withPending s f = f p := by simp [withPending, h]

theorem withPending_none {s : State} (h : s.pending = none) (f : Pending → Result) :
    withPending s f = .fault .noPendingCommand := by simp [withPending, h]

/-- A command that answers a next state had a pending command. -/
theorem withPending_next {s t : State} {f : Pending → Result} (h : withPending s f = .next t) :
    ∃ p, s.pending = some p ∧ f p = .next t := by
  cases hp : s.pending with
  | none => rw [withPending_none hp] at h; cases h
  | some p => exact ⟨p, rfl, by rwa [withPending_some hp] at h⟩

theorem withLength_of_le {p : Pending} {k : Nat} (h : k + p.cfgT.toNat ≤ 255) (s : State) (f : Nat → Result) :
    withLength s p k f = f (k + p.cfgT.toNat) :=
  if_neg (show ¬ 255 < k + p.cfgT.toNat by omega)

theorem withLength_of_lt {p : Pending} {k : Nat} (h : 255 < k + p.cfgT.toNat) (s : State) (f : Nat → Result) :
    withLength s p k f = .next (s.complete .length 0 0) := if_pos h

/-- A block command either fails its length check or runs on a codeword that fits. -/
theorem withLength_cases (s : State) (p : Pending) (k : Nat) (f : Nat → Result) :
    (255 < k + p.cfgT.toNat ∧ withLength s p k f = .next (s.complete .length 0 0)) ∨
      (k + p.cfgT.toNat ≤ 255 ∧ withLength s p k f = f (k + p.cfgT.toNat)) := by
  rcases Nat.lt_or_ge 255 (k + p.cfgT.toNat) with h | h
  · exact .inl ⟨h, withLength_of_lt h s f⟩
  · exact .inr ⟨h, withLength_of_le h s f⟩

/-! ## Operands -/

/-- The message is read exactly when every entry of BUF[0..K) holds a value. -/
theorem messageOf_eq_some {p : Pending} {k : Nat} {m : Poly} :
    messageOf p k = some m ↔ ∃ xs, p.buf.readFrom 0 k = some xs ∧ m = xs.map Symbol.value := by
  simp only [messageOf]
  cases p.buf.readFrom 0 k with
  | none => simp
  | some xs => simp [eq_comm]

theorem messageOf_length {p : Pending} {k : Nat} {m : Poly} (h : messageOf p k = some m) : m.length = k := by
  obtain ⟨xs, hx, rfl⟩ := messageOf_eq_some.1 h
  simpa using Memory.readFrom_length hx

theorem receivedWord_length {p : Pending} {n : Nat} {rx : List Symbol} (h : receivedWord p n = some rx) :
    rx.length = n := Memory.readFrom_length h

/-! ## Completions -/

/-- The result of a field command: it writes RESULT or reports its error. -/
theorem completeField_cases (s : State) (r : Except ErrorKind Byte) :
    (∃ v, r = .ok v ∧ completeField s r = (s.setResult v).complete .ok 0 0) ∨
      (∃ e, r = .error e ∧ completeField s r = s.complete e 0 0) := by
  cases r with
  | ok v => exact .inl ⟨v, rfl, rfl⟩
  | error e => exact .inr ⟨e, rfl, rfl⟩

/-- A decode's report, applied: BUF and SYN are the only windows written, each by what the report holds. -/
theorem applyReport_eq (s : State) (r : DecodeReport) :
    applyReport s r =
      { s with
        busy := false, done := true, err := r.err, pending := none,
        neras := BitVec.ofNat 8 r.neras, nerr := BitVec.ofNat 8 r.nerr,
        syn := match r.syn with
          | none => s.syn
          | some sy => s.syn.writeFrom 0 sy,
        buf := match r.word with
          | none => s.buf
          | some w => s.buf.writeFrom 0 (w.map fun v => ⟨v, false⟩) } := by
  cases r with
  | mk err neras nerr syn word => cases syn <;> cases word <;> rfl

/-- The part of the state that no command writes, with the status that every completion leaves. -/
structure CompletedFrom (s t : State) : Prop where
  ie : t.ie = s.ie
  cmd : t.cmd = s.cmd
  opa : t.opa = s.opa
  opb : t.opb = s.opb
  opn : t.opn = s.opn
  program : t.program = s.program
  turns : t.turns = s.turns
  log : t.log = s.log
  draws : t.draws = s.draws
  busy : t.busy = false
  done : t.done = true
  pending : t.pending = none

theorem CompletedFrom.complete (s : State) (e : ErrorKind) (a f : Nat) : CompletedFrom s (s.complete e a f) :=
  ⟨rfl, rfl, rfl, rfl, rfl, rfl, rfl, rfl, rfl, rfl, rfl, rfl⟩

theorem CompletedFrom.applyReport (s : State) (r : DecodeReport) : CompletedFrom s (applyReport s r) := by
  rw [applyReport_eq]; exact ⟨rfl, rfl, rfl, rfl, rfl, rfl, rfl, rfl, rfl, rfl, rfl, rfl⟩

theorem CompletedFrom.completeField (s : State) (r : Except ErrorKind Byte) :
    CompletedFrom s (completeField s r) := by
  cases r <;> exact ⟨rfl, rfl, rfl, rfl, rfl, rfl, rfl, rfl, rfl, rfl, rfl, rfl⟩

/-- Whatever the command, a completion leaves the operands, CTRL and CMD as they were, and nothing pending. -/
theorem exec_completedFrom {i : Instr} {s t : State} (h : exec i s = .next t) : CompletedFrom s t := by
  cases i with
  | gfMul => obtain ⟨p, -, hf⟩ := withPending_next h; cases hf; exact .completeField s _
  | gfDiv => obtain ⟨p, -, hf⟩ := withPending_next h; cases hf; exact .completeField s _
  | gfPow => obtain ⟨p, -, hf⟩ := withPending_next h; cases hf; exact .completeField s _
  | gfInv => obtain ⟨p, -, hf⟩ := withPending_next h; cases hf; exact .completeField s _
  | rsConfig n =>
    obtain ⟨p, -, hf⟩ := withPending_next h; cases hf
    exact ⟨rfl, rfl, rfl, rfl, rfl, rfl, rfl, rfl, rfl, rfl, rfl, rfl⟩
  | rsEncode k =>
    obtain ⟨p, -, hf⟩ := withPending_next h
    rcases withLength_cases s p k _ with ⟨-, hl⟩ | ⟨-, hl⟩ <;> rw [hl] at hf
    · cases hf; exact .complete ..
    · split at hf <;> cases hf
      exact ⟨rfl, rfl, rfl, rfl, rfl, rfl, rfl, rfl, rfl, rfl, rfl, rfl⟩
  | rsSyndrome k =>
    obtain ⟨p, -, hf⟩ := withPending_next h
    rcases withLength_cases s p k _ with ⟨-, hl⟩ | ⟨-, hl⟩ <;> rw [hl] at hf
    · cases hf; exact .complete ..
    · split at hf <;> cases hf
      exact ⟨rfl, rfl, rfl, rfl, rfl, rfl, rfl, rfl, rfl, rfl, rfl, rfl⟩
  | rsDecode k =>
    obtain ⟨p, -, hf⟩ := withPending_next h
    rcases withLength_cases s p k _ with ⟨-, hl⟩ | ⟨-, hl⟩ <;> rw [hl] at hf
    · cases hf; exact .complete ..
    · split at hf <;> cases hf
      exact .applyReport ..

end Sys2Proof.Machine
end

