-- ==== Sys2Proof/Laws/Decode.lean ====
section
/-! SUPPORT. What the decoder can answer. -/

namespace Sys2Proof

/-- A decoded command is well formed: ARG has 8 bits (R88). -/
theorem decode_wellFormed {w : Word} {i : Instr} (h : decode w = .ok i) : i.wellFormed = true := by
  simp only [decode] at h
  repeat' split at h
  all_goals cases h
  all_goals simp only [Instr.wellFormed]
  all_goals have := (argField w).isLt
  all_goals simp; try omega

end Sys2Proof
end

