-- ==== Sys2Proof/Laws/PerInstr.lean ====
section
/-! SUPPORT. The encoder against the opcode table's rows (R83), command by command. -/

namespace Sys2Proof.Laws.RowOf

/-- A well-formed command's word matches the mask and match of its own row (R83). -/
def Statement (i : Instr) : Prop := i.wellFormed = true → encode i &&& rowMask i = rowMatch i

theorem gfMul : Statement .gfMul := fun _ => by decide

theorem gfDiv : Statement .gfDiv := fun _ => by decide

theorem gfPow : Statement .gfPow := fun _ => by decide

theorem gfInv : Statement .gfInv := fun _ => by decide

/-- A word with a free ARG byte, under the mask of the codec rows. -/
theorem codec_row (a op : Byte) : (0#16 ++ a ++ op) &&& 0xFFFF00FF#32 = 0#24 ++ op := by
  ext i hi
  simp only [BitVec.getElem_and, BitVec.getElem_append]
  have : i = 0 ∨ i = 1 ∨ i = 2 ∨ i = 3 ∨ i = 4 ∨ i = 5 ∨ i = 6 ∨ i = 7 ∨ (8 ≤ i ∧ i < 16) ∨ 16 ≤ i := by omega
  rcases this with h | h | h | h | h | h | h | h | h | h
  all_goals first | (subst h; simp) | skip
  · have hm : (0xFFFF00FF#32)[i] = false := by
      obtain ⟨h1, h2⟩ := h
      interval_cases i <;> simp
    rw [hm]; simp [show ¬ i < 8 by omega]
  · simp [show ¬ i < 8 by omega, show ¬ i - 8 < 8 by omega]

theorem rsConfig (t : Nat) : Statement (.rsConfig t) := fun _ =>
  (codec_row (BitVec.ofNat 8 t) 0x10#8).trans (by decide : (0#24 ++ 0x10#8 : BitVec 32) = 0x10#32)

theorem rsEncode (k : Nat) : Statement (.rsEncode k) := fun _ =>
  (codec_row (BitVec.ofNat 8 k) 0x11#8).trans (by decide : (0#24 ++ 0x11#8 : BitVec 32) = 0x11#32)

theorem rsSyndrome (k : Nat) : Statement (.rsSyndrome k) := fun _ =>
  (codec_row (BitVec.ofNat 8 k) 0x12#8).trans (by decide : (0#24 ++ 0x12#8 : BitVec 32) = 0x12#32)

theorem rsDecode (k : Nat) : Statement (.rsDecode k) := fun _ =>
  (codec_row (BitVec.ofNat 8 k) 0x13#8).trans (by decide : (0#24 ++ 0x13#8 : BitVec 32) = 0x13#32)

end Sys2Proof.Laws.RowOf
end

