-- ==== Sys2Proof/Laws/Step.lean ====
section
/-! SUPPORT. What a step can do, said once: whose turn it is, and what the host's turn, the engine's turn and an
access can answer. -/

namespace Sys2Proof.Machine

/-! ## Accesses -/

/-- A read changes the host's log and the count of draws, nothing else. -/
theorem hostRead_eq (s : State) (off : Offset) :
    ∃ v d, hostRead s off = { s with log := s.log ++ [(off, v)], draws := d } ∧
      ((readReg s (regAt off) = some v ∧ d = s.draws) ∨
        (readReg s (regAt off) = none ∧ v = Config.freeWord s.draws ∧ d = s.draws + 1)) := by
  cases h : readReg s (regAt off) with
  | none => exact ⟨_, _, by simp [hostRead, h], .inr ⟨rfl, rfl, rfl⟩⟩
  | some v => exact ⟨_, _, by simp [hostRead, h], .inl ⟨rfl, rfl⟩⟩

/-- Everything a write can do. -/
theorem writeReg_cases (s : State) (v : Word) (r : Reg) :
    writeReg s v r = s ∨ writeReg s v r = { s with ie := v.getLsbD 0 } ∨ writeReg s v r = s.clearDone ∨
      (s.busy = false ∧
        (writeReg s v r = s.start v ∨ writeReg s v r = { s with opa := v.setWidth 8 } ∨
          writeReg s v r = { s with opb := v.setWidth 8 } ∨ writeReg s v r = { s with opn := v.setWidth 16 } ∨
          ∃ i, r = .buf i ∧ writeReg s v r = { s with buf := s.buf.write i (symbolOfWord v) })) := by
  cases r with
  | cap0 => exact .inl rfl
  | cap1 => exact .inl rfl
  | ctrl => exact .inr (.inl rfl)
  | status =>
    by_cases h : v.getLsbD 1 = true
    · exact .inr (.inr (.inl (if_pos h)))
    · exact .inl (if_neg h)
  | cfg => exact .inl rfl
  | result => exact .inl rfl
  | gen i => exact .inl rfl
  | syn i => exact .inl rfl
  | exp i => exact .inl rfl
  | log i => exact .inl rfl
  | unmapped => exact .inl rfl
  | cmd => cases hb : s.busy <;> simp [writeReg, hb]
  | opa => cases hb : s.busy <;> simp [writeReg, hb]
  | opb => cases hb : s.busy <;> simp [writeReg, hb]
  | opn => cases hb : s.busy <;> simp [writeReg, hb]
  | buf i => cases hb : s.busy <;> simp [writeReg, hb]

/-- The first 1 KiB of the register space holds no window entry. -/
theorem registerAt_ne_buf (w i : Nat) : registerAt w ≠ .buf i := by
  unfold registerAt; split <;> simp

/-- The offsets at which the map shows an entry of BUF (R44, R75). -/
theorem windowAt_buf {o i : Nat} : windowAt o = .buf i ↔ o < 0x07FC ∧ i = (o - 0x0400) / 4 := by
  unfold windowAt
  by_cases h : o < 0x07FC
  · rw [if_pos h]; simp [h, eq_comm]
  · rw [if_neg h]; repeat' split
    all_goals simp [h]

/-- An index that the register space names in BUF is below the window's depth (R44). -/
theorem regAt_buf_lt {off : Offset} {i : Nat} (h : regAt off = .buf i) : i < Config.bufDepth := by
  unfold regAt at h
  split at h
  · exact absurd h (registerAt_ne_buf _ _)
  · obtain ⟨h1, rfl⟩ := windowAt_buf.1 h
    show (off.toNat - 0x0400) / 4 < 255
    omega

/-! ## Turns -/

/-- A host turn that answers a next state: nothing, one read, or one write that is defined. -/
theorem hostTurn_next {s t : State} (h : hostTurn s = .next t) :
    t = s ∨ (∃ off pr, t = { hostRead s off with program := pr }) ∨
      (∃ off v pr, s.program = .write off .word v :: pr ∧ off.toNat % 4 = 0 ∧
        t = { hostWrite s off v with program := pr }) := by
  simp only [hostTurn] at h
  split at h
  · cases h; exact .inl rfl
  · split at h
    · cases h
    · cases h; exact .inr (.inl ⟨_, _, rfl⟩)
  · rename_i off width v rest hp
    split at h
    · cases h
    · rename_i ha
      cases h
      simp only [accessRefusal] at ha
      split at ha
      · cases ha
      · rename_i hw
        split at ha
        · cases ha
        · rename_i hm
          obtain rfl : width = .word := by simpa using hw
          exact .inr (.inr ⟨off, v, rest, hp, by simpa using hm, rfl⟩)
  · split at h
    · cases h
      refine .inr (.inl ⟨statusOffset, s.program, ?_⟩)
      obtain ⟨v, d, he, -⟩ := hostRead_eq s statusOffset
      rw [he]
    · cases h; exact .inr (.inl ⟨_, _, rfl⟩)
  · split at h
    · cases h; exact .inr (.inl ⟨_, _, rfl⟩)
    · cases h; exact .inl rfl

/-- The engine's turn with a pending command. -/
theorem engineTurn_of_pending {s : State} {p : Pending} (hb : s.busy = true) (hp : s.pending = some p) :
    engineTurn s = match decode p.word with
      | .ok i => exec i s
      | .error _ => .next (completeIllegal s) := by
  cases h : decode p.word <;> simp [engineTurn, hb, hp, h]

/-- An engine turn that answers a next state: nothing, one command's completion, or that of an Illegal word. -/
theorem engineTurn_next {s t : State} (h : engineTurn s = .next t) :
    (s.busy = false ∧ t = s) ∨ (s.busy = true ∧ ∃ p, s.pending = some p ∧
      ((∃ i, decode p.word = .ok i ∧ exec i s = .next t) ∨
        (∃ e, decode p.word = .error e ∧ t = completeIllegal s))) := by
  cases hb : s.busy with
  | false => simp [engineTurn, hb] at h; exact .inl ⟨rfl, h.symm⟩
  | true =>
    cases hp : s.pending with
    | none => simp [engineTurn, hb, hp] at h
    | some p =>
      rw [engineTurn_of_pending hb hp] at h
      refine .inr ⟨rfl, p, rfl, ?_⟩
      cases hd : decode p.word with
      | ok i => rw [hd] at h; exact .inl ⟨i, rfl, h⟩
      | error e => rw [hd] at h; cases h; exact .inr ⟨e, rfl, rfl⟩

/-- A step is one turn: of the schedule's first, or of the default once the schedule has run out. -/
theorem step_eq (s : State) :
    (s.turns = [] ∧ step s = takeTurn (defaultTurn s) s) ∨
      ∃ t ts, s.turns = t :: ts ∧ step s = takeTurn t { s with turns := ts } := by
  cases h : s.turns with
  | nil => exact .inl ⟨rfl, by simp [step, schedule, h]⟩
  | cons t ts => exact .inr ⟨t, ts, rfl, by simp [step, schedule, h]⟩

/-! ## Reset -/

/-- The machine is born with its windows in canonical form. -/
theorem reset_windows_wf : State.reset.buf.wf Config.bufDepth ∧ State.reset.syn.wf Config.synDepth := by
  simp [State.reset, Memory.wf]

end Sys2Proof.Machine
end

