-- ==== Sys2Proof/Tests/Slice0.lean ====
section
/-! SUPPORT. Tests: words written out from R80 and R81, vectors of 95_test_vectors.md, ill-formed commands, and for
every obligation with hypotheses a state that meets them. -/

namespace Sys2Proof.Tests

open Sys2Proof Sys2Proof.Machine

/-! ## Helpers -/

/-- A buffer holding a sequence from index 0 on; a number of 256 or more is an erased entry, as the vectors write it. -/
def bufOf (l : List Nat) : Memory Symbol :=
  l.zipIdx.map fun x => (x.2, ⟨BitVec.ofNat 8 x.1, 256 ≤ x.1⟩)

/-- A pending command with the given word, T and buffer, and field operands 2, 2 and 8. -/
def pend (w : Word) (t : Byte) (l : List Nat) : Pending :=
  { word := w, cfgT := t, opa := 2, opb := 2, opn := 8, buf := bufOf l }

/-- A state in which p is pending. -/
def pendingState (p : Pending) : State :=
  { State.reset with
    cmd := p.word, busy := true, cfgT := p.cfgT, opa := p.opa, opb := p.opb, opn := p.opn, buf := p.buf,
    gen := genWindow p.cfgT.toNat (generator p.cfgT.toNat), pending := some p }

/-- What a command leaves in a field, if it completes. -/
def after {α : Type} (r : Result) (f : State → α) : Option α :=
  match r with
  | .next t => some (f t)
  | .fault _ => none
  | .refused _ => none

/-- The values and tags of BUF[0..n), as the vectors write them. -/
def bufOut (n : Nat) (s : State) : List (Option Nat) :=
  (List.range n).map fun j => (s.buf.read j).map fun x => x.value.toNat + if x.erased = true then 256 else 0

/-- The T = 4 codeword of 95_test_vectors.md. -/
def codeword : List Nat := [72, 101, 108, 108, 111, 146, 152, 203, 131]

/-- Every pending state with a buffer in canonical form meets the invariant. -/
theorem pendingState_inv (p : Pending) (h : p.buf.wf Config.bufDepth) : Inv (pendingState p) :=
  ⟨rfl, fun _ => ⟨rfl, rfl, rfl, rfl⟩, fun _ e => (Option.some.inj e).symm, rfl, h, by simp [pendingState, State.reset, Memory.wf]⟩

/-! ## Command words, bit by bit (R80, R81) -/

theorem test_decode_gfMul : decode 0b00000000000000000000000000000001 = .ok .gfMul := by decide

theorem test_decode_gfDiv : decode 0b00000000000000000000000000000010 = .ok .gfDiv := by decide

theorem test_decode_gfPow : decode 0b00000000000000000000000000000011 = .ok .gfPow := by decide

theorem test_decode_gfInv : decode 0b00000000000000000000000000000100 = .ok .gfInv := by decide

theorem test_decode_rsConfig : decode 0b00000000000000000000010000010000 = .ok (.rsConfig 4) := by decide

theorem test_decode_rsEncode : decode 0b00000000000000000000010100010001 = .ok (.rsEncode 5) := by decide

theorem test_decode_rsSyndrome : decode 0b00000000000000000000010100010010 = .ok (.rsSyndrome 5) := by decide

theorem test_decode_rsDecode : decode 0b00000000000000001111111100010011 = .ok (.rsDecode 255) := by decide

/-- V-CMD: the Illegal words. -/
theorem test_decode_illegal :
    decode 0x00000005 = .error .unknownOpcode ∧ decode 0x00000000 = .error .unknownOpcode ∧
    decode 0x00000101 = .error .argumentNotZero ∧ decode 0x00000014 = .error .unknownOpcode ∧
    decode 0x80000011 = .error .reservedBits ∧ decode 0x00010001 = .error .reservedBits := by decide

theorem test_decodeTableWord : decodeTableWord 32 0x513 = some (.rsDecode 5) ∧ decodeTableWord 32 0 = none := by
  decide

/-- The one check of WellFormed, refused just above its bound for each command that has an argument. -/
theorem test_illFormed :
    Instr.wellFormed (.rsConfig 256) = false ∧ Instr.wellFormed (.rsEncode 256) = false ∧
    Instr.wellFormed (.rsSyndrome 256) = false ∧ Instr.wellFormed (.rsDecode 256) = false := by decide

/-! ## Vectors -/

/-- V-GF-2. -/
theorem test_gfMul_reduces :
    after (exec .gfMul (pendingState { pend 1 0 [] with opa := 16, opb := 16 })) State.result = some 29 := by
  decide +kernel

/-- V-GF-24. -/
theorem test_gfDiv : after (exec .gfDiv (pendingState { pend 2 0 [] with opa := 4 })) statusWord = some 2 := by
  decide +kernel

/-- V-GF-25. -/
theorem test_gfDiv_by_zero :
    after (exec .gfDiv (pendingState { pend 2 0 [] with opa := 9, opb := 0 })) statusWord = some 0x12 := by
  decide +kernel

/-- V-GF-26. -/
theorem test_gfPow_minus_one :
    after (exec .gfPow (pendingState { pend 3 0 [] with opn := 0xFFFF })) State.result = some 0x8E := by
  decide +kernel

/-- V-GF-27. -/
theorem test_gfPow_most_negative :
    after (exec .gfPow (pendingState { pend 3 0 [] with opn := 0x8000 })) State.result = some 0xCC := by
  decide +kernel

/-- V-GF-29. -/
theorem test_gfInv : after (exec .gfInv (pendingState (pend 4 0 []))) State.result = some 0x8E := by
  decide +kernel

/-- V-GF-30. -/
theorem test_gfInv_of_zero :
    after (exec .gfInv (pendingState { pend 4 0 [] with opa := 0 })) statusWord = some 0x42 := by decide +kernel

/-- V-CFG-1. -/
theorem test_rsConfig :
    after (exec (.rsConfig 4) (pendingState (pend 0x410 0 []))) (fun t => t.gen.toList.take 6) =
      some [1, 15, 54, 120, 64, 0] := by decide +kernel

/-- V-ENC-1. -/
theorem test_rsEncode :
    after (exec (.rsEncode 5) (pendingState (pend 0x511 4 [72, 101, 108, 108, 111]))) (bufOut 10) =
      some (codeword.map some ++ [none]) := by decide +kernel

/-- V-ENC-5: the tags are ignored and cleared. -/
theorem test_rsEncode_clears_tags :
    after (exec (.rsEncode 2) (pendingState (pend 0x211 0 [5, 0x106]))) (bufOut 2) = some [some 5, some 6] := by
  decide +kernel

/-- V-SYN-3. -/
theorem test_rsSyndrome :
    after (exec (.rsSyndrome 5) (pendingState (pend 0x512 4 ((codeword.set 0 0x100).set 6 205))))
      (fun t => (t.syn, statusWord t)) = some ([(0, 29), (1, 178), (2, 137), (3, 136)], 0x102) := by
  decide +kernel

/-- V-DEC-4: one erasure and one error. -/
theorem test_rsDecode :
    after (exec (.rsDecode 5) (pendingState (pend 0x513 4 ((codeword.set 0 0x100).set 6 205))))
      (fun t => (bufOut 9 t, statusWord t)) = some (codeword.map some, 0x00010102) := by decide +kernel

/-- V-DEC-19: a zero denominator. -/
theorem test_rsDecode_zero_denominator :
    after (exec (.rsDecode 4) (pendingState (pend 0x413 4 [247, 181, 141, 33, 225, 0x100, 0x100, 142])))
      (fun t => (t.syn, statusWord t)) = some ([(0, 129), (1, 223), (2, 207), (3, 31)], 0x212) := by decide +kernel

/-- V-REG-3, V-REG-4 and V-REG-5. -/
theorem test_reads_after_reset :
    readReg State.reset (regAt 0x0800) = some 1 ∧ readReg State.reset (regAt 0x0BFC) = some 0 ∧
    readReg State.reset (regAt 0x17FC) = some 2 ∧ readReg State.reset (regAt 0x1800) = some 0 ∧
    readReg State.reset (regAt 0x1874) = some 0x108 := by decide +kernel

/-- V-REG-8 and V-REG-9. -/
theorem test_writes_are_narrowed :
    readReg (hostWrite State.reset 0x0020 0x12345678) .opn = some 0x5678 ∧
    readReg (hostWrite State.reset 0x040C 0xFFFFFFFF) (.buf 3) = some 0x1FF := by decide +kernel

/-- The first step after reset runs a placed command. -/
theorem test_step_after_reset : after (step (State.reset.withFetchWord 32 0x13)) statusWord = some 2 := by
  decide +kernel

/-- The block waits after reset (R211). -/
theorem test_reset_waits : step State.reset = .next State.reset := rfl

/-! ## Witnesses: a state and operands that meet each obligation's hypotheses -/

/-- The command of the vectors V-DEC-4. -/
def received : Pending := pend 0x513 4 ((codeword.set 0 0x100).set 6 205)

theorem test_received_inv : Inv (pendingState received) := pendingState_inv _ (by decide)

theorem test_witness_DecodeOfEncodeIsIdentity :
    Instr.wellFormed .gfInv = true ∧ Instr.wellFormed (.rsConfig 0) = true ∧
    Instr.wellFormed (.rsDecode 255) = true := by decide

theorem test_witness_EncodeOfDecodeIsIdentity : decode 0x0000FF13 = .ok (.rsDecode 255) := by decide

theorem test_witness_DecodingFollowsTheOpcodeMap :
    (0x80000011 : Word).toNat / 65536 ≠ 0 ∧
    ((0x101 : Word).toNat / 65536 = 0 ∧ (0x101 : Word).toNat % 256 ∈ [1, 2, 3, 4] ∧
      (0x101 : Word).toNat / 256 % 256 ≠ 0) ∧
    ((0x4 : Word).toNat / 65536 = 0 ∧ (0x4 : Word).toNat / 256 % 256 = 0 ∧ (0x4 : Word).toNat % 256 = 4) ∧
    ((0xFF13 : Word).toNat / 65536 = 0 ∧ (0xFF13 : Word).toNat % 256 = 0x13) ∧
    ((0x14 : Word).toNat / 65536 = 0 ∧
      (0x14 : Word).toNat % 256 ∉ [0x01, 0x02, 0x03, 0x04, 0x10, 0x11, 0x12, 0x13]) ∧
    ((pendingState (pend 0 0 [])).busy = true ∧ (pendingState (pend 0 0 [])).pending = some (pend 0 0 []) ∧
      decode 0 = .error .unknownOpcode) := by decide +kernel

theorem test_witness_RowsMatchAndDoNotOverlap :
    (0xFF13 : Word) &&& 0xFFFF00FF = 0x13 ∧ (0x1 : Word) &&& 0xFFFFFFFF = 0x1 := by decide

theorem test_witness_ByteLanesCarryTheCommand : 3 < 4 ∧ ([] : List Byte).length ≠ 4 := by decide

/-- The edges of the map of R44. -/
theorem test_witness_OffsetsNameTheRegisters :
    regAt 0x0024 = .result ∧ regAt 0x0028 = .unmapped ∧ regAt 0x03FC = .unmapped ∧ regAt 0x0400 = .buf 0 ∧
    regAt 0x07F8 = .buf 254 ∧ regAt 0x07FC = .unmapped ∧ regAt 0x0800 = .gen 0 ∧ regAt 0x0BFC = .gen 255 ∧
    regAt 0x0C00 = .syn 0 ∧ regAt 0x0FF8 = .syn 254 ∧ regAt 0x0FFC = .unmapped ∧ regAt 0x1000 = .exp 0 ∧
    regAt 0x17FC = .exp 511 ∧ regAt 0x1800 = .log 0 ∧ regAt 0x1BFC = .log 255 ∧ regAt 0x1C00 = .unmapped ∧
    regAt 0x1FFC = .unmapped := by decide

/-- An address of the block, and one on each side of it. -/
theorem test_witness_addresses :
    offsetOfAddress (Config.base + 0x1FFC) = some 0x1FFC ∧ Config.base + 0x2000 ≤ Config.base + 0x2000 := by
  constructor
  · simp [offsetOfAddress]
  · exact Nat.le_refl _

theorem test_witness_ReadsHaveNoSideEffects :
    (∀ off width v rest, ({ State.reset with program := [.poll] } : State).program ≠ .write off width v :: rest) ∧
    ∃ t, hostTurn { State.reset with program := [.poll] } = .next t := by
  refine ⟨fun _ _ _ _ h => ?_, _, rfl⟩
  cases h

/-- Reads while idle and while a command is pending, and an aligned read of a word that has a value. -/
theorem test_witness_IdleReadsReturnTheFields :
    ({ State.reset with buf := bufOf [0x1FF], syn := [(254, 7)] } : State).busy = false ∧
    ({ State.reset with buf := bufOf [0x1FF] } : State).buf.read 0 = some ⟨0xFF, true⟩ ∧
    ({ State.reset with syn := [(254, 7)] } : State).syn.read 254 = some 7 ∧ (255 : Byte) ≠ 0 ∧ 511 < 512 ∧
    (0x17FC : Offset).toNat % 4 = 0 ∧
    ({ pendingState received with program := [.read 0x17FC .word] } : State).program = [.read 0x17FC .word] ∧
    readReg { pendingState received with program := [.read 0x17FC .word] } (regAt 0x17FC) = some 2 := by decide +kernel

theorem test_witness_UnspecifiedReadsReturnAFreeWord :
    ((pendingState received).busy = true ∧ regAt 0x0024 = .result ∧ regAt 0x0014 = .cfg ∧ regAt 0x07F8 = .buf 254 ∧
      regAt 0x0BFC = .gen 255 ∧ regAt 0x0FF8 = .syn 254) ∧
    (regAt 0x0400 = .buf 0 ∧ State.reset.buf.read 0 = none) ∧
    (regAt 0x0FF8 = .syn 254 ∧ State.reset.syn.read 254 = none) ∧
    ({ State.reset with program := [.read 0x0400 .word] } : State).program = [.read 0x0400 .word] := by
  decide

theorem test_witness_BusyStatusReadsOne : Inv (pendingState received) ∧ (pendingState received).busy = true :=
  ⟨test_received_inv, rfl⟩

theorem test_witness_BusyWritesAreIgnored :
    Inv (pendingState received) ∧ (pendingState received).busy = true ∧ (0x0008 : Offset).toNat % 4 = 0 ∧
    (0x1FFC : Offset).toNat % 4 = 0 ∧ (0x1FFC : Offset).toNat ≠ 0x0008 :=
  ⟨test_received_inv, rfl, by decide, by decide, by decide⟩

theorem test_witness_IdleWritesStoreTheWritableBits :
    State.reset.busy = false ∧
    [(0x0008 : Offset), 0x0010, 0x0018, 0x001C, 0x0020, 0x0400, 0x07F8, 0x07FC, 0x1FFC].all
      (fun off => off.toNat % 4 == 0 && off.toNat != 0x000C) = true := by decide

theorem test_witness_UndefinedAccessesAreRefused :
    ({ State.reset with program := [.read 0x0001 .byte] } : State).program = [.read 0x0001 .byte] ∧
    Width.byte ≠ .word ∧
    ({ State.reset with program := [.write 0x1FFE .word 0] } : State).program = [.write 0x1FFE .word 0] ∧
    (0x1FFE : Offset).toNat % 4 ≠ 0 := by decide

theorem test_witness_CmdWriteStartsACommandWhenIdle :
    ({ State.reset with program := [.write 0x000C .word 1] } : State).program = [.write 0x000C .word 1] ∧
    State.reset.busy = false ∧
    ({ pendingState received with program := [.write 0x000C .word 1] } : State).program =
      [.write 0x000C .word 1] ∧ (pendingState received).busy = true := by decide

theorem test_witness_OnlyACmdWriteStartsACommand :
    State.reset.busy = false ∧
    after (step { State.reset with program := [.write 0x000C .word 1] }) State.busy = some true := by decide +kernel

theorem test_witness_HostCannotReachAPendingCommand :
    (pendingState received).busy = true ∧ (pendingState received).pending = some received ∧
    ∃ t, hostTurn { pendingState received with program := [.write 0x0018 .word 9] } = .next t :=
  ⟨rfl, rfl, _, rfl⟩

theorem test_witness_StepRunsThePendingCommand :
    (pendingState received).busy = true ∧ (pendingState received).pending = some received ∧
    decode received.word = .ok (.rsDecode 5) ∧ (pendingState received).turns = [] ∧
    ({ pendingState received with turns := [.engine] } : State).turns = [.engine] ∧
    decodeTableWord 32 0x513 = some (.rsDecode 5) := by decide +kernel

theorem test_witness_PollAndWaitIrqSynchronise :
    ({ pendingState received with program := [.poll] } : State).program = [.poll] ∧
    (pendingState received).busy = true ∧ State.reset.busy = false ∧
    ({ State.reset with program := [.waitIrq] } : State).program = [.waitIrq] ∧ State.reset.irq = false ∧
    ({ State.reset with program := [.waitIrq], done := true, ie := true } : State).irq = true := by decide

theorem test_witness_IllegalWordCompletesWithIllegalCmd :
    State.reset.busy = false ∧ decode 0x00000000 = .error .unknownOpcode ∧
    ({ State.reset with program := [.write 0x000C .word 0] } : State).program = [.write 0x000C .word 0] := by decide

theorem test_witness_EngineCompletesOrFindsNoValue :
    Inv (pendingState received) ∧ (pendingState received).busy = true := ⟨test_received_inv, rfl⟩

/-- The second outcome of the engine's turn: V-ENC-1 with its message not written. -/
theorem test_witness_engine_finds_no_value :
    Inv (pendingState (pend 0x511 4 [])) ∧
    engineTurn (pendingState (pend 0x511 4 [])) = .fault .unwrittenSymbol :=
  ⟨pendingState_inv _ (by decide), rfl⟩

theorem test_witness_EveryStartedCommandCompletes :
    Inv { pendingState received with turns := [.host, .host] } ∧
    ({ pendingState received with turns := [.host, .host] } : State).busy = true :=
  ⟨⟨rfl, test_received_inv.2, test_received_inv.3, test_received_inv.4, test_received_inv.5, test_received_inv.6⟩, rfl⟩

theorem test_witness_InterruptIsDoneAndEnabled :
    (0x00000002 : Word).getLsbD 1 = true ∧ (0x00000001 : Word).getLsbD 1 = false ∧
    (0x00000002 : Word).getLsbD 0 = false ∧ (0x00000001 : Word).getLsbD 0 = true ∧ State.reset.busy = false := by
  decide

theorem test_witness_ResetStateIsAsStated : (255 : Byte) ≠ 0 ∧ 511 < 512 := by decide

theorem test_witness_ResetEventRestoresTheResetState :
    ({ pendingState received with turns := [.reset, .host] } : State).turns = [.reset, .host] := rfl

theorem test_witness_EveryStepKeepsTheInvariant :
    Inv (pendingState received) ∧ ∃ t, step (pendingState received) = .next t :=
  ⟨test_received_inv, by
    have h : after (step (pendingState received)) State.busy = some false := by decide +kernel
    revert h
    cases step (pendingState received) with
    | next t => exact fun _ => ⟨t, rfl⟩
    | fault r => intro h; cases h
    | refused r => intro h; cases h⟩

theorem test_witness_OnlyRsConfigWritesTheConfiguration :
    State.reset.cfgT = 0 ∧ after (step (State.reset.withFetchWord 32 0x410)) State.cfgT = some 4 := by decide +kernel

theorem test_witness_OnlyFieldCommandsWriteTheResult :
    (pendingState (pend 1 0 [])).result = 0 ∧
    after (step (pendingState (pend 1 0 []))) State.result = some 4 := by decide +kernel

/-- SYN written by RS_SYNDROME, BUF by RS_ENCODE, and BUF by the host. -/
theorem test_witness_OnlyCodecCommandsAndTheHostWriteTheWindows :
    after (step (pendingState (pend 0x112 1 [3, 4]))) State.syn = some [(0, 7)] ∧
    after (step (pendingState (pend 0x111 1 [3]))) State.buf = some (bufOf [3, 3]) ∧
    after (step { State.reset with program := [.write 0x0400 .word 5] }) State.buf = some (bufOf [5]) := by
  decide +kernel

/-- The pending command of the field commands, whose operands are 2 and 2. -/
theorem test_witness_GfMulWritesTheProduct : (pendingState (pend 1 0 [])).pending = some (pend 1 0 []) := rfl

theorem test_witness_GfDivWritesTheQuotient :
    (pendingState (pend 2 0 [])).pending = some (pend 2 0 []) ∧ (pend 2 0 []).opb ≠ 0 ∧
    ({ pend 2 0 [] with opb := 0 } : Pending).opb = 0 := by decide

theorem test_witness_GfPowWritesThePower :
    (pendingState (pend 3 0 [])).pending = some (pend 3 0 []) ∧ (pend 3 0 []).opa ≠ 0 ∧
    ({ pend 3 0 [] with opa := 0 } : Pending).opa = 0 := by decide

theorem test_witness_GfInvWritesTheInverse :
    (pendingState (pend 4 0 [])).pending = some (pend 4 0 []) ∧ (pend 4 0 []).opa ≠ 0 ∧
    ({ pend 4 0 [] with opa := 0 } : Pending).opa = 0 := by decide

theorem test_witness_field_elements :
    (1 : Byte) ≠ 0 ∧ (255 : Byte) ≠ 0 ∧ ((0 : Byte) = 0 ∨ (7 : Byte) = 0) ∧ 253 < 254 ∧ 255 ≤ 255 ∧ 511 < 512 ∧
    254 ≤ 254 := by decide

theorem test_witness_GeneratorHasExactlyTheStatedRoots : 0 ≤ 255 ∧ 255 ≤ 255 ∧ 254 < 255 := by decide

theorem test_witness_permutation : [2, 8].Perm [8, 2] := by decide

theorem test_witness_RsConfigBuildsTheGenerator :
    (pendingState (pend 0x410 0 [])).pending = some (pend 0x410 0 []) ∧ 0 ≤ 255 ∧ 255 ≤ 255 := by decide

theorem test_witness_TooLongWordsReportLength :
    (pendingState (pend 0xFC11 4 [])).pending = some (pend 0xFC11 4 []) ∧
    255 < 252 + (pend 0xFC11 4 []).cfgT.toNat ∧
    Instr.rsEncode 252 ∈ [Instr.rsEncode 252, .rsSyndrome 252, .rsDecode 252] := by decide

theorem test_witness_CommandsStopOnEntriesWithoutValue :
    (pendingState (pend 0x511 4 [])).pending = some (pend 0x511 4 []) ∧
    251 + (pend 0x511 4 []).cfgT.toNat ≤ 255 ∧ (pend 0x511 4 []).buf.read 250 = none ∧ 250 < 251 ∧
    (pend 0x511 4 []).buf.read 254 = none ∧ 254 < 251 + (pend 0x511 4 []).cfgT.toNat := by decide

/-- V-ENC-3, and a message of no symbol (V-ENC-2). -/
theorem test_witness_RsEncodeWritesTheCodeword :
    (pendingState (pend 0x111 4 [1])).pending = some (pend 0x111 4 [1]) ∧
    1 + (pend 0x111 4 [1]).cfgT.toNat ≤ 255 ∧ ([1] : Poly).length = 1 ∧
    (∀ j, j < 1 → ∃ e, (pend 0x111 4 [1]).buf.read j = some ⟨([1] : Poly).getD j 0, e⟩) ∧
    ([] : Poly).length = 0 :=
  ⟨rfl, by decide, rfl, fun j hj => ⟨false, by obtain rfl : j = 0 := by omega
                                               rfl⟩, rfl⟩

theorem test_witness_EncodingIsLinear : ([1, 2, 3] : Poly).length = ([9, 8, 7] : Poly).length := rfl

/-- V-SYN-1: the codeword, which also takes the zero-syndrome path of RS_DECODE (V-DEC-1). -/
theorem test_witness_RsSyndromeWritesTheSyndromes :
    (pendingState (pend 0x512 4 codeword)).pending = some (pend 0x512 4 codeword) ∧
    5 + (pend 0x512 4 codeword).cfgT.toNat ≤ 255 ∧
    ((bufOf codeword).map Prod.snd).length = 5 + (pend 0x512 4 codeword).cfgT.toNat ∧
    (∀ j, j < 5 + (pend 0x512 4 codeword).cfgT.toNat →
      (pend 0x512 4 codeword).buf.read j = ((bufOf codeword).map Prod.snd)[j]?) := by decide +kernel

theorem test_witness_ZeroSyndromeWritesTheWorkingCopy :
    ((bufOf codeword).map Prod.snd).countP Symbol.erased ≤ 4 ∧
    (∀ i, i < 4 → peval (((bufOf codeword).map Prod.snd).map
      fun x => if x.erased = true then 0 else x.value) (expTable i) = 0) := by decide +kernel

theorem test_witness_RsDecodeOutcome :
    (pendingState received).pending = some received ∧ 5 + received.cfgT.toNat ≤ 255 ∧
    received.buf.readFrom 0 (5 + received.cfgT.toNat) = some (received.buf.map Prod.snd) := by decide +kernel

/-- V-DEC-6: five erasures, T = 4. -/
theorem test_witness_RsDecodeOutcome_too_many_erasures :
    let p := pend 0x513 4 ([0x100, 0x100, 0x100, 0x100, 0x100] ++ codeword.drop 5)
    (p.buf.readFrom 0 (5 + p.cfgT.toNat)).isSome = true ∧
    after (exec (.rsDecode 5) (pendingState p)) (fun t => (t.buf == p.buf, t.syn, statusWord t)) =
      some (true, [], 0x00000522) := by decide +kernel

/-- V-DEC-7: the locator's degree is too high. -/
theorem test_witness_RsDecodeOutcome_degree_too_high :
    let p := pend 0x513 4 (([0x100, 0x100, 0x100] ++ codeword.drop 3).set 5 147)
    (p.buf.readFrom 0 (5 + p.cfgT.toNat)).isSome = true ∧
    after (exec (.rsDecode 5) (pendingState p)) (fun t => (t.buf == p.buf, t.syn, statusWord t)) =
      some (true, [(0, 64), (1, 1), (2, 193), (3, 103)], 0x00000332) := by decide +kernel

/-- V-DEC-9: the Chien search finds no root where the degree is 2. -/
theorem test_witness_RsDecodeOutcome_too_few_roots :
    let p := pend 0x513 4 (((codeword.set 1 154).set 8 130).set 3 107)
    (p.buf.readFrom 0 (5 + p.cfgT.toNat)).isSome = true ∧
    after (exec (.rsDecode 5) (pendingState p)) (fun t => (t.buf == p.buf, t.syn, statusWord t)) =
      some (true, [(0, 249), (1, 131), (2, 7), (3, 59)], 0x00000032) := by decide +kernel

/-- V-DEC-18: the only root lies outside the word. -/
theorem test_witness_RsDecodeOutcome_root_outside :
    let p := pend 0x113 2 [155, 81, 47]
    (p.buf.readFrom 0 (1 + p.cfgT.toNat)).isSome = true ∧
    after (exec (.rsDecode 1) (pendingState p)) (fun t => (t.buf == p.buf, t.syn, statusWord t)) =
      some (true, [(0, 229), (1, 219)], 0x00000032) := by decide +kernel

theorem test_witness_CorrectionAddsTheMagnitudes :
    (zeros 9).length = 9 ∧ 9 ≤ 255 ∧ [0, 6].Nodup ∧ ∀ q, q ∈ [0, 6] → q < 9 := by decide

theorem test_witness_ForneyPassesCommute :
    [0, 6].length ≤ ([29, 178, 137, 136] : List Byte).length ∧ [0, 6].Perm [6, 0] := by decide

theorem test_witness_ChienSearchFindsTheLocatorPositions :
    255 ≤ 255 ∧ [8, 254, 0].Nodup ∧ ∀ q, q ∈ [8, 254, 0] → q < 255 := by decide

theorem test_witness_CommandsReportOnlyTheirErrors :
    after (exec .gfMul (pendingState (pend 1 0 []))) State.err = some .ok ∧
    after (exec (.rsDecode 255) (pendingState received)) State.err = some .length := by decide +kernel

/-- Two states that differ in OPA and in the value bits of the erased entry. -/
theorem test_witness_RsDecodeDependsOnlyOnTheWord :
    (pendingState { received with opa := 9, buf := bufOf ((codeword.set 0 0x1FF).set 6 205) }).pending =
      some { received with opa := 9, buf := bufOf ((codeword.set 0 0x1FF).set 6 205) } ∧
    (∀ j, j < 5 + received.cfgT.toNat →
      (received.buf.read j).map (fun x => (x.erased, if x.erased = true then 0 else x.value)) =
        ((bufOf ((codeword.set 0 0x1FF).set 6 205)).read j).map
          (fun x => (x.erased, if x.erased = true then 0 else x.value))) ∧
    after (exec (.rsDecode 5) (pendingState received)) State.err = some .ok := by decide +kernel

theorem test_witness_DecodeOfEncodeReturnsTheMessage :
    Inv (pendingState (pend 0x511 4 [72, 101, 108, 108, 111])) ∧
    after (exec (.rsEncode 5) (pendingState (pend 0x511 4 [72, 101, 108, 108, 111]))) State.err = some .ok :=
  ⟨pendingState_inv _ (by decide), by decide +kernel⟩

/-- V-DEC-5: four erasures, T = 4. -/
theorem test_witness_UpToTErasuresAreRecovered :
    let rx := (bufOf ([0x100, 0x100, 0x100, 0x100] ++ codeword.drop 4)).map Prod.snd
    let p := pend 0x513 4 ([0x100, 0x100, 0x100, 0x100] ++ codeword.drop 4)
    (pendingState p).pending = some p ∧ p.buf.readFrom 0 9 = some rx ∧
    (∀ j, j < 9 → ∀ x, rx[j]? = some x → x.erased = false →
      x.value = (encodeCore [72, 101, 108, 108, 111] (generator 4) 4).getD j 0) ∧
    rx.countP Symbol.erased ≤ 4 := by
  refine ⟨rfl, by decide +kernel, fun j hj x hx he => ?_, by decide +kernel⟩
  have h : ∀ j, j < 9 → (((bufOf ([0x100, 0x100, 0x100, 0x100] ++ codeword.drop 4)).map Prod.snd)[j]?).all
      (fun x => x.erased || x.value == (encodeCore [72, 101, 108, 108, 111] (generator 4) 4).getD j 0) = true := by
    decide +kernel
  have hj' := h j hj
  rw [hx] at hj'
  simpa [he] using hj'

/-- V-DEC-4: e + 2f = 3 <= T = 4. -/
theorem test_witness_CorrectableWordsAreRecovered :
    (pendingState received).pending = some received ∧ [72, 101, 108, 108, 111].length + received.cfgT.toNat ≤ 255 ∧
    received.buf.readFrom 0 9 = some (received.buf.map Prod.snd) ∧
    (received.buf.map Prod.snd).countP Symbol.erased +
      2 * ((received.buf.map Prod.snd).zip (encodeCore [72, 101, 108, 108, 111] (generator 4) 4)).countP
        (fun xc => !xc.1.erased && decide (xc.1.value ≠ xc.2)) ≤ received.cfgT.toNat := by decide +kernel

/-- V-DEC-8, at the boundary: e + 2f = T = 4 with two errors and no erasure. -/
theorem test_witness_CorrectableWordsAreRecovered_boundary :
    let p := pend 0x513 4 ((codeword.set 1 154).set 8 130)
    p.buf.readFrom 0 9 = some (p.buf.map Prod.snd) ∧
    (p.buf.map Prod.snd).countP Symbol.erased = 0 ∧
    ((p.buf.map Prod.snd).zip (encodeCore [72, 101, 108, 108, 111] (generator 4) 4)).countP
      (fun xc => !xc.1.erased && decide (xc.1.value ≠ xc.2)) = 2 ∧
    after (exec (.rsDecode 5) (pendingState p)) (fun t => (bufOut 9 t, statusWord t)) =
      some (codeword.map some, 0x00020002) := by decide +kernel

end Sys2Proof.Tests
end

/-! SUPPORT. What one turn can do to the block, said once for the whole instruction set: the invariant and the
statements about who writes which register are read off it. -/

section

namespace Sys2Proof.Machine

/-! ## What a command can do -/

/-- A decode that writes a word reports OK, and has written the syndromes too (R162, R165, R177). -/
theorem decodeWord_of_word {rx : List Symbol} {t : Nat} {w : Poly} (h : (decodeWord rx t).word = some w) :
    (decodeWord rx t).err = .ok ∧ ∃ sy, (decodeWord rx t).syn = some sy := by
  rcases Nat.lt_or_ge t (erasures rx).length with he | he
  · rw [decodeWord_of_lt he] at h; cases h
  · cases hz : (syndrome (workingCopy rx) t).all (· = 0) with
    | true => rw [decodeWord_of_zero he hz]; exact ⟨rfl, _, rfl⟩
    | false =>
      rw [decodeWord_of_nonzero he hz] at h ⊢
      split at h
      · cases h
      · exact ⟨rfl, _, rfl⟩

/-- What a command that completes can leave behind: the status alone; or, on success, RESULT, the configuration, or
the codeword; or the syndromes of RS_SYNDROME and RS_DECODE, with the corrected word where RS_DECODE succeeds. -/
inductive CommandEffect (s : State) : Instr → State → Prop where
  | status (i : Instr) (e : ErrorKind) (a f : Nat) : CommandEffect s i (s.complete e a f)
  | result {i : Instr} (hi : i = .gfMul ∨ i = .gfDiv ∨ i = .gfPow ∨ i = .gfInv) (v : Byte) :
      CommandEffect s i ((s.setResult v).complete .ok 0 0)
  | config (n : Nat) : CommandEffect s (.rsConfig n) ((s.setConfig n).complete .ok 0 0)
  | codeword (k : Nat) {w : Poly} (hw : w.length ≤ 255) :
      CommandEffect s (.rsEncode k) ((s.setWord w).complete .ok 0 0)
  | syndromes {i : Instr} {k : Nat} (hi : i = .rsSyndrome k ∨ i = .rsDecode k) {sy : List Byte}
      (hsy : sy.length ≤ 255) (e : ErrorKind) (a f : Nat) :
      CommandEffect s i ((s.setSyndromes sy).complete e a f)
  | corrected (k : Nat) {sy : List Byte} {w : Poly} (hsy : sy.length ≤ 255) (hw : w.length ≤ 255) (a f : Nat) :
      CommandEffect s (.rsDecode k) (((s.setSyndromes sy).setWord w).complete .ok a f)

/-- A field command writes RESULT on success and the status alone on failure (R38). -/
theorem completeField_effect {i : Instr} (hi : i = .gfMul ∨ i = .gfDiv ∨ i = .gfPow ∨ i = .gfInv) (s : State)
    (r : Except ErrorKind Byte) : CommandEffect s i (completeField s r) := by
  cases r with
  | ok v => exact .result hi v
  | error e => exact .status i e 0 0

/-- A decode of a word that fits writes no more than the syndromes and the corrected word. -/
theorem applyReport_effect (s : State) (k : Nat) {rx : List Symbol} {t : Nat} (hrx : rx.length ≤ 255)
    (ht : t ≤ 255) : CommandEffect s (.rsDecode k) (applyReport s (decodeWord rx t)) := by
  have hsy := fun sy => decodeWord_syn_length (rx := rx) (t := t) (sy := sy)
  have hw := fun w => decodeWord_word_length (rx := rx) (t := t) (w := w)
  have hok := fun w => decodeWord_of_word (rx := rx) (t := t) (w := w)
  generalize decodeWord rx t = r at hsy hw hok ⊢
  obtain ⟨e, a, f, _ | sy, _ | w⟩ := r
  · exact .status _ e a f
  · obtain ⟨-, sy, h⟩ := hok w rfl
    cases h
  · exact .syndromes (.inr rfl) ((hsy sy rfl).trans_le ht) e a f
  · obtain ⟨rfl, -⟩ := hok w rfl
    exact .corrected k ((hsy sy rfl).trans_le ht) ((hw w rfl).trans_le hrx) a f

/-- The effect of a block command: LENGTH, or its effect on a codeword that fits. -/
theorem withLength_effect {i : Instr} {s t : State} {p : Pending} {k : Nat} {f : Nat → Result}
    (h : withLength s p k f = .next t)
    (hf : k + p.cfgT.toNat ≤ 255 → f (k + p.cfgT.toNat) = .next t → CommandEffect s i t) :
    CommandEffect s i t := by
  rcases withLength_cases s p k f with ⟨-, hl⟩ | ⟨hle, hl⟩ <;> rw [hl] at h
  · cases h; exact .status i .length 0 0
  · exact hf hle h

/-- Whatever the command, it has one of these effects. -/
theorem exec_effect {i : Instr} {s t : State} (h : exec i s = .next t) : CommandEffect s i t := by
  cases i with
  | gfMul => obtain ⟨p, -, hf⟩ := withPending_next h; cases hf; exact completeField_effect (by simp) s _
  | gfDiv => obtain ⟨p, -, hf⟩ := withPending_next h; cases hf; exact completeField_effect (by simp) s _
  | gfPow => obtain ⟨p, -, hf⟩ := withPending_next h; cases hf; exact completeField_effect (by simp) s _
  | gfInv => obtain ⟨p, -, hf⟩ := withPending_next h; cases hf; exact completeField_effect (by simp) s _
  | rsConfig n => obtain ⟨p, -, hf⟩ := withPending_next h; cases hf; exact .config n
  | rsEncode k =>
    obtain ⟨p, -, hf⟩ := withPending_next h
    refine withLength_effect hf fun hle hn => ?_
    split at hn <;> cases hn
    rename_i m hm
    exact .codeword k (by rwa [encodeCore_length, messageOf_length hm])
  | rsSyndrome k =>
    obtain ⟨p, -, hf⟩ := withPending_next h
    refine withLength_effect hf fun hle hn => ?_
    split at hn <;> cases hn
    exact .syndromes (.inl rfl) ((syndrome_length _ _).trans_le (le_of_add_le_right hle)) _ _ _
  | rsDecode k =>
    obtain ⟨p, -, hf⟩ := withPending_next h
    refine withLength_effect hf fun hle hn => ?_
    split at hn <;> cases hn
    rename_i rx hrx
    exact applyReport_effect s k ((receivedWord_length hrx).trans_le hle) (le_of_add_le_right hle)

/-! ## What one turn can do -/

/-- A host turn that answers a next state leaves the block alone, or performs one aligned 32-bit write. -/
theorem hostTurn_block {s t : State} (h : hostTurn s = .next t) :
    t.block = s.block ∨
      ∃ off v rest, s.program = .write off .word v :: rest ∧ t.block = (hostWrite s off v).block := by
  rcases hostTurn_next h with rfl | ⟨off, pr, rfl⟩ | ⟨off, v, pr, hp, -, rfl⟩
  · exact .inl rfl
  · obtain ⟨v, d, he, -⟩ := hostRead_eq s off
    exact .inl (by rw [he]; rfl)
  · exact .inr ⟨off, v, pr, hp, rfl⟩

/-- An engine turn that answers a next state: nothing while idle; while busy the effect of the pending command, or
the completion of an Illegal word (R192, R196). -/
theorem engineTurn_effect {s t : State} (h : engineTurn s = .next t) :
    t = s ∨ s.busy = true ∧ ∃ p, s.pending = some p ∧
      (t = completeIllegal s ∨ ∃ i, decode p.word = .ok i ∧ CommandEffect s i t) := by
  rcases engineTurn_next h with ⟨-, rfl⟩ | ⟨hb, p, hp, ⟨i, hd, he⟩ | ⟨-, -, rfl⟩⟩
  · exact .inl rfl
  · exact .inr ⟨hb, p, hp, .inr ⟨i, hd, exec_effect he⟩⟩
  · exact .inr ⟨hb, p, hp, .inl rfl⟩

/-- A step that answers a next state is a turn of reset, the host or the engine, on the state without that turn. -/
theorem step_next {s t : State} (h : step s = .next t) : ∃ ts,
    (s.turns = .reset :: ts ∧ t = State.resetBlock { s with turns := ts }) ∨
      hostTurn { s with turns := ts } = .next t ∨ engineTurn { s with turns := ts } = .next t := by
  rcases step_eq s with ⟨hts, he⟩ | ⟨turn, ts, hts, he⟩ <;> rw [he] at h
  · refine ⟨s.turns, .inr ?_⟩
    unfold defaultTurn at h
    split at h
    · exact .inr h
    · exact .inl h
  · refine ⟨ts, ?_⟩
    cases turn with
    | host => exact .inr (.inl h)
    | engine => exact .inr (.inr h)
    | reset => cases h; exact .inl ⟨hts, rfl⟩

/-- The ways in which a step can change the block: reset, nothing, a host's write, an Illegal word's completion, and
a command's effect. The turn that was taken no longer stands in the schedule. -/
theorem step_effect {s t : State} (h : step s = .next t) : ∃ ts,
    ((s.turns = .reset :: ts ∧ t.block = State.reset.block) ∨ t.block = s.block ∨
      ∃ off v rest, s.program = .write off .word v :: rest ∧
        t.block = (hostWrite { s with turns := ts } off v).block) ∨
    s.busy = true ∧ ∃ p, s.pending = some p ∧
      (t = completeIllegal { s with turns := ts } ∨
        ∃ i, decode p.word = .ok i ∧ CommandEffect { s with turns := ts } i t) := by
  obtain ⟨ts, ⟨hts, rfl⟩ | hh | he⟩ := step_next h
  · exact ⟨ts, .inl (.inl ⟨hts, rfl⟩)⟩
  · exact ⟨ts, .inl (.inr (hostTurn_block hh))⟩
  · rcases engineTurn_effect he with rfl | hc
    · exact ⟨ts, .inl (.inr (.inl rfl))⟩
    · exact ⟨ts, .inr hc⟩

/-! ## The invariant -/

/-- The invariant is about the block alone. -/
theorem Inv.of_block_eq {s t : State} (h : t.block = s.block) (hs : Inv s) : Inv t := by
  obtain ⟨hp, hst, hsn, hg, hb, hy⟩ := hs
  have ht : Inv s.block := ⟨hp, hst, hsn, hg, hb, hy⟩
  rw [← h] at ht
  obtain ⟨hp, hst, hsn, hg, hb, hy⟩ := ht
  exact ⟨hp, hst, hsn, hg, hb, hy⟩

/-- After reset GEN is the generator for T = 0 (R40, R47). -/
theorem resetGen_eq : resetGen = genWindow 0 (generator 0) := by decide +kernel

theorem reset_inv : Inv State.reset :=
  ⟨rfl, nofun, nofun, resetGen_eq, reset_windows_wf.1, reset_windows_wf.2⟩

/-- No command is pending in an idle block (R29). -/
theorem Inv.pending_none {s : State} (hs : Inv s) (hb : s.busy = false) : s.pending = none := by
  simpa [hb] using hs.busy_pending

/-- A start keeps the invariant: it takes the snapshot and clears the status (R195). -/
theorem Inv.start {s : State} (hs : Inv s) (w : Word) : Inv (s.start w) :=
  ⟨rfl, fun _ => ⟨rfl, rfl, rfl, rfl⟩, fun _ hp => (Option.some.inj hp).symm, hs.gen_generator, hs.buf_wf,
    hs.syn_wf⟩

/-- With no command pending, the invariant speaks of GEN and the windows alone. -/
theorem Inv.of_idle {t : State} (hb : t.busy = false) (hp : t.pending = none)
    (hg : t.gen = genWindow t.cfgT.toNat (generator t.cfgT.toNat)) (hbuf : t.buf.wf Config.bufDepth)
    (hsyn : t.syn.wf Config.synDepth) : Inv t :=
  ⟨by simp [hb, hp], by simp [hb], by simp [hp], hg, hbuf, hsyn⟩

/-- A host's write keeps the invariant (R66, R67). -/
theorem Inv.hostWrite {s : State} (hs : Inv s) (off : Offset) (v : Word) : Inv (hostWrite s off v) := by
  unfold Machine.hostWrite
  rcases writeReg_cases s v (regAt off) with h | h | h | ⟨hb, h | h | h | h | ⟨i, hi, h⟩⟩ <;> rw [h]
  · exact hs
  · exact ⟨hs.busy_pending, hs.busy_status, hs.pending_snapshot, hs.gen_generator, hs.buf_wf, hs.syn_wf⟩
  · exact ⟨hs.busy_pending, fun hb => ⟨rfl, (hs.busy_status hb).2⟩, hs.pending_snapshot, hs.gen_generator, hs.buf_wf,
      hs.syn_wf⟩
  · exact hs.start v
  · exact .of_idle hb (hs.pending_none hb) hs.gen_generator hs.buf_wf hs.syn_wf
  · exact .of_idle hb (hs.pending_none hb) hs.gen_generator hs.buf_wf hs.syn_wf
  · exact .of_idle hb (hs.pending_none hb) hs.gen_generator hs.buf_wf hs.syn_wf
  · exact .of_idle hb (hs.pending_none hb) hs.gen_generator (Memory.wf_write hs.buf_wf (regAt_buf_lt hi) _) hs.syn_wf

/-- A word of at most 255 symbols keeps BUF in canonical form. -/
theorem setWord_buf_wf {s : State} (hb : s.buf.wf Config.bufDepth) {w : Poly} (hw : w.length ≤ 255) :
    (s.setWord w).buf.wf Config.bufDepth :=
  Memory.wf_writeFrom hb _ (by simpa [Config.bufDepth] using hw)

/-- At most 255 syndromes keep SYN in canonical form. -/
theorem setSyndromes_syn_wf {s : State} (hy : s.syn.wf Config.synDepth) {sy : List Byte} (hsy : sy.length ≤ 255) :
    (s.setSyndromes sy).syn.wf Config.synDepth :=
  Memory.wf_writeFrom hy _ (by simpa [Config.synDepth] using hsy)

/-- Every decoded command keeps the invariant. -/
theorem CommandEffect.inv {i : Instr} {s t : State} (h : CommandEffect s i t) (hi : i.wellFormed = true) (hs : Inv s) :
    Inv t := by
  cases h with
  | status => exact .of_idle rfl rfl hs.gen_generator hs.buf_wf hs.syn_wf
  | result => exact .of_idle rfl rfl hs.gen_generator hs.buf_wf hs.syn_wf
  | config n =>
    have hn : (BitVec.ofNat 8 n).toNat = n := Nat.mod_eq_of_lt (Nat.lt_succ_of_le (of_decide_eq_true hi))
    refine .of_idle rfl rfl ?_ hs.buf_wf hs.syn_wf
    simp [hn]
  | codeword k hw => exact .of_idle rfl rfl hs.gen_generator (setWord_buf_wf hs.buf_wf hw) hs.syn_wf
  | syndromes _ hsy => exact .of_idle rfl rfl hs.gen_generator hs.buf_wf (setSyndromes_syn_wf hs.syn_wf hsy)
  | corrected k hsy hw =>
    exact .of_idle rfl rfl hs.gen_generator (setWord_buf_wf hs.buf_wf hw) (setSyndromes_syn_wf hs.syn_wf hsy)

/-- Settles O27: no command is pending after reset, and GEN is the generator for T = 0. -/
theorem invariantHoldsAfterReset : Obligations.InvariantHoldsAfterReset := reset_inv

/-- Settles O28, by the ways in which a step can change the block. -/
theorem everyStepKeepsTheInvariant : Obligations.EveryStepKeepsTheInvariant := by
  intro s t hs h
  obtain ⟨ts, hstep⟩ := step_effect h
  have hts : Inv { s with turns := ts } := hs.of_block_eq (block_turns s ts)
  rcases hstep with (⟨-, ht⟩ | ht | ⟨off, v, rest, -, ht⟩) | ⟨-, p, -, rfl | ⟨i, hd, he⟩⟩
  · exact reset_inv.of_block_eq ht
  · exact hs.of_block_eq ht
  · exact (hts.hostWrite off v).of_block_eq ht
  · exact .of_idle rfl rfl hs.gen_generator hs.buf_wf hs.syn_wf
  · exact he.inv (decode_wellFormed hd) hts

end Sys2Proof.Machine

end

/-! SUPPORT. Which register each turn can write: the configuration, RESULT and the windows (R34 to R41), and the
commands that stop on an entry without value (R48). -/

section

namespace Sys2Proof.Machine

/-! ## Registers that no write reaches -/

/-- A host's write reaches none of CFG.T, GEN, RESULT and SYN (R66). -/
theorem hostWrite_frame (s : State) (off : Offset) (v : Word) :
    (hostWrite s off v).cfgT = s.cfgT ∧ (hostWrite s off v).gen = s.gen ∧ (hostWrite s off v).result = s.result ∧
      (hostWrite s off v).syn = s.syn := by
  unfold hostWrite
  rcases writeReg_cases s v (regAt off) with h | h | h | ⟨-, h | h | h | h | ⟨i, -, h⟩⟩ <;> rw [h] <;>
    exact ⟨rfl, rfl, rfl, rfl⟩

@[simp] theorem hostWrite_cfgT (s : State) (off : Offset) (v : Word) : (hostWrite s off v).cfgT = s.cfgT :=
  (hostWrite_frame s off v).1

@[simp] theorem hostWrite_gen (s : State) (off : Offset) (v : Word) : (hostWrite s off v).gen = s.gen :=
  (hostWrite_frame s off v).2.1

@[simp] theorem hostWrite_result (s : State) (off : Offset) (v : Word) : (hostWrite s off v).result = s.result :=
  (hostWrite_frame s off v).2.2.1

@[simp] theorem hostWrite_syn (s : State) (off : Offset) (v : Word) : (hostWrite s off v).syn = s.syn :=
  (hostWrite_frame s off v).2.2.2

/-- A host's write changes BUF in an idle block only, and only through an entry of BUF (R66, R67). -/
theorem hostWrite_buf (s : State) (off : Offset) (v : Word) :
    (hostWrite s off v).buf = s.buf ∨ s.busy = false ∧ ∃ i, regAt off = .buf i := by
  unfold hostWrite
  rcases writeReg_cases s v (regAt off) with h | h | h | ⟨hb, h | h | h | h | ⟨i, hi, -⟩⟩
  on_goal 8 => exact .inr ⟨hb, i, hi⟩
  all_goals exact .inl (by simp [h])

/-! ## What each command writes -/

/-- RS_CONFIG alone writes CFG.T and GEN (R34, R40). -/
theorem CommandEffect.config_or_eq {i : Instr} {s t : State} (h : CommandEffect s i t) :
    (t.cfgT = s.cfgT ∧ t.gen = s.gen) ∨
      ∃ n, i = .rsConfig n ∧ t.err = .ok ∧ t.cfgT = BitVec.ofNat 8 n ∧ t.gen = genWindow n (generator n) := by
  cases h with
  | config n => exact .inr ⟨n, rfl, rfl, rfl, rfl⟩
  | _ => exact .inl ⟨rfl, rfl⟩

/-- A successful field command alone writes RESULT (R38). -/
theorem CommandEffect.result_or_eq {i : Instr} {s t : State} (h : CommandEffect s i t) :
    t.result = s.result ∨ t.err = .ok ∧ (i = .gfMul ∨ i = .gfDiv ∨ i = .gfPow ∨ i = .gfInv) := by
  cases h with
  | result hi v => exact .inr ⟨rfl, hi⟩
  | _ => exact .inl rfl

/-- RS_SYNDROME and RS_DECODE alone write SYN (R41). -/
theorem CommandEffect.syn_or_eq {i : Instr} {s t : State} (h : CommandEffect s i t) :
    t.syn = s.syn ∨ ∃ k, i = .rsSyndrome k ∨ i = .rsDecode k := by
  cases h with
  | syndromes hi => exact .inr ⟨_, hi⟩
  | corrected k => exact .inr ⟨k, .inr rfl⟩
  | _ => exact .inl rfl

/-- RS_ENCODE and RS_DECODE alone write BUF, on success (R39, R162). -/
theorem CommandEffect.buf_or_eq {i : Instr} {s t : State} (h : CommandEffect s i t) :
    t.buf = s.buf ∨ t.err = .ok ∧ ∃ k, i = .rsEncode k ∨ i = .rsDecode k := by
  cases h with
  | codeword k => exact .inr ⟨rfl, k, .inl rfl⟩
  | corrected k => exact .inr ⟨rfl, k, .inr rfl⟩
  | _ => exact .inl rfl

/-! ## What a step writes -/

/-- How a step changes a field of the block that an Illegal word's completion leaves alone: by reset, by a host's
write, or by the effect of the pending command. -/
theorem step_changes_field {α : Type} {f : State → α} (hblock : ∀ s, f s.block = f s)
    (hillegal : ∀ s, f (completeIllegal s) = f s) {s t : State} (h : step s = .next t) (hne : f t ≠ f s) :
    (∃ ts, s.turns = .reset :: ts) ∨
      (∃ ts off v rest, s.program = .write off .word v :: rest ∧
        f (hostWrite { s with turns := ts } off v) ≠ f { s with turns := ts }) ∨
      ∃ p, s.pending = some p ∧ s.busy = true ∧ ∃ i ts, decode p.word = .ok i ∧
        CommandEffect { s with turns := ts } i t := by
  obtain ⟨ts, hstep⟩ := step_effect h
  have hts : f { s with turns := ts } = f s := by rw [← hblock, block_turns, hblock]
  rcases hstep with (⟨hr, -⟩ | ht | ⟨off, v, rest, hp, ht⟩) | ⟨hb, p, hp, rfl | ⟨i, hd, he⟩⟩
  · exact .inl ⟨ts, hr⟩
  · exact absurd (by rw [← hblock, ht, hblock]) hne
  · exact .inr (.inl ⟨ts, off, v, rest, hp, fun hw => hne (by rw [← hblock, ht, hblock, hw, hts])⟩)
  · exact absurd ((hillegal _).trans hts) hne
  · exact .inr (.inr ⟨p, hp, hb, i, ts, hd, he⟩)

/-- A field that no host's write reaches changes by reset or by the effect of the pending command. -/
theorem step_changes_protected_field {α : Type} {f : State → α} (hblock : ∀ s, f s.block = f s)
    (hillegal : ∀ s, f (completeIllegal s) = f s) (hwrite : ∀ s off v, f (hostWrite s off v) = f s) {s t : State}
    (h : step s = .next t) (hne : f t ≠ f s) :
    (∃ ts, s.turns = .reset :: ts) ∨
      ∃ p, s.pending = some p ∧ s.busy = true ∧ ∃ i ts, decode p.word = .ok i ∧
        CommandEffect { s with turns := ts } i t := by
  rcases step_changes_field hblock hillegal h hne with hr | ⟨ts, off, v, rest, -, hw⟩ | hc
  · exact .inl hr
  · exact absurd (hwrite _ off v) hw
  · exact .inr hc

/-- Settles O29: of the commands' effects only RS_CONFIG's reaches CFG.T and GEN. -/
theorem onlyRsConfigWritesTheConfiguration : Obligations.OnlyRsConfigWritesTheConfiguration := by
  intro s t h hne
  have hne : (t.cfgT, t.gen) ≠ (s.cfgT, s.gen) := by rwa [Ne, Prod.mk.injEq, not_and_or]
  have hwrite : ∀ s off v, ((hostWrite s off v).cfgT, (hostWrite s off v).gen) = (s.cfgT, s.gen) := fun s off v =>
    Prod.ext (hostWrite_cfgT s off v) (hostWrite_gen s off v)
  rcases step_changes_protected_field (f := fun s => (s.cfgT, s.gen)) (fun _ => rfl) (fun _ => rfl) hwrite h hne with
    hr | ⟨p, hp, hb, i, ts, hd, he⟩
  · exact .inl hr
  · rcases he.config_or_eq with ⟨hT, hg⟩ | ⟨n, rfl, herr, hT, hg⟩
    · exact absurd (Prod.ext hT hg) hne
    · have hn : n ≤ 255 := of_decide_eq_true (decode_wellFormed hd)
      refine .inr ⟨p, n, hp, hb, hd, herr, ?_, hg⟩
      rw [hT, BitVec.toNat_ofNat, Nat.mod_eq_of_lt (by omega)]

/-- Settles O30: of the commands' effects only that of a successful field command reaches RESULT. -/
theorem onlyFieldCommandsWriteTheResult : Obligations.OnlyFieldCommandsWriteTheResult := by
  intro s t h hne
  rcases step_changes_protected_field (f := State.result) (fun _ => rfl) (fun _ => rfl) hostWrite_result h hne with
    hr | ⟨p, hp, hb, i, ts, hd, he⟩
  · exact .inl hr
  · rcases he.result_or_eq with heq | ⟨herr, hi⟩
    · exact absurd heq hne
    · exact .inr ⟨p, hp, hb, herr, by simpa [hd] using hi⟩

/-- A step changes SYN by reset, RS_SYNDROME or RS_DECODE (R41). -/
theorem step_changes_syn {s t : State} (h : step s = .next t) (hne : t.syn ≠ s.syn) :
    (∃ ts, s.turns = .reset :: ts) ∨
      ∃ p k, s.pending = some p ∧ s.busy = true ∧
        (decode p.word = .ok (.rsSyndrome k) ∨ decode p.word = .ok (.rsDecode k)) := by
  rcases step_changes_protected_field (f := State.syn) (fun _ => rfl) (fun _ => rfl) hostWrite_syn h hne with
    hr | ⟨p, hp, hb, i, ts, hd, he⟩
  · exact .inl hr
  · rcases he.syn_or_eq with heq | ⟨k, hi⟩
    · exact absurd heq hne
    · exact .inr ⟨p, k, hp, hb, by simpa [hd] using hi⟩

/-- A step changes BUF by reset, by a host's write of an entry while idle, or by a successful RS_ENCODE or RS_DECODE
(R39). -/
theorem step_changes_buf {s t : State} (h : step s = .next t) (hne : t.buf ≠ s.buf) :
    (∃ ts, s.turns = .reset :: ts) ∨
      (s.busy = false ∧ ∃ off w rest i, s.program = .write off .word w :: rest ∧ regAt off = .buf i) ∨
      ∃ p k, s.pending = some p ∧ s.busy = true ∧ t.err = .ok ∧
        (decode p.word = .ok (.rsEncode k) ∨ decode p.word = .ok (.rsDecode k)) := by
  rcases step_changes_field (f := State.buf) (fun _ => rfl) (fun _ => rfl) h hne with
    hr | ⟨ts, off, v, rest, hp, hw⟩ | ⟨p, hp, hb, i, ts, hd, he⟩
  · exact .inl hr
  · rcases hostWrite_buf { s with turns := ts } off v with heq | ⟨hb, i, hi⟩
    · exact absurd heq hw
    · exact .inr (.inl ⟨hb, off, v, rest, i, hp, hi⟩)
  · rcases he.buf_or_eq with heq | ⟨herr, k, hi⟩
    · exact absurd heq hne
    · exact .inr (.inr ⟨p, k, hp, hb, herr, by simpa [hd] using hi⟩)

/-- Settles O31, by what can change each of the two windows. -/
theorem onlyCodecCommandsAndTheHostWriteTheWindows : Obligations.OnlyCodecCommandsAndTheHostWriteTheWindows :=
  fun _ _ h => ⟨step_changes_syn h, step_changes_buf h⟩

/-! ## Entries that hold no value -/

/-- A sequence from index 0 on is not read when an entry in it holds no value. -/
theorem readFrom_zero_eq_none {α : Type} {m : Memory α} {j n : Nat} (hj : j < n) (h : m.read j = none) :
    m.readFrom 0 n = none :=
  Memory.readFrom_eq_none.2 ⟨j, hj, by rwa [Nat.zero_add]⟩

/-- RS_ENCODE stops when its message is not readable (R48). -/
theorem execRsEncode_unwritten {s : State} {p : Pending} {k : Nat} (hp : s.pending = some p)
    (hle : k + p.cfgT.toNat ≤ 255) (h : p.buf.readFrom 0 k = none) :
    exec (.rsEncode k) s = .fault .unwrittenSymbol := by
  simp only [exec, execRsEncode, withPending_some hp, withLength_of_le hle, messageOf, h]

/-- RS_SYNDROME stops when its word is not readable (R48). -/
theorem execRsSyndrome_unwritten {s : State} {p : Pending} {k : Nat} (hp : s.pending = some p)
    (hle : k + p.cfgT.toNat ≤ 255) (h : p.buf.readFrom 0 (k + p.cfgT.toNat) = none) :
    exec (.rsSyndrome k) s = .fault .unwrittenSymbol := by
  simp only [exec, execRsSyndrome, withPending_some hp, withLength_of_le hle, receivedWord, h]

/-- RS_DECODE stops when its word is not readable (R48). -/
theorem execRsDecode_unwritten {s : State} {p : Pending} {k : Nat} (hp : s.pending = some p)
    (hle : k + p.cfgT.toNat ≤ 255) (h : p.buf.readFrom 0 (k + p.cfgT.toNat) = none) :
    exec (.rsDecode k) s = .fault .unwrittenSymbol := by
  simp only [exec, execRsDecode, withPending_some hp, withLength_of_le hle, receivedWord, h]

/-- Settles O45: the entries that a block command needs are read as one sequence. -/
theorem commandsStopOnEntriesWithoutValue : Obligations.CommandsStopOnEntriesWithoutValue := by
  intro s p k j hp hle hj
  refine ⟨fun hk => execRsEncode_unwritten hp hle (readFrom_zero_eq_none hk hj), fun hn => ?_⟩
  have hnone := readFrom_zero_eq_none hn hj
  exact ⟨execRsSyndrome_unwritten hp hle hnone, execRsDecode_unwritten hp hle hnone⟩

end Sys2Proof.Machine

end

/-! SUPPORT. The exponent and log tables against the procedure of R98. -/

section

namespace Sys2Proof.Machine

/-- Each entry of R99's table below 254 is doubled by the next. -/
theorem expTable_succ {i : Nat} (hi : i < 254) : expTable (i + 1) = xtime (expTable i) :=
  (by decide +kernel : ∀ i, i < 254 → expTable (i + 1) = xtime (expTable i)) i hi

/-- The table repeats with period 255 (R99). -/
@[simp] theorem expTable_mod (i : Nat) : expTable (i % 255) = expTable i := by
  simp [expTable]

/-- R99's table is what the procedure of R98 builds. -/
theorem expTable_eq_expBuilt {i : Nat} (hi : i < 255) : expTable i = expBuilt i := by
  induction i with
  | zero => rfl
  | succ i ih => rw [expTable_succ (by omega), ih (by omega), expBuilt]

/-- The log table is the inverse of the exponent table (R100). -/
theorem logTable_expTable {i : Nat} (hi : i < 255) : logTable (expTable i) = i :=
  (by decide +kernel : ∀ i, i < 255 → logTable (expTable i) = i) i hi

/-- No power of 2 is 0. -/
theorem expTable_ne_zero (i : Nat) : expTable i ≠ 0 := by
  rw [← expTable_mod]
  exact (by decide +kernel : ∀ i, i < 255 → expTable i ≠ 0) _ (Nat.mod_lt i (by decide))

/-- The logarithm of a non-zero element is at most 254 (R100). -/
theorem logTable_lt {v : Byte} (hv : v ≠ 0) : logTable v < 255 := by
  have h : ∀ n, n < 256 → n ≠ 0 → logTable (BitVec.ofNat 8 n) < 255 := by decide +kernel
  have := h v.toNat v.isLt (fun h0 => hv (BitVec.eq_of_toNat_eq h0))
  rwa [BitVec.ofNat_toNat, BitVec.setWidth_eq] at this

end Sys2Proof.Machine

end

/-! SUPPORT. The register space of R44: the map, and what reads and writes do there. -/

section

namespace Sys2Proof.Machine

/-! ## Addresses and the map -/

/-- After the ten registers the first 1 KiB is unmapped. -/
theorem registerAt_of_ge {w : Nat} (h : 10 ≤ w) : registerAt w = .unmapped := by
  obtain ⟨n, rfl⟩ := Nat.exists_eq_add_of_le' h
  rfl

/-- Decoding an address and placing an offset at BASE are inverse (R60). -/
theorem offsetOfAddress_eq_some {a : Nat} {off : Offset} : offsetOfAddress a = some off ↔ busAddress off = a := by
  have hoff := off.isLt
  unfold offsetOfAddress busAddress
  constructor
  · intro h
    split at h
    · cases h
      rw [BitVec.toNat_ofNat]
      omega
    · cases h
  · rintro rfl
    rw [if_pos (by omega)]
    simp

/-- An address is decoded exactly if it lies in the block's 8 KiB (R60, R68). -/
theorem offsetOfAddress_eq_none {a : Nat} :
    offsetOfAddress a = none ↔ a < Config.base ∨ Config.base + 0x2000 ≤ a := by
  unfold offsetOfAddress
  split
  · simp; omega
  · simp; omega

/-- The map of R44 with the last word of every range written out. -/
theorem regAt_aligned (off : Offset) (h : off.toNat % 4 = 0) :
    regAt off =
      if off.toNat = 0x0000 then .cap0 else if off.toNat = 0x0004 then .cap1
      else if off.toNat = 0x0008 then .ctrl else if off.toNat = 0x000C then .cmd
      else if off.toNat = 0x0010 then .status else if off.toNat = 0x0014 then .cfg
      else if off.toNat = 0x0018 then .opa else if off.toNat = 0x001C then .opb
      else if off.toNat = 0x0020 then .opn else if off.toNat = 0x0024 then .result
      else if off.toNat ≤ 0x03FC then .unmapped
      else if off.toNat ≤ 0x0400 + 4 * 254 then .buf ((off.toNat - 0x0400) / 4)
      else if off.toNat = 0x07FC then .unmapped
      else if off.toNat ≤ 0x0800 + 4 * 255 then .gen ((off.toNat - 0x0800) / 4)
      else if off.toNat ≤ 0x0C00 + 4 * 254 then .syn ((off.toNat - 0x0C00) / 4)
      else if off.toNat = 0x0FFC then .unmapped
      else if off.toNat ≤ 0x1000 + 4 * 511 then .exp ((off.toNat - 0x1000) / 4)
      else if off.toNat ≤ 0x1800 + 4 * 255 then .log ((off.toNat - 0x1800) / 4)
      else .unmapped := by
  unfold regAt
  generalize off.toNat = o at h
  obtain ⟨w, rfl⟩ := Nat.dvd_of_mod_eq_zero h
  rw [Nat.mul_div_cancel_left w (by decide)]
  rcases Nat.lt_or_ge w 10 with hw | hw
  · interval_cases w <;> rfl
  · rw [registerAt_of_ge hw, windowAt]
    symm
    iterate 10 rw [if_neg (by omega)]
    iterate 8 refine ite_congr (propext (by omega)) (fun _ => rfl) fun _ => ?_
    rfl

/-- Settles O7: decoding an address undoes placing the offset at BASE, and the map is that of R44. -/
theorem offsetsNameTheRegisters : Obligations.OffsetsNameTheRegisters :=
  ⟨fun _ => offsetOfAddress_eq_some.2 rfl, fun _ _ => offsetOfAddress_eq_some.1, fun _ => offsetOfAddress_eq_none,
    regAt_aligned⟩

/-! ## Words -/

/-- Bit strings that stand side by side, as numbers. -/
theorem toNat_append_add {m n : Nat} (x : BitVec m) (y : BitVec n) :
    (x ++ y).toNat = x.toNat * 2 ^ n + y.toNat := by
  rw [BitVec.toNat_append, ← Nat.shiftLeft_add_eq_or_of_lt y.isLt, Nat.shiftLeft_eq]

/-- A bit of a word, on the word's number. -/
theorem getLsbD_eq_decide {n : Nat} (x : BitVec n) (i : Nat) : x.getLsbD i = decide (x.toNat / 2 ^ i % 2 = 1) :=
  Nat.testBit_eq_decide_div_mod_eq

/-- The low bits of a word, on the word's number. -/
theorem setWidth_eq_ofNat_mod {n : Nat} (x : BitVec n) (m : Nat) : x.setWidth m = BitVec.ofNat m (x.toNat % 2 ^ m) :=
  BitVec.eq_of_toNat_eq (by simp)

/-- The word of STATUS as a number (R28). -/
theorem statusWord_toNat (s : State) :
    (statusWord s).toNat = s.nerr.toNat * 2 ^ 16 + s.neras.toNat * 2 ^ 8 + s.err.code.toNat * 2 ^ 4 +
      (if s.done = true then 2 else 0) + (if s.busy = true then 1 else 0) := by
  unfold statusWord
  simp only [toNat_append_add, BitVec.toNat_ofBool]
  cases s.done <;> cases s.busy <;> simp <;> omega

/-- The word of a buffer entry as a number (R39). -/
theorem symbolWord_eq (x : Symbol) :
    symbolWord x = BitVec.ofNat 32 (x.value.toNat + if x.erased = true then 256 else 0) := by
  have hv := x.value.isLt
  apply BitVec.eq_of_toNat_eq
  unfold symbolWord
  simp only [toNat_append_add, BitVec.toNat_ofBool]
  cases x.erased <;> simp <;> omega

/-- The entry that a written word stores, on the number written (R39). -/
theorem symbolOfWord_eq (v : Word) :
    symbolOfWord v = ⟨BitVec.ofNat 8 (v.toNat % 256), decide (v.toNat / 256 % 2 = 1)⟩ := by
  rw [symbolOfWord, setWidth_eq_ofNat_mod, getLsbD_eq_decide]
  rfl

/-- The word of a log entry with VALID set (R43). -/
theorem logWord_toNat {v : Byte} (hv : v ≠ 0) : logWord v.toNat = BitVec.ofNat 32 (256 + logTable v) := by
  have h0 : v.toNat ≠ 0 := fun h => hv (BitVec.eq_of_toNat_eq h)
  have hlt := logTable_lt hv
  rw [logWord, if_neg h0, BitVec.ofNat_toNat, BitVec.setWidth_eq]
  apply BitVec.eq_of_toNat_eq
  simp only [toNat_append_add, BitVec.toNat_ofNat]
  omega

/-- Settles O8, on the word as a number. -/
theorem statusWordLayout : Obligations.StatusWordLayout :=
  fun s => ⟨statusWord s, rfl, statusWord_toNat s⟩

/-! ## Writes -/

/-- A write of STATUS clears DONE exactly when bit 1 is 1 (R30). -/
theorem writeReg_status (s : State) (v : Word) :
    writeReg s v .status = { s with done := s.done && decide (v.toNat / 2 % 2 = 0) } := by
  have hbit : v.getLsbD 1 = decide (v.toNat / 2 % 2 = 1) := getLsbD_eq_decide v 1
  rw [writeReg, hbit]
  rcases Nat.mod_two_eq_zero_or_one (v.toNat / 2) with h | h <;> simp [h, State.clearDone]

/-- The registers that hold nothing writable ignore every write (R66). -/
theorem hostWrite_readOnly {off : Offset} (hal : off.toNat % 4 = 0) (hctrl : off.toNat ≠ 0x0008)
    (hcmd : off.toNat ≠ 0x000C) (hstatus : off.toNat ≠ 0x0010) (hopa : off.toNat ≠ 0x0018) (hopb : off.toNat ≠ 0x001C)
    (hopn : off.toNat ≠ 0x0020) (hbuf : ¬ (0x0400 ≤ off.toNat ∧ off.toNat ≤ 0x07F8)) (s : State) (v : Word) :
    hostWrite s off v = s := by
  unfold hostWrite regAt
  generalize off.toNat = o at *
  obtain ⟨w, rfl⟩ := Nat.dvd_of_mod_eq_zero hal
  rw [Nat.mul_div_cancel_left w (by decide)]
  rcases Nat.lt_or_ge w 10 with hw | hw
  · have hreadOnly : w = 0 ∨ w = 1 ∨ w = 5 ∨ w = 9 := by omega
    rcases hreadOnly with rfl | rfl | rfl | rfl <;> rfl
  · rw [registerAt_of_ge hw]
    split
    · rfl
    · rw [windowAt, if_neg (by omega)]
      repeat' split
      all_goals rfl

/-- Settles O14: the map names the register, and the register keeps its writable bits. -/
theorem idleWritesStoreTheWritableBits : Obligations.IdleWritesStoreTheWritableBits := by
  intro s off v hb hal hcmd
  have hreg := regAt_aligned off hal
  split_ifs with hctrl hstatus hopa hopb hopn hbuf
  · have hbit : v.getLsbD 0 = decide (v.toNat % 2 = 1) := by rw [getLsbD_eq_decide, pow_zero, Nat.div_one]
    rw [hostWrite, hreg]
    simp [hctrl, writeReg, ← hbit]
  · rw [hostWrite, hreg]
    simp [hstatus, writeReg_status]
  · rw [hostWrite, hreg]
    simp [hopa, writeReg, hb, setWidth_eq_ofNat_mod]
  · rw [hostWrite, hreg]
    simp [hopb, writeReg, hb, setWidth_eq_ofNat_mod]
  · rw [hostWrite, hreg]
    simp [hopn, writeReg, hb, setWidth_eq_ofNat_mod]
  · iterate 11 rw [if_neg (by omega)] at hreg
    rw [if_pos (by omega)] at hreg
    rw [hostWrite, hreg, writeReg, hb, symbolOfWord_eq]
    simp
  · exact hostWrite_readOnly hal hctrl hcmd hstatus hopa hopb hopn hbuf s v

/-! ## Reads -/

/-- An aligned 32-bit access is not refused (R61, R62). -/
theorem accessRefusal_word {off : Offset} (hal : off.toNat % 4 = 0) : accessRefusal off .word = none := by
  simp [accessRefusal, hal]

/-- An aligned 32-bit read has its turn. -/
theorem hostTurn_read {s : State} {off : Offset} {rest : List HostOp} (hal : off.toNat % 4 = 0)
    (hp : s.program = .read off .word :: rest) : hostTurn s = .next { hostRead s off with program := rest } := by
  simp only [hostTurn, hp, accessRefusal_word hal]

/-- A read of a register that has a word hands the word to the host and changes nothing else (R65). -/
theorem hostTurn_read_some {s : State} {off : Offset} {v : Word} {rest : List HostOp} (hal : off.toNat % 4 = 0)
    (hp : s.program = .read off .word :: rest) (hv : readReg s (regAt off) = some v) :
    hostTurn s = .next { s with program := rest, log := s.log ++ [(off, v)] } := by
  rw [hostTurn_read hal hp, hostRead, hv]

/-- A read of a register that has no word draws a free one (R48, R67). -/
theorem hostTurn_read_none {s : State} {off : Offset} {rest : List HostOp} (hal : off.toNat % 4 = 0)
    (hp : s.program = .read off .word :: rest) (hv : readReg s (regAt off) = none) :
    hostTurn s = .next { s with
      program := rest, log := s.log ++ [(off, Config.freeWord s.draws)], draws := s.draws + 1 } := by
  rw [hostTurn_read hal hp, hostRead, hv]

theorem readReg_ctrl (s : State) : readReg s .ctrl = some (if s.ie = true then 1 else 0) := by
  rw [readReg]
  cases s.ie <;> rfl

theorem readReg_status (s : State) :
    readReg s .status = some (BitVec.ofNat 32 (s.nerr.toNat * 2 ^ 16 + s.neras.toNat * 2 ^ 8 +
      s.err.code.toNat * 2 ^ 4 + (if s.done = true then 2 else 0) + (if s.busy = true then 1 else 0))) := by
  rw [← statusWord_toNat, BitVec.ofNat_toNat, BitVec.setWidth_eq, readReg]

/-- Every entry of EXP reads what the procedure of R98 builds at the index modulo 255. -/
theorem readReg_exp (s : State) (i : Nat) : readReg s (.exp i) = some ((expBuilt (i % 255)).setWidth 32) := by
  rw [readReg, ← expTable_mod, expTable_eq_expBuilt (Nat.mod_lt i (by decide))]

theorem readReg_log {v : Byte} (hv : v ≠ 0) (s : State) :
    readReg s (.log v.toNat) = some (BitVec.ofNat 32 (256 + logTable v)) :=
  congrArg some (logWord_toNat hv)

theorem readReg_buf_idle {s : State} (hb : s.busy = false) {i : Nat} {x : Symbol} (hx : s.buf.read i = some x) :
    readReg s (.buf i) = some (BitVec.ofNat 32 (x.value.toNat + if x.erased = true then 256 else 0)) := by
  simp [readReg, hb, hx, symbolWord_eq]

theorem readReg_gen_idle {s : State} (hb : s.busy = false) (i : Fin 256) :
    readReg s (.gen i) = some (s.gen[i].setWidth 32) := by
  simp [readReg, hb]

theorem readReg_syn_idle {s : State} (hb : s.busy = false) {i : Nat} {v : Byte} (hv : s.syn.read i = some v) :
    readReg s (.syn i) = some (v.setWidth 32) := by
  simp [readReg, hb, hv]

/-- Settles O10, register by register. -/
theorem idleReadsReturnTheFields : Obligations.IdleReadsReturnTheFields := by
  intro s
  refine ⟨⟨rfl, rfl, readReg_ctrl s, rfl, readReg_status s, rfl, rfl, rfl, rfl, fun i _ => readReg_exp s i, rfl,
    fun v hv => readReg_log hv s⟩, fun hb => ⟨?_, ?_, fun i x => readReg_buf_idle hb, readReg_gen_idle hb,
    fun i v => readReg_syn_idle hb⟩, fun off v rest => hostTurn_read_some⟩
  · rw [readReg, hb]; rfl
  · rw [readReg, hb]; rfl

/-- While busy RESULT, CFG and the windows have no word (R67). -/
theorem readReg_busy {s : State} (hb : s.busy = true) {r : Reg}
    (hr : r = .result ∨ r = .cfg ∨ ∃ i, r = .buf i ∨ r = .gen i ∨ r = .syn i) : readReg s r = none := by
  rcases hr with rfl | rfl | ⟨i, rfl | rfl | rfl⟩ <;> exact if_pos hb

/-- An entry of BUF or SYN that holds no value has no word, busy or idle (R48). -/
theorem readReg_unwritten {s : State} {r : Reg} {i : Nat}
    (hr : (r = .buf i ∧ s.buf.read i = none) ∨ (r = .syn i ∧ s.syn.read i = none)) : readReg s r = none := by
  rcases hr with ⟨rfl, h⟩ | ⟨rfl, h⟩ <;> simp [readReg, h]

/-- Settles O11: such a register has no word, so the read draws one. -/
theorem unspecifiedReadsReturnAFreeWord : Obligations.UnspecifiedReadsReturnAFreeWord := by
  rintro s off rest hal hp (⟨hb, hr⟩ | ⟨i, hr⟩)
  · exact hostTurn_read_none hal hp (readReg_busy hb hr)
  · exact hostTurn_read_none hal hp (readReg_unwritten hr)

/-! ## Reset -/

/-- GEN after reset, entry by entry (R47). -/
theorem reset_gen_getElem (i : Fin 256) : State.reset.gen[i] = if i = 0 then 1 else 0 := by
  simp only [State.reset, resetGen, Fin.getElem_fin, Vector.getElem_set, Vector.getElem_replicate, Fin.ext_iff, eq_comm]
  rfl

/-- LOG after reset inverts the procedure of R98, with VALID set (R47, R100). -/
theorem readReg_log_expBuilt (s : State) {i : Nat} (hi : i < 255) :
    readReg s (.log (expBuilt i).toNat) = some (BitVec.ofNat 32 (256 + i)) := by
  rw [← expTable_eq_expBuilt hi, readReg_log (expTable_ne_zero i), logTable_expTable hi]

/-- Settles O25: the fields by definition, the tables by the procedure of R98. -/
theorem resetStateIsAsStated : Obligations.ResetStateIsAsStated :=
  ⟨rfl, rfl, rfl, rfl, rfl, rfl, rfl, rfl, rfl, rfl, rfl, rfl, rfl, rfl, rfl, rfl, reset_gen_getElem,
    fun _ => ⟨rfl, rfl⟩, fun i _ => readReg_exp _ i, fun _ => readReg_log_expBuilt _, rfl, rfl, rfl⟩

end Sys2Proof.Machine

end

/-! SUPPORT. The host's side of the block: the bytes of a command word (R63), the accesses that have no step (R61,
R62), what no read changes (R65), and what a pending command is protected from (R67, R70). -/

section

namespace Sys2Proof.Machine

/-! ## Byte lanes -/

/-- A byte lane, on the word's number (R63). -/
theorem byteLane_toNat (w : Word) (k : Nat) : (byteLane w k).toNat = w.toNat / 2 ^ (8 * k) % 256 := by
  rw [byteLane, BitVec.extractLsb'_toNat, Nat.shiftRight_eq_div_pow]

/-- A word is made of its four byte lanes. -/
theorem wordOfLanes_byteLane (w : Word) :
    wordOfLanes (byteLane w 0) (byteLane w 1) (byteLane w 2) (byteLane w 3) = w := by
  have hw := w.isLt
  apply BitVec.eq_of_toNat_eq
  simp only [wordOfLanes, toNat_append_add, byteLane_toNat]
  omega

theorem decodeBytes_bytesOfWord (w : Word) : decodeBytes (bytesOfWord w) = decode w :=
  congrArg decode (wordOfLanes_byteLane w)

/-- Every command is four bytes long (R85). -/
theorem decodeBytes_wrongLength {bs : List Byte} (h : bs.length ≠ 4) : decodeBytes bs = .error .wrongLength := by
  unfold decodeBytes
  split
  · exact absurd rfl h
  · rfl

/-- Settles O6, on the word as a number. -/
theorem byteLanesCarryTheCommand : Obligations.ByteLanesCarryTheCommand :=
  ⟨fun w k _ => byteLane_toNat w k, decodeBytes_bytesOfWord, fun _ => decodeBytes_wrongLength⟩

/-! ## Accesses without a step -/

/-- An access of another width is refused, wherever it goes (R61). -/
theorem accessRefusal_width {width : Width} (hw : width ≠ .word) (off : Offset) :
    accessRefusal off width = some .accessWidth :=
  if_pos hw

/-- A 32-bit access that is not word aligned is refused (R62). -/
theorem accessRefusal_misaligned {off : Offset} (hal : off.toNat % 4 ≠ 0) :
    accessRefusal off .word = some .misalignedAccess := by
  simp [accessRefusal, hal]

/-- The turn of a refused access is refused for the same reason, a read's and a write's alike. -/
theorem hostTurn_refused {s : State} {off : Offset} {width : Width} {v : Word} {rest : List HostOp} {r : Refusal}
    (hp : s.program = .read off width :: rest ∨ s.program = .write off width v :: rest)
    (hr : accessRefusal off width = some r) : hostTurn s = .refused r := by
  rcases hp with hp | hp <;> simp only [hostTurn, hp, hr]

/-- Settles O15: the access is refused, and so is its turn. -/
theorem undefinedAccessesAreRefused : Obligations.UndefinedAccessesAreRefused := by
  intro s off width v rest hp
  refine ⟨fun hw => hostTurn_refused hp (accessRefusal_width hw off), ?_⟩
  rintro rfl hal
  exact hostTurn_refused hp (accessRefusal_misaligned hal)

/-! ## The schedule and the block under a host's turn -/

@[simp] theorem hostRead_turns (s : State) (off : Offset) : (hostRead s off).turns = s.turns := by
  obtain ⟨v, d, h, -⟩ := hostRead_eq s off
  rw [h]

@[simp] theorem hostWrite_turns (s : State) (off : Offset) (v : Word) : (hostWrite s off v).turns = s.turns := by
  unfold hostWrite
  rcases writeReg_cases s v (regAt off) with h | h | h | ⟨-, h | h | h | h | ⟨i, -, h⟩⟩ <;> rw [h] <;> rfl

/-- The host does not touch the schedule. -/
theorem hostTurn_turns {s t : State} (h : hostTurn s = .next t) : t.turns = s.turns := by
  rcases hostTurn_next h with rfl | ⟨off, pr, rfl⟩ | ⟨off, v, pr, -, -, rfl⟩
  · rfl
  · exact hostRead_turns s off
  · exact hostWrite_turns s off v

/-- Settles O9: only a write could change the block, and nothing the host does changes the schedule. -/
theorem readsHaveNoSideEffects : Obligations.ReadsHaveNoSideEffects := by
  intro s t hnoWrite h
  refine ⟨?_, hostTurn_turns h⟩
  rcases hostTurn_block h with hblock | ⟨off, v, rest, hp, -⟩
  · exact hblock
  · exact absurd hp (hnoWrite off .word v rest)

/-! ## While a command is pending -/

/-- A write to a busy block reaches CTRL.IE and STATUS.DONE at most (R67). -/
theorem hostWrite_busy {s : State} (hb : s.busy = true) (off : Offset) (v : Word) :
    ∃ ie done, hostWrite s off v = { s with ie := ie, done := done } := by
  unfold hostWrite
  rcases writeReg_cases s v (regAt off) with h | h | h | ⟨hidle, -⟩
  · exact ⟨s.ie, s.done, h⟩
  · exact ⟨v.getLsbD 0, s.done, h⟩
  · exact ⟨s.ie, false, h⟩
  · simp [hb] at hidle

/-- A turn of the host reaches no more of a busy block than IE and DONE (R70, R74). -/
theorem hostTurn_busy {s t : State} (hb : s.busy = true) (h : hostTurn s = .next t) :
    ∃ ie done, t.block = State.block { s with ie := ie, done := done } := by
  rcases hostTurn_block h with hblock | ⟨off, v, rest, -, hblock⟩
  · exact ⟨s.ie, s.done, hblock⟩
  · obtain ⟨ie, done, hw⟩ := hostWrite_busy hb off v
    exact ⟨ie, done, by rw [hblock, hw]⟩

/-- Settles O18: the pending command, the registers and the windows are neither IE nor DONE. -/
theorem hostCannotReachAPendingCommand : Obligations.HostCannotReachAPendingCommand := by
  intro s t p hb hp h
  obtain ⟨ie, done, hblock⟩ := hostTurn_busy hb h
  have keeps {α : Type} (f : State → α) (hf : ∀ s, f s.block = f s) : f t = f { s with ie := ie, done := done } := by
    rw [← hf t, hblock, hf]
  exact ⟨(keeps State.pending block_pending).trans hp, (keeps State.busy block_busy).trans hb,
    keeps State.cmd block_cmd, keeps State.cfgT block_cfgT, keeps State.result block_result,
    keeps State.opa block_opa, keeps State.opb block_opb, keeps State.opn block_opn, keeps State.buf block_buf,
    keeps State.gen block_gen, keeps State.syn block_syn⟩

/-- Settles O12: while busy every other field of STATUS is 0. -/
theorem busyStatusReadsOne : Obligations.BusyStatusReadsOne := by
  intro s hs hb
  obtain ⟨hdone, herr, hneras, hnerr⟩ := hs.busy_status hb
  simp [readReg_status, hb, hdone, herr, hneras, hnerr, ErrorKind.code]

/-- A write that clears a DONE of 0 changes nothing. -/
theorem clearDone_of_done_false {s : State} (hd : s.done = false) : s.clearDone = s := by
  rw [State.clearDone, ← hd]

/-- While a command is pending every register but CTRL ignores a write: it is read-only, or closed while busy, or it
is STATUS, whose DONE is 0 already (R66, R67). -/
theorem writeReg_busy {s : State} (hs : Inv s) (hb : s.busy = true) (v : Word) {r : Reg} (hr : r ≠ .ctrl) :
    writeReg s v r = s := by
  cases r with
  | ctrl => exact absurd rfl hr
  | status =>
    obtain ⟨hdone, -⟩ := hs.busy_status hb
    rw [writeReg, clearDone_of_done_false hdone, ite_self]
  | cmd => exact if_pos hb
  | opa => exact if_pos hb
  | opb => exact if_pos hb
  | opn => exact if_pos hb
  | buf => exact if_pos hb
  | _ => rfl

/-- CTRL is the third word of the map (R44). -/
theorem registerAt_eq_ctrl {w : Nat} (h : registerAt w = .ctrl) : w = 2 := by
  unfold registerAt at h
  split at h <;> cases h
  rfl

/-- The windows do not show CTRL (R44). -/
theorem windowAt_ne_ctrl (o : Nat) : windowAt o ≠ .ctrl := by
  unfold windowAt
  repeat' split
  all_goals exact nofun

/-- CTRL stands at one aligned offset (R44). -/
theorem regAt_eq_ctrl {off : Offset} (hal : off.toNat % 4 = 0) : regAt off = .ctrl ↔ off.toNat = 0x0008 := by
  unfold regAt
  constructor
  · intro h
    split at h
    · have hword := registerAt_eq_ctrl h
      omega
    · exact absurd h (windowAt_ne_ctrl _)
  · intro h
    rw [h]
    rfl

/-- Settles O13: CTRL stores bit 0, and the other registers ignore the write. -/
theorem busyWritesAreIgnored : Obligations.BusyWritesAreIgnored := by
  intro s off v hs hb hal
  unfold hostWrite
  split_ifs with hctrl
  · rw [(regAt_eq_ctrl hal).2 hctrl, writeReg]
  · exact writeReg_busy hs hb v (mt (regAt_eq_ctrl hal).1 hctrl)

end Sys2Proof.Machine

end

/-! SUPPORT. Command words: the decoder and the encoder are inverse (R80 to R82), the rows of the opcode table (R83),
and how the engine and the waiting host take their turns (R87, R196). -/

section

namespace Sys2Proof

open Machine

/-! ## The fields of a word (R80) -/

theorem opField_toNat (w : Word) : (opField w).toNat = w.toNat % 256 := by
  simp [opField]

theorem argField_toNat (w : Word) : (argField w).toNat = w.toNat / 256 % 256 := by
  simp [argField, Nat.shiftRight_eq_div_pow]

theorem rsvField_toNat (w : Word) : (rsvField w).toNat = w.toNat / 65536 := by
  have hw := w.isLt
  rw [rsvField, BitVec.extractLsb'_toNat, Nat.shiftRight_eq_div_pow]
  omega

/-- A word is made of its three fields. -/
theorem rsvField_append_argField_append_opField (w : Word) : rsvField w ++ argField w ++ opField w = w := by
  apply BitVec.eq_of_toNat_eq
  simp only [toNat_append_add, opField_toNat, argField_toNat, rsvField_toNat]
  omega

/-! ## The commands -/

/-- A command is well formed exactly if its argument fits the 8 bits of ARG (R88). -/
theorem Instr.wellFormed_iff (i : Instr) : i.wellFormed = true ↔ argument i ≤ 255 := by
  cases i <;> simp [Instr.wellFormed, argument]

theorem opcode_mem (i : Instr) : opcode i ∈ [0x01, 0x02, 0x03, 0x04, 0x10, 0x11, 0x12, 0x13] := by
  cases i <;> simp [opcode]

theorem opcode_lt (i : Instr) : opcode i < 256 := by
  cases i <;> simp [opcode]

/-- The commands of the first four opcodes carry no argument (R80). -/
theorem argument_eq_zero {i : Instr} (h : opcode i ∈ [0x01, 0x02, 0x03, 0x04]) : argument i = 0 := by
  cases i <;> simp_all [opcode, argument]

/-- The word of a well-formed command as a number (R80). -/
theorem encode_toNat {i : Instr} (hi : i.wellFormed = true) : (encode i).toNat = argument i * 256 + opcode i := by
  have harg := (Instr.wellFormed_iff i).1 hi
  have hop := opcode_lt i
  simp only [encode, toNat_append_add, BitVec.toNat_ofNat]
  omega

/-- The word of a command whose argument and opcode are given as bytes (R80). -/
theorem encode_of_fields {i : Instr} {a op : Byte} (ha : argument i = a.toNat) (hop : opcode i = op.toNat) :
    encode i = 0#16 ++ a ++ op := by
  rw [encode, ha, hop, BitVec.ofNat_toNat, BitVec.ofNat_toNat, BitVec.setWidth_eq, BitVec.setWidth_eq]

/-! ## Decoding -/

/-- Every branch of the decoder that answers a command has tested RSV and OP, and ARG where the command has no
argument. -/
theorem decode_ok_fields {w : Word} {i : Instr} (h : decode w = .ok i) :
    rsvField w = 0 ∧ (argField w).toNat = argument i ∧ (opField w).toNat = opcode i := by
  unfold decode at h
  split_ifs at h
  all_goals cases h
  all_goals simp_all [argument, opcode]

/-- The decoder answers every command whose fields the word holds. -/
theorem decode_of_fields {w : Word} {i : Instr} (hrsv : rsvField w = 0) (harg : (argField w).toNat = argument i)
    (hop : (opField w).toNat = opcode i) : decode w = .ok i := by
  have hop_byte : opField w = BitVec.ofNat 8 (opcode i) := by rw [← hop, BitVec.ofNat_toNat, BitVec.setWidth_eq]
  have harg_zero : argField w = 0#8 ↔ argument i = 0 := by rw [← harg, ← BitVec.toNat_inj]; rfl
  cases i <;> simp [decode, hrsv, harg, hop_byte, harg_zero, opcode, argument]

/-- R82 on the word's number: a word decodes to a command exactly if RSV is 0 and ARG and OP hold the command's
argument and opcode. -/
theorem decode_eq_ok_iff {w : Word} {i : Instr} :
    decode w = .ok i ↔ w.toNat / 65536 = 0 ∧ w.toNat / 256 % 256 = argument i ∧ w.toNat % 256 = opcode i := by
  rw [← rsvField_toNat, ← argField_toNat, ← opField_toNat]
  constructor
  · intro h
    obtain ⟨hrsv, harg, hop⟩ := decode_ok_fields h
    exact ⟨congrArg BitVec.toNat hrsv, harg, hop⟩
  · rintro ⟨hrsv, harg, hop⟩
    exact decode_of_fields (BitVec.eq_of_toNat_eq hrsv) harg hop

/-- A word that decodes to no command is Illegal: the decoder is total. -/
theorem exists_decode_error {w : Word} (h : ∀ i, decode w ≠ .ok i) : ∃ e, decode w = .error e := by
  cases hd : decode w with
  | ok i => exact absurd hd (h i)
  | error e => exact ⟨e, rfl⟩

theorem decode_encode {i : Instr} (hi : i.wellFormed = true) : decode (encode i) = .ok i := by
  have harg := (Instr.wellFormed_iff i).1 hi
  have hop := opcode_lt i
  rw [decode_eq_ok_iff, encode_toNat hi]
  omega

theorem encode_of_decode {w : Word} {i : Instr} (h : decode w = .ok i) : encode i = w := by
  obtain ⟨hrsv, harg, hop⟩ := decode_eq_ok_iff.1 h
  apply BitVec.eq_of_toNat_eq
  rw [encode_toNat (decode_wellFormed h)]
  omega

/-- Settles O1: the word's fields are the command's opcode and argument, which fit. -/
theorem decodeOfEncodeIsIdentity : Obligations.DecodeOfEncodeIsIdentity := fun _ => decode_encode

/-- Settles O2: the fields that the decoder reads are all the bits of the word. -/
theorem encodeOfDecodeIsIdentity : Obligations.EncodeOfDecodeIsIdentity :=
  fun _ _ h => ⟨encode_of_decode h, decode_wellFormed h⟩

/-- Settles O5, word by word. -/
theorem exampleWordsDecode : Obligations.ExampleWordsDecode :=
  ⟨decode_encode (i := .gfMul) rfl, decode_encode (i := .rsConfig 4) rfl, decode_encode (i := .rsEncode 5) rfl,
    decode_encode (i := .rsDecode 5) rfl, decode_encode (i := .rsSyndrome 5) rfl, rfl, rfl, rfl⟩

/-! ## The opcode map (R82) -/

theorem decode_error_of_reserved {w : Word} (h : w.toNat / 65536 ≠ 0) : ∃ e, decode w = .error e :=
  exists_decode_error fun _ hd => h (decode_eq_ok_iff.1 hd).1

theorem decode_error_of_argument {w : Word} (hop : w.toNat % 256 ∈ [0x01, 0x02, 0x03, 0x04])
    (harg : w.toNat / 256 % 256 ≠ 0) : ∃ e, decode w = .error e := by
  refine exists_decode_error fun i hd => harg ?_
  obtain ⟨-, hargi, hopi⟩ := decode_eq_ok_iff.1 hd
  rw [hargi, argument_eq_zero (hopi ▸ hop)]

theorem decode_error_of_opcode {w : Word}
    (hop : w.toNat % 256 ∉ [0x01, 0x02, 0x03, 0x04, 0x10, 0x11, 0x12, 0x13]) : ∃ e, decode w = .error e := by
  refine exists_decode_error fun i hd => hop ?_
  obtain ⟨-, -, hopi⟩ := decode_eq_ok_iff.1 hd
  rw [hopi]
  exact opcode_mem i

/-- The legal words are the words of the well-formed commands. -/
theorem exists_decode_ok_iff {w : Word} : (∃ i, decode w = .ok i) ↔ ∃ i, i.wellFormed = true ∧ w = encode i := by
  constructor
  · rintro ⟨i, h⟩
    exact ⟨i, decode_wellFormed h, (encode_of_decode h).symm⟩
  · rintro ⟨i, hi, rfl⟩
    exact ⟨i, decode_encode hi⟩

/-- The words of the well-formed commands, as R82 lists them. -/
theorem exists_encode_iff {w : Word} : (∃ i : Instr, i.wellFormed = true ∧ w = encode i) ↔
    w ∈ [0x00000001, 0x00000002, 0x00000003, 0x00000004] ∨
      ∃ kk : Byte, w ∈ [0x0000#16 ++ kk ++ 0x10#8, 0x0000#16 ++ kk ++ 0x11#8,
        0x0000#16 ++ kk ++ 0x12#8, 0x0000#16 ++ kk ++ 0x13#8] := by
  constructor
  · rintro ⟨i, -, rfl⟩
    cases i with
    | gfMul => exact .inl (by decide)
    | gfDiv => exact .inl (by decide)
    | gfPow => exact .inl (by decide)
    | gfInv => exact .inl (by decide)
    | rsConfig t => exact .inr ⟨BitVec.ofNat 8 t, by simp [encode, argument, opcode]⟩
    | rsEncode k => exact .inr ⟨BitVec.ofNat 8 k, by simp [encode, argument, opcode]⟩
    | rsSyndrome k => exact .inr ⟨BitVec.ofNat 8 k, by simp [encode, argument, opcode]⟩
    | rsDecode k => exact .inr ⟨BitVec.ofNat 8 k, by simp [encode, argument, opcode]⟩
  · simp only [List.mem_cons, List.not_mem_nil, or_false]
    rintro ((rfl | rfl | rfl | rfl) | ⟨kk, h⟩)
    · exact ⟨.gfMul, rfl, rfl⟩
    · exact ⟨.gfDiv, rfl, rfl⟩
    · exact ⟨.gfPow, rfl, rfl⟩
    · exact ⟨.gfInv, rfl, rfl⟩
    · have hkk : kk.toNat ≤ 255 := Nat.le_of_lt_succ kk.isLt
      rcases h with rfl | rfl | rfl | rfl
      · exact ⟨.rsConfig kk.toNat, (Instr.wellFormed_iff _).2 hkk, (encode_of_fields rfl rfl).symm⟩
      · exact ⟨.rsEncode kk.toNat, (Instr.wellFormed_iff _).2 hkk, (encode_of_fields rfl rfl).symm⟩
      · exact ⟨.rsSyndrome kk.toNat, (Instr.wellFormed_iff _).2 hkk, (encode_of_fields rfl rfl).symm⟩
      · exact ⟨.rsDecode kk.toNat, (Instr.wellFormed_iff _).2 hkk, (encode_of_fields rfl rfl).symm⟩

/-- A pending Illegal word completes with ILLEGAL_CMD (R192). -/
theorem engineTurn_of_illegal {s : State} {p : Pending} {e : DecodeError} (hb : s.busy = true)
    (hp : s.pending = some p) (he : decode p.word = .error e) : engineTurn s = .next (completeIllegal s) := by
  rw [engineTurn_of_pending hb hp, he]

/-- Settles O3: each clause says what the fields of the word are. -/
theorem decodingFollowsTheOpcodeMap : Obligations.DecodingFollowsTheOpcodeMap := by
  refine ⟨fun w => ⟨decode_error_of_reserved, fun _ => decode_error_of_argument, ?_, ?_,
    fun _ => decode_error_of_opcode⟩, fun w => exists_decode_ok_iff.trans exists_encode_iff,
    fun s p e hb hp he => ⟨_, engineTurn_of_illegal hb hp he, rfl⟩⟩
  · intro hrsv harg
    have decodes (i : Instr) (hi : argument i = 0) (hop : w.toNat % 256 = opcode i) : decode w = .ok i :=
      decode_eq_ok_iff.2 ⟨hrsv, harg.trans hi.symm, hop⟩
    exact ⟨decodes .gfMul rfl, decodes .gfDiv rfl, decodes .gfPow rfl, decodes .gfInv rfl⟩
  · intro hrsv
    have decodes (i : Instr) (harg : w.toNat / 256 % 256 = argument i) (hop : w.toNat % 256 = opcode i) :
        decode w = .ok i :=
      decode_eq_ok_iff.2 ⟨hrsv, harg, hop⟩
    exact ⟨decodes (.rsConfig _) rfl, decodes (.rsEncode _) rfl, decodes (.rsSyndrome _) rfl,
      decodes (.rsDecode _) rfl⟩

/-! ## The rows of the opcode table (R83) -/

/-- The row of a field command compares the whole word. -/
theorem decode_field_row {w : Word} (i : Instr) (hi : i.wellFormed = true) :
    decode w = .ok i ↔ w &&& 0xFFFFFFFF = encode i := by
  have hmask : w &&& 0xFFFFFFFF = w := BitVec.and_allOnes
  rw [hmask]
  constructor
  · exact fun h => (encode_of_decode h).symm
  · rintro rfl
    exact decode_encode hi

/-- The mask of the codec rows clears ARG and keeps RSV and OP. -/
theorem and_codec_mask (w : Word) : w &&& 0xFFFF00FF = rsvField w ++ 0#8 ++ opField w := by
  have hmask : (0xFFFF00FF : Word) = BitVec.allOnes 16 ++ 0#8 ++ BitVec.allOnes 8 := by decide
  calc w &&& 0xFFFF00FF
      = (rsvField w ++ argField w ++ opField w) &&& (BitVec.allOnes 16 ++ 0#8 ++ BitVec.allOnes 8) := by
        rw [rsvField_append_argField_append_opField, hmask]
    _ = rsvField w ++ 0#8 ++ opField w := by
        rw [BitVec.and_append, BitVec.and_append, BitVec.and_allOnes, BitVec.and_zero, BitVec.and_allOnes]

/-- The row of a codec command leaves the argument free. -/
theorem decode_codec_row {w : Word} {c : Nat → Instr} {op : Word} (harg : ∀ t, argument (c t) = t)
    (hop : ∀ t, opcode (c t) = op.toNat) : (∃ t, decode w = .ok (c t)) ↔ w &&& 0xFFFF00FF = op := by
  have hlt : op.toNat < 256 := hop 0 ▸ opcode_lt (c 0)
  simp only [decode_eq_ok_iff, harg, hop]
  rw [and_codec_mask, ← BitVec.toNat_inj, toNat_append_add, toNat_append_add, rsvField_toNat, opField_toNat]
  simp only [BitVec.toNat_ofNat]
  constructor
  · rintro ⟨t, hrsv, -, hw⟩
    omega
  · intro h
    exact ⟨w.toNat / 256 % 256, by omega, rfl, by omega⟩

/-- A row that compares the whole of OP, and whose match is an opcode, matches only words with that OP. -/
theorem low_byte_of_row {w mask op : Word} (hmask : mask &&& 0xFF = 0xFF) (hop : op &&& 0xFF = op)
    (h : w &&& mask = op) : w &&& 0xFF = op := by
  rw [← hmask, ← BitVec.and_assoc, h, hop]

/-- Settles O4: the field rows compare the word, the codec rows leave ARG free, and every row compares OP. -/
theorem rowsMatchAndDoNotOverlap : Obligations.RowsMatchAndDoNotOverlap := by
  constructor
  · intro w
    exact ⟨decode_field_row .gfMul rfl, decode_field_row .gfDiv rfl, decode_field_row .gfPow rfl,
      decode_field_row .gfInv rfl, decode_codec_row (fun _ => rfl) fun _ => rfl,
      decode_codec_row (fun _ => rfl) fun _ => rfl, decode_codec_row (fun _ => rfl) fun _ => rfl,
      decode_codec_row (fun _ => rfl) fun _ => rfl⟩
  · intro w i j rows hi hj
    have hmask : ∀ k : Fin 8, rows[k].2 &&& 0xFF = 0xFF := by decide
    have hop : ∀ k : Fin 8, rows[k].1 &&& 0xFF = rows[k].1 := by decide
    have hinj : ∀ i j : Fin 8, rows[i].1 = rows[j].1 → i = j := by decide
    apply hinj
    rw [← low_byte_of_row (hmask i) (hop i) hi, low_byte_of_row (hmask j) (hop j) hj]

/-! ## The engine's step -/

/-- The engine's turn runs the command that the pending word decodes to (R196). -/
theorem engineTurn_of_command {s : State} {p : Pending} {i : Instr} (hb : s.busy = true)
    (hp : s.pending = some p) (hi : decode p.word = .ok i) : engineTurn s = exec i s := by
  rw [engineTurn_of_pending hb hp, hi]

/-- Once the schedule has run out, the engine moves while a command is pending. -/
theorem step_of_no_turns {s : State} (hb : s.busy = true) (ht : s.turns = []) : step s = engineTurn s := by
  simp only [step, schedule, ht, defaultTurn, hb, if_true, takeTurn]

theorem step_of_engine_turn {s : State} {ts : List Turn} (ht : s.turns = .engine :: ts) :
    step s = engineTurn { s with turns := ts } := by
  simp only [step, schedule, ht, takeTurn]

/-- A placed command is run by the very next step. -/
theorem step_placeCommand (s : State) {w : Word} {i : Instr} (hi : decode w = .ok i) :
    step (placeCommand s w) = exec i (s.start w) :=
  (step_of_engine_turn rfl).trans (engineTurn_of_command (s := s.start w) rfl rfl hi)

/-- What the table's numbering decodes is what the word of those bits decodes to. -/
theorem decode_of_decodeTableWord {w : Nat} {i : Instr} (h : decodeTableWord 32 w = some i) :
    decode (tableWord 32 w) = .ok i := by
  rw [decodeTableWord, if_neg (by decide), decodeBytes_bytesOfWord] at h
  split at h
  · next hd => rw [hd, Option.some.inj h]
  · cases h

theorem tableWord_32 (w : Nat) : tableWord 32 w = BitVec.ofNat 32 w :=
  BitVec.eq_of_toNat_eq (by simp [tableWord])

/-- Settles O19: in each case the step is the engine's turn. -/
theorem stepRunsThePendingCommand : Obligations.StepRunsThePendingCommand := by
  refine ⟨fun s p i hb hp hi => ⟨fun ht => ?_, fun ts ht => ?_⟩, fun s w i => step_placeCommand s, fun s w i h => ?_⟩
  · rw [step_of_no_turns hb ht, engineTurn_of_command hb hp hi]
  · rw [step_of_engine_turn ht, engineTurn_of_command (s := { s with turns := ts }) hb hp hi]
  · rw [State.withFetchWord, step_placeCommand s (decode_of_decodeTableWord h), tableWord_32]

/-! ## The waiting host (R87) -/

/-- A read of STATUS hands its word to the host and changes nothing else. -/
theorem hostRead_status (s : State) :
    hostRead s statusOffset = { s with log := s.log ++ [(0x0010, statusWord s)] } := by
  have hreg : regAt statusOffset = .status := by decide
  rw [hostRead, hreg, readReg]
  rfl

theorem hostTurn_poll {s : State} {rest : List HostOp} (hp : s.program = .poll :: rest) :
    hostTurn s = if s.busy then .next (hostRead s statusOffset)
      else .next { hostRead s statusOffset with program := rest } := by
  simp only [hostTurn, hp]

theorem hostTurn_waitIrq {s : State} {rest : List HostOp} (hp : s.program = .waitIrq :: rest) :
    hostTurn s = if s.irq then .next { hostRead s statusOffset with program := rest } else .next s := by
  simp only [hostTurn, hp]

/-- Settles O20: the turn of either wait, with BUSY and IRQ 0 and 1. -/
theorem pollAndWaitIrqSynchronise : Obligations.PollAndWaitIrqSynchronise := by
  intro s rest
  refine ⟨fun hp hb => ?_, fun hp hb => ?_, fun hp hirq => ?_, fun hp hirq => ?_⟩
  · rw [hostTurn_poll hp, if_pos hb, hostRead_status]
  · rw [hostTurn_poll hp, if_neg (Bool.eq_false_iff.1 hb), hostRead_status]
  · rw [hostTurn_waitIrq hp, if_neg (Bool.eq_false_iff.1 hirq)]
  · rw [hostTurn_waitIrq hp, if_pos hirq, hostRead_status]

end Sys2Proof

end

/-! SUPPORT. The field of 256 elements on the tables (R97 to R104): powers of 2 with integer exponents, the laws of
gmul read off them, and multiplication as the reduced carry-less product (R101). -/

section

namespace Sys2Proof.Machine

/-! ## The tables as a logarithm -/

/-- The exponent table reads its index modulo 255. -/
theorem expTable_congr {i j : Nat} (h : i % 255 = j % 255) : expTable i = expTable j := by
  rw [← expTable_mod i, h, expTable_mod]

theorem logTable_expTable_mod (i : Nat) : logTable (expTable i) = i % 255 := by
  rw [← expTable_mod, logTable_expTable (Nat.mod_lt i (by decide))]

/-- R100: the logarithm of a non-zero element is the exponent that gives it. -/
theorem expTable_logTable {v : Byte} (hv : v ≠ 0) : expTable (logTable v) = v := by
  have h : ∀ n, n < 256 → n ≠ 0 → expTable (logTable (BitVec.ofNat 8 n)) = BitVec.ofNat 8 n := by decide +kernel
  have := h v.toNat v.isLt (fun h0 => hv (BitVec.eq_of_toNat_eq h0))
  rwa [BitVec.ofNat_toNat, BitVec.setWidth_eq] at this

@[simp] theorem logTable_one : logTable 1#8 = 0 := logTable_expTable (i := 0) (by decide)

/-- The doubling of R98 leads from each entry to the next, over the period's end too. -/
theorem xtime_expTable (i : Nat) : xtime (expTable i) = expTable (i + 1) := by
  have hwrap : xtime (expTable 254) = expTable 255 := by decide +kernel
  have hi : i % 255 < 255 := Nat.mod_lt i (by decide)
  rw [← expTable_mod i]
  rcases Nat.lt_or_ge (i % 255) 254 with h | h
  · rw [← expTable_succ h]
    exact expTable_congr (by omega)
  · rw [show i % 255 = 254 by omega, hwrap]
    exact expTable_congr (by omega)

/-! ## Powers of 2 -/

/-- The power of 2 with an integer exponent: the entry of the exponent table at the exponent modulo 255. -/
def expInt (n : Int) : Byte := expTable (n % 255).toNat

@[simp] theorem expInt_natCast (i : Nat) : expInt i = expTable i := by
  rw [← expTable_mod i]
  rfl

theorem expInt_congr {n k : Int} (h : n % 255 = k % 255) : expInt n = expInt k := by
  rw [expInt, h, expInt]

theorem expInt_ne_zero (n : Int) : expInt n ≠ 0 := expTable_ne_zero _

@[simp] theorem expInt_zero : expInt 0 = 1 := rfl

theorem expInt_logTable {x : Byte} (hx : x ≠ 0) : expInt (logTable x) = x := by
  rw [expInt_natCast, expTable_logTable hx]

theorem logTable_expInt (n : Int) : (logTable (expInt n) : Int) = n % 255 := by
  rw [expInt, logTable_expTable_mod]
  omega

/-- Every non-zero element is a power of 2. -/
theorem exists_eq_expInt {x : Byte} (hx : x ≠ 0) : ∃ n, x = expInt n := ⟨_, (expInt_logTable hx).symm⟩

theorem xtime_expInt (n : Int) : xtime (expInt n) = expInt (n + 1) := by
  rw [expInt, xtime_expTable, ← expInt_natCast]
  exact expInt_congr (by omega)

/-! ## The product (R101) -/

theorem gmul_of_eq_zero {x y : Byte} (h : x = 0 ∨ y = 0) : gmul x y = 0 := if_pos h

@[simp] theorem gmul_zero (x : Byte) : gmul x 0#8 = 0#8 := gmul_of_eq_zero (.inr rfl)

@[simp] theorem zero_gmul (x : Byte) : gmul 0#8 x = 0#8 := gmul_of_eq_zero (.inl rfl)

theorem gmul_of_ne_zero {x y : Byte} (hx : x ≠ 0) (hy : y ≠ 0) :
    gmul x y = expTable (logTable x + logTable y) :=
  if_neg (not_or.2 ⟨hx, hy⟩)

/-- Powers of 2 multiply by adding their exponents. -/
theorem gmul_expInt (n k : Int) : gmul (expInt n) (expInt k) = expInt (n + k) := by
  have hn := logTable_expInt n
  have hk := logTable_expInt k
  rw [gmul_of_ne_zero (expInt_ne_zero n) (expInt_ne_zero k), ← expInt_natCast]
  exact expInt_congr (by omega)

theorem gmul_comm (x y : Byte) : gmul x y = gmul y x := by
  simp only [gmul, or_comm, Nat.add_comm]

@[simp] theorem gmul_one (x : Byte) : gmul x 1#8 = x := by
  by_cases hx : x = 0
  · simp [hx]
  · rw [gmul_of_ne_zero hx (by decide), logTable_one, Nat.add_zero, expTable_logTable hx]

@[simp] theorem one_gmul (x : Byte) : gmul 1#8 x = x := by rw [gmul_comm, gmul_one]

theorem gmul_assoc (x y z : Byte) : gmul (gmul x y) z = gmul x (gmul y z) := by
  by_cases hx : x = 0
  · simp [hx]
  by_cases hy : y = 0
  · simp [hy]
  by_cases hz : z = 0
  · simp [hz]
  obtain ⟨a, rfl⟩ := exists_eq_expInt hx
  obtain ⟨b, rfl⟩ := exists_eq_expInt hy
  obtain ⟨c, rfl⟩ := exists_eq_expInt hz
  simp only [gmul_expInt, Int.add_assoc]

theorem gmul_ne_zero {x y : Byte} (hx : x ≠ 0) (hy : y ≠ 0) : gmul x y ≠ 0 := by
  rw [gmul_of_ne_zero hx hy]
  exact expTable_ne_zero _

@[simp] theorem gmul_eq_zero {x y : Byte} : gmul x y = 0#8 ↔ x = 0#8 ∨ y = 0#8 := by
  refine ⟨fun h => ?_, gmul_of_eq_zero⟩
  by_contra hne
  obtain ⟨hx, hy⟩ := not_or.1 hne
  exact gmul_ne_zero hx hy h

/-- Multiplication by 2 is the doubling of R98. -/
theorem two_gmul (x : Byte) : gmul 2 x = xtime x := by
  by_cases hx : x = 0
  · subst hx
    decide
  · obtain ⟨n, rfl⟩ := exists_eq_expInt hx
    rw [xtime_expInt, show (2 : Byte) = expInt 1 from rfl, gmul_expInt, Int.add_comm]

/-! ## Maps that respect exclusive-or -/

/-- The map respects field addition (R97), on values of any width. -/
def RespectsXor {w v : Nat} (f : BitVec w → BitVec v) : Prop := ∀ a b, f (a ^^^ b) = f a ^^^ f b

theorem RespectsXor.map_zero {w v : Nat} {f : BitVec w → BitVec v} (hf : RespectsXor f) : f 0 = 0 := by
  have h := hf 0 0
  rwa [BitVec.xor_self, BitVec.xor_self] at h

theorem RespectsXor.comp {w v u : Nat} {g : BitVec v → BitVec u} {f : BitVec w → BitVec v} (hg : RespectsXor g)
    (hf : RespectsXor f) : RespectsXor fun a => g (f a) := fun a b =>
  (congrArg g (hf a b)).trans (hg (f a) (f b))

theorem respectsXor_setWidth {w : Nat} (v : Nat) : RespectsXor fun a : BitVec w => a.setWidth v :=
  fun _ _ => BitVec.setWidth_xor

theorem respectsXor_shiftLeft {w : Nat} (i : Nat) : RespectsXor fun a : BitVec w => a <<< i :=
  fun a b => BitVec.shiftLeft_xor_distrib a b i

/-- One step of a reduction: c is added if bit n is set. -/
def reduceBit {w : Nat} (n : Nat) (c v : BitVec w) : BitVec w := if v.getLsbD n then v ^^^ c else v

theorem respectsXor_reduceBit {w : Nat} (n : Nat) (c : BitVec w) : RespectsXor (reduceBit n c) := by
  intro a b
  simp only [reduceBit, BitVec.getLsbD_xor]
  cases a.getLsbD n <;> cases b.getLsbD n
  · rfl
  · exact BitVec.xor_assoc a b c
  · change a ^^^ b ^^^ c = a ^^^ c ^^^ b
    ac_rfl
  · calc a ^^^ b
        = a ^^^ b ^^^ (c ^^^ c) := by rw [BitVec.xor_self, BitVec.xor_zero]
      _ = a ^^^ c ^^^ (b ^^^ c) := by ac_rfl

theorem respectsXor_xtime : RespectsXor xtime := by
  have h : xtime = fun v : Byte => (reduceBit 8 0x11D#9 (v.setWidth 9 <<< 1)).setWidth 8 := by
    funext v
    simp only [xtime, reduceBit, apply_ite (BitVec.setWidth 8)]
  rw [h]
  exact (respectsXor_setWidth 8).comp
    ((respectsXor_reduceBit 8 0x11D#9).comp ((respectsXor_shiftLeft 1).comp (respectsXor_setWidth 9)))

theorem respectsXor_foldl {w : Nat} {f : BitVec w → Nat → BitVec w} (hf : ∀ i, RespectsXor fun a => f a i)
    (l : List Nat) : RespectsXor fun a => l.foldl f a := by
  induction l with
  | nil => exact fun _ _ => rfl
  | cons i l ih => exact ih.comp (hf i)

theorem respectsXor_reduceByPrim : RespectsXor reduceByPrim :=
  (respectsXor_setWidth 8).comp
    (respectsXor_foldl (f := fun a i => reduceBit (14 - i) (0x11D#16 <<< (6 - i)) a)
      (fun i => respectsXor_reduceBit (14 - i) _) (List.range 7))

/-- Multiplication by a power of 2 is repeated doubling, and each doubling respects exclusive-or. -/
theorem respectsXor_expTable_gmul (i : Nat) : RespectsXor (gmul (expTable i)) := by
  induction i with
  | zero =>
    intro a b
    simp only [show expTable 0 = 1#8 from rfl, one_gmul]
  | succ i ih =>
    have h : gmul (expTable (i + 1)) = fun a => xtime (gmul (expTable i) a) := by
      funext a
      rw [← xtime_expTable, ← two_gmul, ← two_gmul, gmul_assoc]
    rw [h]
    exact respectsXor_xtime.comp ih

/-- Multiplication distributes over field addition (R101). -/
theorem gmul_xor (x y z : Byte) : gmul x (y ^^^ z) = gmul x y ^^^ gmul x z := by
  by_cases hx : x = 0
  · simp [hx]
  · rw [← expTable_logTable hx]
    exact respectsXor_expTable_gmul _ y z

theorem xor_gmul (x y z : Byte) : gmul (x ^^^ y) z = gmul x z ^^^ gmul y z := by
  rw [gmul_comm, gmul_xor, gmul_comm z, gmul_comm z]

/-! ## The carry-less product -/

/-- The sum of the terms t i over the bits i that are set in x. -/
def sumOverBits {w : Nat} (x : Byte) (t : Nat → BitVec w) : BitVec w :=
  (List.range 8).foldl (fun acc i => if x.getLsbD i then acc ^^^ t i else acc) 0

theorem RespectsXor.map_sumOverBits {w v : Nat} {f : BitVec w → BitVec v} (hf : RespectsXor f) (x : Byte)
    (t : Nat → BitVec w) : f (sumOverBits x t) = sumOverBits x fun i => f (t i) := by
  unfold sumOverBits
  conv_rhs => rw [← hf.map_zero]
  refine (List.foldl_hom f fun a i => ?_).symm
  rw [apply_ite f, hf]

theorem sumOverBits_congr {w : Nat} (x : Byte) {t u : Nat → BitVec w} (h : ∀ i, i < 8 → t i = u i) :
    sumOverBits x t = sumOverBits x u := by
  refine List.foldl_ext _ _ _ fun a i hi => ?_
  rw [h i (List.mem_range.1 hi)]

/-- A byte is the sum of the powers of 2 that its bits stand for: below 2^8 no power is reduced. -/
theorem sumOverBits_expTable (x : Byte) : sumOverBits x expTable = x := by
  revert x
  decide +kernel

/-- Maps that respect exclusive-or agree if they agree on the powers of 2 below 2^8. -/
theorem RespectsXor.ext {w : Nat} {f g : Byte → BitVec w} (hf : RespectsXor f) (hg : RespectsXor g)
    (h : ∀ i, i < 8 → f (expTable i) = g (expTable i)) (x : Byte) : f x = g x := by
  rw [← sumOverBits_expTable x, hf.map_sumOverBits, hg.map_sumOverBits]
  exact sumOverBits_congr x h

/-- A shifted operand, reduced, is its product with a power of 2. -/
theorem reduceByPrim_shiftLeft {i : Nat} (hi : i < 8) (y : Byte) :
    reduceByPrim (y.setWidth 16 <<< i) = gmul (expTable i) y := by
  have hpowers : ∀ i, i < 8 → ∀ j, j < 8 →
      reduceByPrim ((expTable j).setWidth 16 <<< i) = gmul (expTable i) (expTable j) := by decide +kernel
  exact RespectsXor.ext
    (respectsXor_reduceByPrim.comp ((respectsXor_shiftLeft i).comp (respectsXor_setWidth 16)))
    (respectsXor_expTable_gmul i) (hpowers i hi) y

/-- R101: the product is the carry-less product modulo 0x11D. Both are sums over the bits of x. -/
theorem gmul_eq_reduceByPrim (x y : Byte) : gmul x y = reduceByPrim (carrylessProduct x y) :=
  calc gmul x y
      = gmul (sumOverBits x expTable) y := by rw [sumOverBits_expTable]
    _ = sumOverBits x fun i => gmul (expTable i) y :=
        RespectsXor.map_sumOverBits (f := fun a => gmul a y) (fun a b => xor_gmul a b y) x expTable
    _ = sumOverBits x fun i => reduceByPrim (y.setWidth 16 <<< i) :=
        sumOverBits_congr x fun i hi => (reduceByPrim_shiftLeft hi y).symm
    _ = reduceByPrim (carrylessProduct x y) := (respectsXor_reduceByPrim.map_sumOverBits x _).symm

/-! ## Quotient, power and inverse (R102 to R104) -/

theorem gdiv_zero (x : Byte) : gdiv x 0 = .error .divByZero := if_pos rfl

theorem gdiv_expInt (n k : Int) : gdiv (expInt n) (expInt k) = .ok (expInt (n - k)) := by
  have h : gdiv (expInt n) (expInt k) = .ok (expTable (logTable (expInt n) + 255 - logTable (expInt k))) :=
    (if_neg (expInt_ne_zero k)).trans (if_neg (expInt_ne_zero n))
  have hn := logTable_expInt n
  have hk := logTable_expInt k
  rw [h, ← expInt_natCast]
  exact congrArg Except.ok (expInt_congr (by omega))

/-- The divisor undoes what it multiplied. -/
theorem gdiv_gmul {y : Byte} (hy : y ≠ 0) (x : Byte) : gdiv (gmul x y) y = .ok x := by
  by_cases hx : x = 0
  · rw [hx, gmul_of_eq_zero (.inl rfl)]
    exact (if_neg hy).trans (if_pos rfl)
  · obtain ⟨n, rfl⟩ := exists_eq_expInt hx
    obtain ⟨k, rfl⟩ := exists_eq_expInt hy
    rw [gmul_expInt, gdiv_expInt, Int.add_sub_cancel]

/-- Every element is a multiple of a non-zero one. -/
theorem exists_gmul_eq (x : Byte) {y : Byte} (hy : y ≠ 0) : ∃ v, gmul v y = x := by
  by_cases hx : x = 0
  · exact ⟨0, by simp [hx]⟩
  · obtain ⟨n, rfl⟩ := exists_eq_expInt hx
    obtain ⟨k, rfl⟩ := exists_eq_expInt hy
    exact ⟨expInt (n - k), by rw [gmul_expInt, Int.sub_add_cancel]⟩

/-- R102: the quotient is the element whose product with the divisor is the dividend. -/
theorem gdiv_eq_ok_iff {x y v : Byte} (hy : y ≠ 0) : gdiv x y = .ok v ↔ gmul v y = x := by
  constructor
  · intro h
    obtain ⟨u, rfl⟩ := exists_gmul_eq x hy
    rw [gdiv_gmul hy] at h
    rw [Except.ok.inj h]
  · rintro rfl
    exact gdiv_gmul hy v

theorem gpow_zero_base (n : Int) : gpow 0 n = .error .logOfZero := if_pos rfl

theorem gpow_eq_expInt {x : Byte} (hx : x ≠ 0) (n : Int) : gpow x n = .ok (expInt (logTable x * n)) := if_neg hx

/-- R103: a power depends on its exponent modulo 255 only. -/
theorem gpow_emod (x : Byte) (n : Int) : gpow x (n % 255) = gpow x n := by
  by_cases hx : x = 0
  · rw [hx, gpow_zero_base, gpow_zero_base]
  · rw [gpow_eq_expInt hx, gpow_eq_expInt hx]
    exact congrArg Except.ok (expInt_congr (by rw [Int.mul_emod, Int.emod_emod, ← Int.mul_emod]))

theorem gpow_zero {x : Byte} (hx : x ≠ 0) : gpow x 0 = .ok 1 := by
  rw [gpow_eq_expInt hx, Int.mul_zero, expInt_zero]

theorem gpow_one {x : Byte} (hx : x ≠ 0) : gpow x 1 = .ok x := by
  rw [gpow_eq_expInt hx, Int.mul_one, expInt_logTable hx]

theorem one_gpow (n : Int) : gpow 1 n = .ok 1 := by
  simp [gpow_eq_expInt]

theorem ginv_zero : ginv 0 = .error .logOfZero := if_pos rfl

theorem ginv_eq_gpow (x : Byte) : ginv x = gpow x (-1) := by
  by_cases hx : x = 0
  · rw [hx, ginv_zero, gpow_zero_base]
  · have hlog := logTable_lt hx
    have h : ginv x = .ok (expTable (255 - logTable x)) := if_neg hx
    rw [h, gpow_eq_expInt hx, ← expInt_natCast]
    exact congrArg Except.ok (expInt_congr (by omega))

theorem ginv_eq_gdiv {x : Byte} (hx : x ≠ 0) : ginv x = gdiv 1 x := by
  obtain ⟨n, rfl⟩ := exists_eq_expInt hx
  have hn := logTable_expInt n
  rw [← expInt_zero, gdiv_expInt, ginv_eq_gpow, gpow_eq_expInt hx]
  exact congrArg Except.ok (expInt_congr (by omega))

/-- R104: the inverse is the element whose product with x is 1. -/
theorem ginv_eq_ok_iff {x v : Byte} (hx : x ≠ 0) : ginv x = .ok v ↔ gmul v x = 1 := by
  rw [ginv_eq_gdiv hx, gdiv_eq_ok_iff hx]

theorem exists_ginv_eq {x : Byte} (hx : x ≠ 0) : ∃ v, ginv x = .ok v ∧ gmul v x = 1 := by
  obtain ⟨v, hv⟩ := exists_gmul_eq 1 hx
  exact ⟨v, (ginv_eq_ok_iff hx).2 hv, hv⟩

/-! ## The statements of the family -/

/-- Settles O36: the table's entries and their logarithms. -/
theorem tablesAreThePowersOfTwoAndTheirLogs : Obligations.TablesAreThePowersOfTwoAndTheirLogs :=
  ⟨rfl, fun _ hi => expTable_succ hi, fun _ _ _ => expTable_congr (by omega), rfl, rfl, rfl,
    fun _ hv => ⟨Nat.le_of_lt_succ (logTable_lt hv), expTable_logTable hv⟩,
    fun i hi => ⟨expTable_ne_zero i, logTable_expTable (Nat.lt_succ_of_le hi)⟩⟩

/-- Settles O37: the laws hold for the powers of 2, and the carry-less product is the same sum over the bits. -/
theorem gmulIsMultiplicationModuloPrim : Obligations.GmulIsMultiplicationModuloPrim := by
  refine ⟨fun x y => ⟨gmul_of_eq_zero, fun hx hy => ⟨gmul_of_ne_zero hx hy, ?_⟩⟩, fun x => ⟨gmul_one x, gmul_zero x⟩,
    gmul_comm, gmul_assoc, gmul_xor, gmul_eq_reduceByPrim⟩
  have hlx := logTable_lt hx
  have hly := logTable_lt hy
  omega

/-- Settles O38: the quotient is the element whose product with the divisor is the dividend. -/
theorem divisionUndoesMultiplication : Obligations.DivisionUndoesMultiplication :=
  ⟨fun x _ hy => gdiv_gmul hy x, gdiv_zero, fun x hx => ⟨ginv_eq_gdiv hx, ginv_eq_gpow x⟩, ginv_zero⟩

/-- Settles O39: a power of x is the power of 2 whose exponent is a multiple of the logarithm of x. -/
theorem powersFollowTheExponentLaws : Obligations.PowersFollowTheExponentLaws := by
  refine ⟨fun x hx n k => ⟨_, _, gpow_eq_expInt hx n, gpow_eq_expInt hx k, ?_⟩,
    fun x hx => ⟨gpow_zero hx, gpow_one hx⟩, fun x n => (gpow_emod x n).symm,
    fun n => ⟨gpow_zero_base n, one_gpow n⟩⟩
  rw [gpow_eq_expInt hx, gmul_expInt, Int.mul_add]

end Sys2Proof.Machine

end
/-! SUPPORT. The field commands (R106 to R109): what each completes with. -/

section

namespace Sys2Proof.Machine

/-! ## Completions -/

theorem completeField_ok (s : State) (v : Byte) : completeField s (.ok v) = { s with
    result := v, busy := false, done := true, err := .ok, neras := 0, nerr := 0, pending := none } := rfl

theorem completeField_error (s : State) (e : ErrorKind) : completeField s (.error e) = { s with
    busy := false, done := true, err := e, neras := 0, nerr := 0, pending := none } := rfl

section

variable {s : State} {p : Pending} (hp : s.pending = some p)

include hp

theorem exec_gfMul : exec .gfMul s = .next (completeField s (.ok (gmul p.opa p.opb))) := withPending_some hp _

theorem exec_gfDiv : exec .gfDiv s = .next (completeField s (gdiv p.opa p.opb)) := withPending_some hp _

theorem exec_gfPow : exec .gfPow s = .next (completeField s (gpow p.opa p.opn.toInt)) := withPending_some hp _

theorem exec_gfInv : exec .gfInv s = .next (completeField s (ginv p.opa)) := withPending_some hp _

end

/-! ## The statements -/

/-- Settles O32, from the pending command's operands. -/
theorem gfMulWritesTheProduct : Obligations.GfMulWritesTheProduct :=
  ⟨fun _ _ hp => exec_gfMul hp, decode_encode (i := .gfMul) rfl, fun x => ⟨gmul_zero x, zero_gmul x⟩,
    by decide +kernel, by decide +kernel⟩

/-- Settles O33: a non-zero divisor has the one quotient. -/
theorem gfDivWritesTheQuotient : Obligations.GfDivWritesTheQuotient := by
  refine ⟨fun s p hp => ⟨fun hy => ?_, fun hy => ?_⟩, decode_encode (i := .gfDiv) rfl, rfl, fun x hx => ⟨?_, ?_⟩, ?_⟩
  · rw [exec_gfDiv hp, hy, gdiv_zero, completeField_error]
  · obtain ⟨v, hv⟩ := exists_gmul_eq p.opa hy
    have hdiv : gdiv p.opa p.opb = .ok v := (gdiv_eq_ok_iff hy).2 hv
    exact ⟨v, hdiv, hv, by rw [exec_gfDiv hp, hdiv, completeField_ok]⟩
  · exact (gdiv_eq_ok_iff hx).2 (zero_gmul x)
  · exact (gdiv_eq_ok_iff hx).2 (one_gmul x)
  · exact (gdiv_eq_ok_iff (by decide)).2 (by decide +kernel)

/-- Settles O34: the exponents of the corner cases are read modulo 255. -/
theorem gfPowWritesThePower : Obligations.GfPowWritesThePower := by
  refine ⟨fun s p hp => ⟨fun hx => ?_, fun hx => ?_⟩, decode_encode (i := .gfPow) rfl, rfl,
    fun x hx => ⟨gpow_zero hx, ?_, ?_⟩, ?_, ?_⟩
  · rw [exec_gfPow hp, hx, gpow_zero_base, completeField_error]
  · rw [exec_gfPow hp, gpow_eq_expInt hx, completeField_ok, expInt]
  · rw [ginv_eq_gpow, show (0xFFFF#16).toInt = -1 from rfl]
  · rw [← gpow_emod, show (0x8000#16).toInt % 255 = 127 from rfl]
  · rw [gpow_eq_expInt (by decide)]
    decide +kernel
  · rw [gpow_eq_expInt (by decide)]
    decide +kernel

/-- Settles O35: a non-zero operand has the one inverse. -/
theorem gfInvWritesTheInverse : Obligations.GfInvWritesTheInverse := by
  have htwo : gmul 2 142 = 1 := by decide +kernel
  refine ⟨fun s p hp => ⟨fun hx => ?_, fun hx => ?_⟩, decode_encode (i := .gfInv) rfl, rfl, ?_, ?_, htwo⟩
  · rw [exec_gfInv hp, hx, ginv_zero, completeField_error]
  · obtain ⟨v, hinv, hv⟩ := exists_ginv_eq hx
    exact ⟨v, hinv, by rw [gmul_comm, hv], by rw [exec_gfInv hp, hinv, completeField_ok]⟩
  · exact (ginv_eq_ok_iff (by decide)).2 (gmul_one 1)
  · exact (ginv_eq_ok_iff (by decide)).2 (by rw [gmul_comm, htwo])

end Sys2Proof.Machine

end

/-! SUPPORT. The Berlekamp-Massey pass (R167, R168): it never fails, and what its locator looks like. -/

section

namespace Sys2Proof.Machine

/-! ## The last coefficient of sums and multiples -/

@[simp] theorem pscale_concat (p : Poly) (c k : Byte) : pscale (p ++ [c]) k = pscale p k ++ [gmul c k] := by
  simp [pscale]

/-- Sums are aligned at the constant term (R131). -/
theorem padd_concat (a b : Poly) (u v : Byte) : padd (a ++ [u]) (b ++ [v]) = padd a b ++ [u ^^^ v] := by
  simp only [padd, List.length_append, List.length_singleton, Nat.add_sub_add_right, ← List.append_assoc]
  rw [List.zipWith_append (by simp; omega)]
  rfl

/-! ## normalise (R168) -/

theorem normalise_getLast? (p : Poly) : (normalise p).getLast? = p.getLast? := by
  induction p with
  | nil => rfl
  | cons c p ih =>
    cases p with
    | nil => rfl
    | cons d p =>
      simp only [normalise]
      split
      · rw [ih, List.getLast?_cons_cons]
      · rfl

theorem normalise_length_le (p : Poly) : (normalise p).length ≤ p.length := by
  induction p with
  | nil => exact Nat.le_refl _
  | cons c p ih =>
    cases p with
    | nil => exact Nat.le_refl _
    | cons d p =>
      simp only [normalise]
      split
      · exact Nat.le_succ_of_le ih
      · exact Nat.le_refl _

/-- A normalised sequence has no leading zero, unless it has one coefficient only. -/
theorem normalise_head? {p : Poly} (hp : p ≠ []) : (normalise p).length = 1 ∨ (normalise p).head? ≠ some 0 := by
  induction p with
  | nil => exact absurd rfl hp
  | cons c p ih =>
    cases p with
    | nil => exact .inl rfl
    | cons d p =>
      simp only [normalise]
      split
      · exact ih (by simp)
      · next hc => exact .inr fun h => hc (Option.some.inj h)

/-! ## The iterations (R167) -/

/-- Without a discrepancy the locator stays. -/
theorem bmStep_of_eq_zero {f : List Byte} {loc : Poly} {i : Nat} (hd : discrepancy f loc i = 0) (aux : Poly) :
    bmStep f (loc, aux) i = .ok (loc, aux ++ [0]) :=
  if_pos hd

/-- A locator shorter than the shifted auxiliary polynomial is exchanged with it, scaled by the inverse of d. -/
theorem bmStep_of_lt {f : List Byte} {loc aux : Poly} {i : Nat} {d di : Byte} (hd : discrepancy f loc i = d)
    (h0 : d ≠ 0) (hlt : loc.length < (aux ++ [0]).length) (hdi : ginv d = .ok di) :
    bmStep f (loc, aux) i = .ok (padd (pscale (aux ++ [0]) d) (pscale (pscale loc di) d), pscale loc di) := by
  simp only [bmStep, hd, if_neg h0, if_pos hlt, hdi]

theorem bmStep_of_ge {f : List Byte} {loc aux : Poly} {i : Nat} {d : Byte} (hd : discrepancy f loc i = d)
    (h0 : d ≠ 0) (hge : ¬ loc.length < (aux ++ [0]).length) :
    bmStep f (loc, aux) i = .ok (padd loc (pscale (aux ++ [0]) d), aux ++ [0]) := by
  simp only [bmStep, hd, if_neg h0, if_neg hge]

/-- What the locator and the auxiliary polynomial are after r iterations: the locator has constant term 1, and
neither has more than r + 1 coefficients. -/
structure LocatorInv (r : Nat) (loc aux : Poly) : Prop where
  constant_term : loc.getLast? = some 1
  locator_length : loc.length ≤ r + 1
  aux_length : aux.length ≤ r + 1

/-- Each iteration keeps the constant term, for what it adds ends in 0: a multiple of the shifted auxiliary
polynomial. Where the two are exchanged, the locator is scaled by the inverse of d and by d again. -/
theorem bmStep_inv (f : List Byte) (i : Nat) {r : Nat} {loc aux : Poly} (h : LocatorInv r loc aux) :
    ∃ loc' aux', bmStep f (loc, aux) i = .ok (loc', aux') ∧ LocatorInv (r + 1) loc' aux' := by
  obtain ⟨hconst, hloc, haux⟩ := h
  have haux' : (aux ++ [0]).length ≤ r + 1 + 1 := by simpa using haux
  have hloc' : loc.length ≤ r + 1 + 1 := Nat.le_succ_of_le hloc
  obtain ⟨l, hl⟩ := List.getLast?_eq_some_iff.1 hconst
  obtain ⟨d, hd⟩ : ∃ d, discrepancy f loc i = d := ⟨_, rfl⟩
  by_cases h0 : d = 0
  · exact ⟨_, _, bmStep_of_eq_zero (hd.trans h0) aux, hconst, hloc', haux'⟩
  by_cases hlt : loc.length < (aux ++ [0]).length
  · obtain ⟨di, hdi, hmul⟩ := exists_ginv_eq h0
    refine ⟨_, _, bmStep_of_lt hd h0 hlt hdi, ?_, ?_, by simpa using hloc'⟩
    · simp [hl, padd_concat, hmul]
    · simpa only [padd_length, pscale_length] using max_le haux' hloc'
  · refine ⟨_, _, bmStep_of_ge hd h0 hlt, ?_, ?_, haux'⟩
    · simp [hl, padd_concat]
    · simpa only [padd_length, pscale_length] using max_le hloc' haux'

theorem bmLoop_cons {f : List Byte} {i : Nat} {is : List Nat} {lb lb' : Poly × Poly} (h : bmStep f lb i = .ok lb') :
    bmLoop f (i :: is) lb = bmLoop f is lb' := by
  rw [bmLoop, h]

theorem bmLoop_inv (f : List Byte) (is : List Nat) {r : Nat} {loc aux : Poly} (h : LocatorInv r loc aux) :
    ∃ loc' aux', bmLoop f is (loc, aux) = .ok (loc', aux') ∧ LocatorInv (r + is.length) loc' aux' := by
  induction is generalizing r loc aux with
  | nil => exact ⟨loc, aux, rfl, h⟩
  | cons i is ih =>
    obtain ⟨loc', aux', hstep, h'⟩ := bmStep_inv f i h
    obtain ⟨loc'', aux'', hloop, h''⟩ := ih h'
    refine ⟨loc'', aux'', (bmLoop_cons hstep).trans hloop, ?_⟩
    rw [List.length_cons, Nat.add_comm is.length, ← Nat.add_assoc]
    exact h''

/-- Settles O54: the iterations keep the constant term, and normalisation removes the leading zeros. -/
theorem locatorIsNormal : Obligations.LocatorIsNormal := by
  intro f
  obtain ⟨loc, aux, hloop, hconst, hlen, -⟩ :=
    bmLoop_inv f (List.range f.length) (r := 0) (loc := [1]) (aux := [1]) ⟨rfl, Nat.le_refl _, Nat.le_refl _⟩
  rw [List.length_range, Nat.zero_add] at hlen
  have hne : loc ≠ [] := fun h => by simp [h] at hconst
  exact ⟨normalise loc, by rw [berlekampMassey, hloop], (normalise_getLast? _).trans hconst, normalise_head? hne,
    (normalise_length_le _).trans hlen⟩

end Sys2Proof.Machine

end

/-! SUPPORT. The polynomial datapath (R130 to R140): sums, multiples and products, their values, and products with
linear factors. -/

section

namespace Sys2Proof.Machine

/-! ## Sums and multiples (R131, R132) -/

theorem zipWith_xor_zeros (a : Poly) : List.zipWith (· ^^^ ·) a (zeros a.length) = a := by
  induction a with
  | nil => rfl
  | cons c a ih => simpa [zeros, List.replicate_succ] using ih

theorem padd_comm (a b : Poly) : padd a b = padd b a := List.zipWith_comm_of_comm BitVec.xor_comm

theorem padd_zeros (a : Poly) (n : Nat) : padd a (zeros n) = zeros (n - a.length) ++ a := by
  have h : zeros (a.length - n) ++ zeros n = zeros (zeros (n - a.length) ++ a).length := by
    rw [List.length_append, zeros_length, zeros, zeros, List.replicate_append_replicate, zeros]
    congr 1
    omega
  rw [padd, zeros_length, h, zipWith_xor_zeros]

@[simp] theorem padd_nil (a : Poly) : padd a [] = a := by simpa [zeros] using padd_zeros a 0

@[simp] theorem nil_padd (b : Poly) : padd [] b = b := by rw [padd_comm, padd_nil]

theorem padd_of_length_eq {a b : Poly} (h : a.length = b.length) : padd a b = List.zipWith (· ^^^ ·) a b := by
  simp [padd, h, zeros]

/-- Sums are aligned at the constant term, so facts about a sum go from that end. -/
theorem concat_induction₂ {P : Poly → Poly → Prop} (nil_left : ∀ b, P [] b) (nil_right : ∀ a, P a [])
    (concat : ∀ a b u v, P a b → P (a ++ [u]) (b ++ [v])) (a b : Poly) : P a b := by
  induction a using List.reverseRecOn generalizing b with
  | nil => exact nil_left b
  | append_singleton a u ih =>
    cases b using List.reverseRecOn with
    | nil => exact nil_right _
    | append_singleton b v => exact concat a b u v (ih b)

theorem padd_assoc (a b c : Poly) : padd (padd a b) c = padd a (padd b c) := by
  induction a, b using concat_induction₂ generalizing c with
  | nil_left b => simp
  | nil_right a => simp
  | concat a b u v ih =>
    cases c using List.reverseRecOn with
    | nil => simp
    | append_singleton c w => simp only [padd_concat, ih, BitVec.xor_assoc]

theorem padd_padd_padd_comm (a b c d : Poly) : padd (padd a b) (padd c d) = padd (padd a c) (padd b d) := by
  rw [padd_assoc, padd_assoc, ← padd_assoc b, ← padd_assoc c, padd_comm b]

theorem padd_self (b : Poly) : padd b b = zeros b.length := by
  simp [padd, zeros, List.zipWith_self]

/-- R131: adding the same sequence again leaves the first operand, at the length of the sum. -/
theorem padd_padd_self (a b : Poly) : padd (padd a b) b = zeros (b.length - a.length) ++ a := by
  rw [padd_assoc, padd_self, padd_zeros]

theorem pscale_padd (a b : Poly) (k : Byte) : pscale (padd a b) k = padd (pscale a k) (pscale b k) := by
  induction a, b using concat_induction₂ with
  | nil_left b => simp [pscale]
  | nil_right a => simp [pscale]
  | concat a b u v ih => simp only [padd_concat, pscale_concat, ih, xor_gmul]

theorem pscale_comm (p : Poly) (k l : Byte) : pscale (pscale p k) l = pscale (pscale p l) k := by
  simp only [pscale, List.map_map, Function.comp_def, gmul_assoc, gmul_comm k l]

/-! ## Values (R133) -/

@[simp] theorem peval_nil (x : Byte) : peval [] x = 0 := rfl

@[simp] theorem peval_concat (p : Poly) (c x : Byte) : peval (p ++ [c]) x = gmul (peval p x) x ^^^ c := by
  simp [peval, List.foldl_append]

theorem zeros_succ (n : Nat) : zeros (n + 1) = zeros n ++ [0] := List.replicate_succ'

@[simp] theorem peval_zeros (n : Nat) (x : Byte) : peval (zeros n) x = 0 := by
  induction n with
  | zero => rfl
  | succ n ih => simp [zeros_succ, ih]

theorem peval_pscale (p : Poly) (k x : Byte) : peval (pscale p k) x = gmul (peval p x) k := by
  induction p using List.reverseRecOn with
  | nil => simp [pscale]
  | append_singleton p c ih =>
    rw [pscale_concat, peval_concat, peval_concat, ih, xor_gmul, gmul_assoc, gmul_assoc, gmul_comm k]

theorem peval_padd (a b : Poly) (x : Byte) : peval (padd a b) x = peval a x ^^^ peval b x := by
  induction a, b using concat_induction₂ with
  | nil_left b => simp
  | nil_right a => simp
  | concat a b u v ih =>
    rw [padd_concat, peval_concat, peval_concat, peval_concat, ih, xor_gmul]
    ac_rfl

/-- The polynomial x^n. -/
def monomial (n : Nat) : Poly := 1 :: zeros n

theorem monomial_succ (n : Nat) : monomial (n + 1) = monomial n ++ [0] := by
  rw [monomial, zeros_succ]
  rfl

/-- The first part of a sequence counts with the power of x that the second part's length gives. -/
theorem peval_append (p q : Poly) (x : Byte) :
    peval (p ++ q) x = gmul (peval p x) (peval (monomial q.length) x) ^^^ peval q x := by
  induction q using List.reverseRecOn with
  | nil => simp [monomial, zeros, peval]
  | append_singleton q c ih =>
    rw [← List.append_assoc, peval_concat, ih, xor_gmul, List.length_append, List.length_singleton, monomial_succ,
      peval_concat, peval_concat, gmul_assoc, BitVec.xor_assoc]
    simp

theorem peval_append_zeros (p : Poly) (n : Nat) (x : Byte) :
    peval (p ++ zeros n) x = gmul (peval p x) (peval (monomial n) x) := by
  simp [peval_append]

/-- Leading zeros do not count. -/
@[simp] theorem peval_zeros_append (n : Nat) (p : Poly) (x : Byte) : peval (zeros n ++ p) x = peval p x := by
  simp [peval_append]

@[simp] theorem peval_zero_cons (p : Poly) (x : Byte) : peval (0#8 :: p) x = peval p x := peval_zeros_append 1 p x

theorem peval_cons (c : Byte) (p : Poly) (x : Byte) :
    peval (c :: p) x = gmul c (peval (monomial p.length) x) ^^^ peval p x := by
  rw [← List.singleton_append, peval_append]
  simp [peval]

/-- The value of a linear factor. -/
@[simp] theorem peval_pair (a b x : Byte) : peval [a, b] x = gmul a x ^^^ b := by
  simp [peval]

theorem peval_at_zero (c : Byte) (p : Poly) : peval (c :: p) 0 = (c :: p).getLastD 0 := by
  obtain ⟨q, d, h⟩ : ∃ q d, c :: p = q ++ [d] := ⟨_, _, (List.dropLast_append_getLast (by simp)).symm⟩
  rw [h, peval_concat]
  simp

/-! ## Products (R134) -/

/-- A row that is not longer than the buffer is added at the high-degree end: zeros stand for what it lacks. -/
theorem xorAt_zero {buf row : Poly} (h : row.length ≤ buf.length) :
    xorAt buf 0 row = padd buf (row ++ zeros (buf.length - row.length)) := by
  rw [padd_of_length_eq (by simp; omega)]
  induction buf generalizing row with
  | nil => rfl
  | cons b buf ih =>
    cases row with
    | nil => simpa [xorAt] using (zipWith_xor_zeros (b :: buf)).symm
    | cons r row => simpa [xorAt] using ih (Nat.le_of_succ_le_succ h)

/-- The first coefficient of the left operand contributes its multiple of the right operand. -/
theorem pmul_cons (c : Byte) (a : Poly) {b : Poly} (hb : b ≠ []) :
    pmul (c :: a) b = padd (0 :: pmul a b) (pscale b c ++ zeros a.length) := by
  have hlen := pmul_length a b hb
  have hpos := List.length_pos_iff.2 hb
  rw [pmul, xorAt_zero (by simp; omega)]
  congr 3
  simp
  omega

theorem pmul_nil (a : Poly) : pmul a [] = zeros a.length := by
  induction a with
  | nil => rfl
  | cons c a ih => exact (xorAt_nil_row _ 0).trans (congrArg _ ih)

theorem peval_pmul (a b : Poly) (x : Byte) : peval (pmul a b) x = gmul (peval a x) (peval b x) := by
  by_cases hb : b = []
  · simp [hb, pmul_nil]
  induction a with
  | nil => simp [pmul]
  | cons c a ih =>
    have hc : gmul (gmul (peval b x) c) (peval (monomial a.length) x) =
        gmul (gmul c (peval (monomial a.length) x)) (peval b x) := by
      rw [gmul_assoc, gmul_comm]
    rw [pmul_cons c a hb, peval_padd, peval_append_zeros, peval_pscale, hc, peval_cons c a, xor_gmul, BitVec.xor_comm]
    simp [ih]

/-- The product of non-empty sequences starts with the product of their first coefficients. -/
theorem pmul_head? (c d : Byte) (a b : Poly) : (pmul (c :: a) (d :: b)).head? = some (gmul d c) := by
  simp [pmul, pscale, xorAt]

/-! ## Linear factors -/

/-- A product with a x + b: every coefficient contributes its multiple by a one place higher than that by b. -/
theorem pmul_pair_zipWith (l : Poly) (a b : Byte) :
    pmul l [a, b] = List.zipWith (· ^^^ ·) (pscale l a ++ [0]) (0 :: pscale l b) := by
  induction l with
  | nil => rfl
  | cons c l ih =>
    rw [pmul, ih]
    cases l <;> simp [pscale, xorAt, gmul_comm]

theorem pmul_pair (l : Poly) (a b : Byte) : pmul l [a, b] = padd (pscale l a ++ [0]) (pscale l b) := by
  rw [pmul_pair_zipWith, padd]
  simp [zeros]

/-- Linear factors can be exchanged: two of them make a sum of four multiples of l, in which the exchange swaps the
middle two. -/
theorem pmul_pair_comm (l : Poly) (a b c d : Byte) :
    pmul (pmul l [a, b]) [c, d] = pmul (pmul l [c, d]) [a, b] := by
  have hconcat : ∀ p q : Poly, padd p q ++ [0] = padd (p ++ [0]) (q ++ [0]) := fun p q => (padd_concat p q 0 0).symm
  simp only [pmul_pair, pscale_padd, hconcat, pscale_concat]
  simp only [pscale_comm l a, pscale_comm l b]
  rw [padd_padd_padd_comm]
  simp

/-- Read from the other end, a product with a x + b is the product with b x + a. -/
theorem pmul_pair_reverse (l : Poly) (a b : Byte) : (pmul l [a, b]).reverse = pmul l.reverse [b, a] := by
  rw [pmul_pair_zipWith, pmul_pair_zipWith, List.reverse_zipWith (by simp),
    List.zipWith_comm_of_comm BitVec.xor_comm]
  simp [pscale]

end Sys2Proof.Machine

end

/-! SUPPORT. Products of linear factors: the roots of the generator and of the errata locator (R137, R139), and the
Chien search (R170, R171). -/

section

namespace Sys2Proof.Machine

/-! ## Products of factors -/

/-- A product of factors is 0 at v exactly if one of the factors is. -/
theorem peval_foldl_pmul_eq_zero (f : Nat → Poly) (cs : List Nat) (v : Byte) :
    peval (cs.foldl (fun l c => pmul l (f c)) [1]) v = 0 ↔ ∃ c ∈ cs, peval (f c) v = 0 := by
  induction cs using List.reverseRecOn with
  | nil => simp [peval]
  | append_singleton cs c ih =>
    rw [List.foldl_append, List.foldl_cons, List.foldl_nil, peval_pmul]
    refine gmul_eq_zero.trans ((or_congr_left ih).trans ?_)
    simp [or_and_right, exists_or]

theorem expTable_inj {i j : Nat} (hi : i < 255) (hj : j < 255) (h : expTable i = expTable j) : i = j := by
  rw [← logTable_expTable hi, h, logTable_expTable hj]

/-- x - 2^c is 0 at 2^c only. -/
theorem peval_root_factor (c : Nat) (v : Byte) : peval [1, expTable c] v = 0 ↔ v = expTable c := by
  rw [peval_pair]
  simp [BitVec.xor_eq_zero_iff]

/-- 1 + 2^c x is 0 at the inverse of 2^c only. -/
theorem peval_locator_factor (c : Nat) (v : Byte) : peval [expTable c, 1] v = 0 ↔ gmul v (expTable c) = 1 := by
  rw [peval_pair, gmul_comm]
  simp [BitVec.xor_eq_zero_iff]

/-! ## The generator (R137) -/

theorem generator_head? (t : Nat) : (generator t).head? = some 1 := by
  induction t with
  | zero => rfl
  | succ t ih =>
    obtain ⟨g, hg⟩ := List.head?_eq_some_iff.1 ih
    rw [generator_succ, hg, pmul_head?]
    simp

theorem peval_generator_eq_zero (t : Nat) (v : Byte) :
    peval (generator t) v = 0 ↔ ∃ i, i < t ∧ v = expTable i := by
  simp only [generator, peval_foldl_pmul_eq_zero, peval_root_factor, List.mem_range]

/-! ## The errata locator (R139) -/

theorem errataLocator_concat (cs : List Nat) (c : Nat) :
    errataLocator (cs ++ [c]) = pmul (errataLocator cs) [expTable c, 1] := by
  simp [errataLocator, List.foldl_append]

theorem errataLocator_length (cs : List Nat) : (errataLocator cs).length = cs.length + 1 := by
  induction cs using List.reverseRecOn with
  | nil => rfl
  | append_singleton cs c ih =>
    rw [errataLocator_concat, pmul_length _ _ (by simp), ih]
    simp

theorem errataLocator_getLast? (cs : List Nat) : (errataLocator cs).getLast? = some 1 := by
  induction cs using List.reverseRecOn with
  | nil => rfl
  | append_singleton cs c ih =>
    obtain ⟨l, hl⟩ := List.getLast?_eq_some_iff.1 ih
    rw [errataLocator_concat, hl, pmul_pair, pscale_concat _ 1 1, padd_concat]
    simp

theorem peval_errataLocator_eq_zero (cs : List Nat) (v : Byte) :
    peval (errataLocator cs) v = 0 ↔ ∃ c, c ∈ cs ∧ gmul v (expTable c) = 1 := by
  simp only [errataLocator, peval_foldl_pmul_eq_zero, peval_locator_factor]

theorem errataLocator_perm {cs ds : List Nat} (h : cs.Perm ds) : errataLocator cs = errataLocator ds :=
  h.foldl_eq' (fun _ _ _ _ l => pmul_pair_comm l _ _ _ _) [1]

/-- Read from the other end, the locator is the product of the x - 2^c, as the Chien search uses it (R170). -/
theorem errataLocator_reverse (cs : List Nat) :
    (errataLocator cs).reverse = cs.foldl (fun l c => pmul l [1, expTable c]) [1] :=
  (List.foldl_hom List.reverse fun l c => (pmul_pair_reverse l (expTable c) 1).symm).symm

/-! ## The statements on polynomials -/

/-- Settles O40: by induction from the constant term for sums, and on the left operand for products. -/
theorem evaluationRespectsSumsAndProducts : Obligations.EvaluationRespectsSumsAndProducts :=
  ⟨peval_padd, peval_pmul, padd_padd_self, peval_at_zero⟩

/-- Settles O41: a product is 0 where a factor is. -/
theorem generatorHasExactlyTheStatedRoots : Obligations.GeneratorHasExactlyTheStatedRoots :=
  ⟨fun t _ => ⟨generator_length t, generator_head? t, peval_generator_eq_zero t⟩, fun t _ => generator_succ t,
    by decide +kernel⟩

/-- Settles O42: a product is 0 where a factor is, and linear factors can be exchanged. -/
theorem errataLocatorHasTheInverseRoots : Obligations.ErrataLocatorHasTheInverseRoots :=
  ⟨rfl, errataLocator_concat, fun cs => ⟨errataLocator_length cs, errataLocator_getLast? cs⟩,
    peval_errataLocator_eq_zero, fun _ _ => errataLocator_perm⟩

/-! ## The Chien search (R170) -/

theorem mem_chienRoots {cs : List Nat} (hcs : ∀ c ∈ cs, c < 255) (i : Nat) :
    i ∈ chienRoots (errataLocator cs) ↔ i ∈ cs := by
  have hroot : peval (errataLocator cs).reverse (expTable i) = 0 ↔ ∃ c ∈ cs, expTable i = expTable c := by
    simp only [errataLocator_reverse, peval_foldl_pmul_eq_zero, peval_root_factor]
  rw [chienRoots, List.mem_filter, List.mem_range, decide_eq_true_iff, hroot]
  constructor
  · rintro ⟨hi, c, hc, h⟩
    rwa [expTable_inj hi (hcs c hc) h]
  · exact fun hi => ⟨hcs i hi, i, hi, rfl⟩

/-- The positions come in decreasing order, whatever the locator is. -/
theorem chienPositions_pairwise (loc : Poly) (n : Nat) : (chienPositions loc n).Pairwise (· > ·) := by
  have hroots : ((chienRoots loc).filter fun i => i < n).Pairwise (· < ·) := (List.pairwise_lt_range.filter _).filter _
  refine List.pairwise_map.2 (hroots.imp_of_mem fun {i j} hi hj hij => ?_)
  have hjn : j < n := by simpa using (List.mem_filter.1 hj).2
  omega

theorem mem_chienPositions {loc : Poly} {n q : Nat} :
    q ∈ chienPositions loc n ↔ q < n ∧ n - 1 - q ∈ chienRoots loc := by
  simp only [chienPositions, List.mem_map, List.mem_filter, decide_eq_true_iff]
  constructor
  · rintro ⟨i, ⟨hi, hin⟩, rfl⟩
    exact ⟨by omega, by rwa [show n - 1 - (n - 1 - i) = i by omega]⟩
  · rintro ⟨hq, hi⟩
    exact ⟨n - 1 - q, ⟨hi, by omega⟩, by omega⟩

/-- Settles O55: the reversed locator is 0 at the locator values 2^(n-1-q), and these differ. -/
theorem chienSearchFindsTheLocatorPositions : Obligations.ChienSearchFindsTheLocatorPositions := by
  intro ps n hn hnodup hps
  have hroots : ∀ i, i ∈ chienRoots (errataLocator (ps.map fun q => n - 1 - q)) ↔ ∃ q ∈ ps, n - 1 - q = i := fun i => by
    rw [mem_chienRoots, List.mem_map]
    refine List.forall_mem_map.2 fun q hq => ?_
    have := hps q hq
    omega
  generalize errataLocator (ps.map fun q => n - 1 - q) = loc at hroots ⊢
  have hsorted := chienPositions_pairwise loc n
  refine ⟨(List.perm_ext_iff_of_nodup (hsorted.imp Nat.ne_of_gt) hnodup).2 fun q => ?_, ?_, hsorted⟩
  · rw [mem_chienPositions, hroots]
    constructor
    · rintro ⟨hq, r, hr, h⟩
      have := hps r hr
      rwa [show q = r by omega]
    · exact fun hq => ⟨hps q hq, q, hq, rfl⟩
  · refine List.any_eq_false.2 fun i hi => ?_
    obtain ⟨q, hq, rfl⟩ := (hroots i).1 hi
    have := hps q hq
    rw [decide_eq_true_iff]
    omega

end Sys2Proof.Machine

end

/-! SUPPORT. The correction (R172 to R177): on distinct errata positions no denominator is 0, and each magnitude is
added at its own position. -/

section

namespace Sys2Proof.Machine

/-! ## The evaluator (R135, R140) -/

/-- The remainder by x^k has the value of the last k coefficients, even where there are fewer. -/
theorem peval_pmodx (p : Poly) (k : Nat) (x : Byte) : peval (pmodx p k) x = peval (p.drop (p.length - k)) x := by
  unfold pmodx
  split
  · rfl
  · rw [peval_zeros_append, Nat.sub_eq_zero_of_le (by omega), List.drop_zero]

/-! ## The denominators and the magnitudes (R175, R176) -/

theorem gmul_foldl_ne_zero {xs : List Byte} (h : ∀ x ∈ xs, x ≠ 0) : xs.foldl gmul 1 ≠ 0 :=
  List.foldlRecOn xs gmul (motive := fun y => y ≠ 0) (by decide) fun _ hy _ hx => gmul_ne_zero hy (h _ hx)

theorem forneyDenominator_eq (xs : List Byte) (xinv : Byte) (l : Nat) :
    forneyDenominator xs xinv l =
      (((List.range xs.length).filter fun m => m ≠ l).map fun m => 1 ^^^ gmul (xs.getD m 0) xinv).foldl gmul 1 := by
  rw [forneyDenominator, List.foldl_map, List.foldl_filter]
  refine List.foldl_ext _ _ _ fun d m _ => ?_
  by_cases h : m = l <;> simp [h, gmul_comm]

/-- Two elements with the same inverse are equal. -/
theorem eq_of_gmul_eq_one {x y v : Byte} (hx : gmul x v = 1) (hy : gmul v y = 1) : x = y := by
  calc x = gmul x (gmul v y) := by rw [hy]; exact (gmul_one x).symm
    _ = gmul (gmul x v) y := (gmul_assoc x v y).symm
    _ = y := by rw [hx]; exact one_gmul y

section

variable {xs : List Byte} (hxs : xs.Nodup) (hne : ∀ x ∈ xs, x ≠ 0)

include hxs

/-- Where the locator values differ, no factor of a denominator is 0. -/
theorem forneyDenominator_ne_zero {l : Nat} (hl : l < xs.length) {xinv : Byte} (hinv : gmul xinv (xs.getD l 0) = 1) :
    forneyDenominator xs xinv l ≠ 0 := by
  rw [forneyDenominator_eq]
  refine gmul_foldl_ne_zero fun d hd => ?_
  obtain ⟨m, hm, rfl⟩ := List.mem_map.1 hd
  obtain ⟨hm, hml⟩ := List.mem_filter.1 hm
  have hm : m < xs.length := List.mem_range.1 hm
  intro h0
  have heq := eq_of_gmul_eq_one (BitVec.xor_eq_zero_iff.1 h0).symm hinv
  rw [List.getD_eq_getElem _ _ hm, List.getD_eq_getElem _ _ hl, hxs.getElem_inj_iff] at heq
  simp [heq] at hml

include hne

/-- The magnitude exists, and is the quotient of R175. -/
theorem exists_magnitude_eq (omega : Poly) {l : Nat} (hl : l < xs.length) :
    ∃ xinv y, ginv (xs.getD l 0) = .ok xinv ∧
      gdiv (peval omega xinv) (forneyDenominator xs xinv l) = .ok y ∧ magnitude omega xs l = .ok y := by
  have hx : xs.getD l 0 ≠ 0 := by
    rw [List.getD_eq_getElem _ _ hl]
    exact hne _ (List.getElem_mem hl)
  obtain ⟨xinv, hinv, hmul⟩ := exists_ginv_eq hx
  have hd := forneyDenominator_ne_zero hxs hl hmul
  obtain ⟨y, hy⟩ := exists_gmul_eq (peval omega xinv) hd
  have hdiv := (gdiv_eq_ok_iff hd).2 hy
  exact ⟨xinv, y, hinv, hdiv, by rw [magnitude, hinv, ← hdiv]⟩

end

theorem magnitudes_eq_map {omega : Poly} {xs : List Byte} {f : Nat → Byte} {ls : List Nat}
    (h : ∀ l ∈ ls, magnitude omega xs l = .ok (f l)) : magnitudes omega xs ls = .ok (ls.map f) := by
  induction ls with
  | nil => rfl
  | cons l ls ih =>
    obtain ⟨hl, hls⟩ := List.forall_mem_cons.1 h
    rw [magnitudes, hl, ih hls, List.map_cons]

/-! ## The correction of the word (R177) -/

theorem correct_cons (w : Poly) (p : Nat) (ps : List Nat) (y : Byte) (ys : List Byte) :
    correct w (p :: ps) (y :: ys) = correct (xorAt w p [y]) ps ys := rfl

theorem xorAt_singleton_getD_same {w : Poly} {p : Nat} (hp : p < w.length) (y : Byte) :
    (xorAt w p [y]).getD p 0 = w.getD p 0 ^^^ y := by
  rw [xorAt_getD w p [y] p hp, if_pos (Nat.le_refl p), Nat.sub_self]
  rfl

theorem xorAt_singleton_getD_other (w : Poly) {p j : Nat} (h : j ≠ p) (y : Byte) :
    (xorAt w p [y]).getD j 0 = w.getD j 0 := by
  rcases Nat.lt_or_ge j w.length with hj | hj
  · have hrow : (if p ≤ j then [y].getD (j - p) 0 else 0) = 0 :=
      ite_eq_right_iff.2 fun hle => List.getD_eq_default _ _ (by simp; omega)
    rw [xorAt_getD w p [y] j hj, hrow, BitVec.ofNat_eq_ofNat, BitVec.xor_zero]
  · rw [List.getD_eq_default _ _ hj, List.getD_eq_default _ _ (by simpa using hj)]

theorem correct_getD_of_notMem {ps : List Nat} {j : Nat} (hj : j ∉ ps) (w : Poly) (ys : List Byte) :
    (correct w ps ys).getD j 0 = w.getD j 0 := by
  induction ps generalizing w ys with
  | nil => rfl
  | cons p ps ih =>
    obtain ⟨hp, hps⟩ := List.ne_and_not_mem_of_not_mem_cons hj
    cases ys with
    | nil => rfl
    | cons y ys => rw [correct_cons, ih hps, xorAt_singleton_getD_other w hp]

/-- On distinct positions of the word each value is added at its own position. -/
theorem correct_getD_getD {ps : List Nat} {w : Poly} {ys : List Byte} (hps : ps.Nodup) (hw : ∀ q ∈ ps, q < w.length)
    (hlen : ys.length = ps.length) {l : Nat} (hl : l < ps.length) :
    (correct w ps ys).getD (ps.getD l 0) 0 = w.getD (ps.getD l 0) 0 ^^^ ys.getD l 0 := by
  induction ps generalizing w ys l with
  | nil => cases hl
  | cons p ps ih =>
    obtain ⟨hp, hnodup⟩ := List.nodup_cons.1 hps
    obtain ⟨hpw, hpsw⟩ := List.forall_mem_cons.1 hw
    obtain ⟨y, ys, rfl⟩ := List.exists_cons_of_length_eq_add_one hlen
    rw [correct_cons]
    cases l with
    | zero =>
      simp only [List.getD_cons_zero]
      rw [correct_getD_of_notMem hp, xorAt_singleton_getD_same hpw]
    | succ l =>
      have hl : l < ps.length := Nat.lt_of_succ_lt_succ hl
      have hne : ps.getD l 0 ≠ p := by
        rw [List.getD_eq_getElem _ _ hl]
        exact fun h => hp (h ▸ List.getElem_mem hl)
      simp only [List.getD_cons_succ]
      rw [ih hnodup (by simpa using hpsw) (by simpa using hlen) hl, xorAt_singleton_getD_other w hne]

/-! ## The statement -/

/-- The locator values of distinct positions of a word of up to 255 symbols differ (R174). -/
theorem locatorValues_nodup {ps : List Nat} {n : Nat} (hn : n ≤ 255) (hps : ps.Nodup) (hlt : ∀ q ∈ ps, q < n) :
    (ps.map fun q => expTable (n - 1 - q)).Nodup := by
  refine hps.map_on fun q hq r hr h => ?_
  have := hlt q hq
  have := hlt r hr
  have := expTable_inj (by omega) (by omega) h
  omega

/-- R139 over the locator values instead of the coefficient positions. -/
theorem errataLocator_eq_foldl (cs : List Nat) :
    errataLocator cs = ((cs.map expTable).map fun x => [x, 1]).foldl pmul [1] := by
  rw [errataLocator, List.foldl_map, List.foldl_map]

/-- Settles O52: no denominator is 0 where the locator values differ, and each magnitude reaches its own position. -/
theorem correctionAddsTheMagnitudes : Obligations.CorrectionAddsTheMagnitudes := by
  intro w sy ps n t hw hn hps hlt xs product
  have hxs : xs = (ps.map fun q => n - 1 - q).map expTable := by rw [List.map_map]; rfl
  have hlen : xs.length = ps.length := List.length_map _
  have hne : ∀ x ∈ xs, x ≠ 0 := fun x hx => by
    obtain ⟨q, -, rfl⟩ := List.mem_map.1 hx
    exact expTable_ne_zero _
  have hmag := fun l (hl : l < ps.length) => exists_magnitude_eq (locatorValues_nodup hn hps hlt) hne
    (errorEvaluator sy (errataLocator (ps.map fun q => n - 1 - q)) t) (hlen ▸ hl)
  choose! xinv y hinv hdiv hy using hmag
  have hok : correctErrata w sy ps n t = .ok (correct w ps ((List.range ps.length).map y)) := by
    rw [correctErrata, ← hxs, magnitudes_eq_map fun l hl => hy l (List.mem_range.1 hl)]
  refine ⟨_, hok, (correct_length _ _ _).trans hw, fun j _ hj => correct_getD_of_notMem hj w _, fun l hl =>
    ⟨xinv l, y l, hinv l hl, ?_, ?_⟩⟩
  · have h := hdiv l hl
    rwa [errorEvaluator, peval_pmodx, errataLocator_eq_foldl, ← hxs, forneyDenominator_eq, hlen] at h
  · rw [correct_getD_getD hps (hw ▸ hlt) (by simp) hl]
    simp [hl]

end Sys2Proof.Machine

end

/-! SUPPORT. The parity generator (R153): its reduction is the division by a monic polynomial (R154), and it is linear
(R155). -/

section

namespace Sys2Proof.Machine

/-! ## Sums, multiples and additions into a buffer -/

/-- Sums are aligned at the constant term, so tails of one length are added on their own (R131). -/
theorem padd_append {c d : Poly} (h : c.length = d.length) (a b : Poly) :
    padd (a ++ c) (b ++ d) = padd a b ++ padd c d := by
  induction c using List.reverseRecOn generalizing d with
  | nil => simp [List.length_eq_zero_iff.1 h.symm]
  | append_singleton c u ih =>
    cases d using List.reverseRecOn with
    | nil => simp at h
    | append_singleton d v =>
      rw [← List.append_assoc, ← List.append_assoc, padd_concat, padd_concat, ih (by simpa using h), List.append_assoc]

theorem cons_padd {a b : Poly} (h : b.length ≤ a.length) (c : Byte) : padd (c :: a) b = c :: padd a b := by
  have hb : b.length - (a.length + 1) = 0 := by omega
  have ha : a.length + 1 - b.length = a.length - b.length + 1 := by omega
  simp [padd, zeros, hb, ha, List.replicate_succ, Nat.sub_eq_zero_of_le h]

@[simp] theorem pscale_zero (p : Poly) : pscale p 0#8 = zeros p.length := by simp [pscale, zeros]

theorem pscale_xor (p : Poly) (c d : Byte) :
    pscale p (c ^^^ d) = List.zipWith (· ^^^ ·) (pscale p c) (pscale p d) := by
  simp [pscale, gmul_xor, List.zipWith_map, List.zipWith_self]

@[simp] theorem xorAt_zeros (buf : Poly) (p n : Nat) : xorAt buf p (zeros n) = buf := by
  induction buf generalizing p n with
  | nil => rfl
  | cons b buf ih =>
    cases p with
    | zero => cases n with
      | zero => exact xorAt_nil_row _ 0
      | succ n => simpa [zeros, List.replicate_succ, xorAt] using ih 0 n
    | succ p => simpa [xorAt] using ih p n

theorem xorAt_zipWith {a b : Poly} (hab : a.length = b.length) {r s : Poly} (hrs : r.length = s.length) (p : Nat) :
    xorAt (List.zipWith (· ^^^ ·) a b) p (List.zipWith (· ^^^ ·) r s) =
      List.zipWith (· ^^^ ·) (xorAt a p r) (xorAt b p s) := by
  induction a generalizing b p r s with
  | nil => rfl
  | cons u a ih =>
    obtain ⟨v, b, rfl⟩ := List.exists_cons_of_length_eq_add_one hab.symm
    have hab : a.length = b.length := Nat.succ.inj hab
    cases p with
    | zero => cases r with
      | nil =>
        obtain rfl := List.length_eq_zero_iff.1 hrs.symm
        rfl
      | cons x r =>
        obtain ⟨y, s, rfl⟩ := List.exists_cons_of_length_eq_add_one hrs.symm
        have hxor : u ^^^ v ^^^ (x ^^^ y) = u ^^^ x ^^^ (v ^^^ y) := by ac_rfl
        simp [xorAt, hxor, ih hab (Nat.succ.inj hrs)]
    | succ p => simp [xorAt, ih hab hrs]

theorem zipWith_xor_getD {a b : Poly} (h : a.length = b.length) (p : Nat) :
    (List.zipWith (· ^^^ ·) a b).getD p 0 = a.getD p 0 ^^^ b.getD p 0 := by
  rcases Nat.lt_or_ge p a.length with hp | hp <;> simp [List.getD_eq_getElem?_getD, hp, h ▸ hp]

/-! ## One pass of the reduction (R153) -/

/-- The pass's test for 0 saves work only: with the coefficient 0 it would add zeros. -/
theorem reduceAt_eq_xorAt (g buf : Poly) (p : Nat) : reduceAt g buf p = xorAt buf p (pscale g (buf.getD p 0)) := by
  simp only [reduceAt]
  split
  next h => rw [h, BitVec.ofNat_eq_ofNat, pscale_zero, xorAt_zeros]
  · rfl

theorem reduceAt_cons_succ (g : Poly) (c : Byte) (buf : Poly) (p : Nat) :
    reduceAt g (c :: buf) (p + 1) = c :: reduceAt g buf p := by
  simp [reduceAt_eq_xorAt, xorAt]

/-- With a monic polynomial the pass clears the entry at its position. -/
theorem reduceAt_monic_zero (c : Byte) (g buf : Poly) :
    reduceAt (1 :: g) (c :: buf) 0 = 0 :: xorAt buf 0 (pscale g c) := by
  simp [reduceAt_eq_xorAt, xorAt, pscale]

theorem reduceAt_zipWith (g : Poly) {a b : Poly} (h : a.length = b.length) (p : Nat) :
    reduceAt g (List.zipWith (· ^^^ ·) a b) p = List.zipWith (· ^^^ ·) (reduceAt g a p) (reduceAt g b p) := by
  simp only [reduceAt_eq_xorAt, zipWith_xor_getD h, pscale_xor]
  exact xorAt_zipWith h (by simp) p

/-! ## Division by a monic polynomial -/

/-- After the pass at position 0 the reduction goes on with the rest of the buffer, one place further on. -/
theorem reduce_succ (g : Poly) (n : Nat) {c d : Byte} {buf buf' : Poly} (h : reduceAt g (c :: buf) 0 = d :: buf') :
    (List.range (n + 1)).foldl (reduceAt g) (c :: buf) = d :: (List.range n).foldl (reduceAt g) buf' := by
  rw [List.range_succ_eq_map, List.foldl_cons, List.foldl_map, h]
  exact List.foldl_hom (d :: ·) fun b p => reduceAt_cons_succ g d b p

/-- The reduction of n positions divides by the monic polynomial: it leaves the remainder behind n zeros. The
coefficient that a pass reads is the next one of the quotient. -/
theorem exists_division (g : Poly) {n : Nat} {buf : Poly} (h : buf.length = n + g.length) :
    ∃ q r : Poly, q.length = n ∧ r.length = g.length ∧
      (List.range n).foldl (reduceAt (1 :: g)) buf = zeros n ++ r ∧ buf = padd (pmul q (1 :: g)) r := by
  induction n generalizing buf with
  | zero =>
    have hbuf : padd (pmul [] (1 :: g)) buf = buf := by
      rw [padd_comm, pmul, padd_zeros]
      simp [h, zeros]
    exact ⟨[], buf, rfl, by omega, rfl, hbuf.symm⟩
  | succ n ih =>
    obtain ⟨c, buf, rfl⟩ := List.exists_cons_of_length_eq_add_one (h.trans (Nat.add_right_comm n 1 _))
    have hbuf : buf.length = n + g.length := by simp at h; omega
    obtain ⟨q, r, hq, hr, hred, hdiv⟩ := ih (buf := xorAt buf 0 (pscale g c)) (by simpa using hbuf)
    have hstep : 0 :: xorAt buf 0 (pscale g c) = padd (c :: buf) (pscale (1 :: g) c ++ zeros n) := by
      rw [← reduceAt_monic_zero, reduceAt_eq_xorAt, List.getD_cons_zero, xorAt_zero (by simp; omega)]
      congr 3
      simp
      omega
    refine ⟨c :: q, r, by simp [hq], hr, ?_, ?_⟩
    · rw [reduce_succ _ n (reduceAt_monic_zero c g buf), hred]
      rfl
    · calc c :: buf
          = padd (padd (c :: buf) (pscale (1 :: g) c ++ zeros n)) (pscale (1 :: g) c ++ zeros n) := by
            rw [padd_padd_self, Nat.sub_eq_zero_of_le (by simp; omega)]
            rfl
        _ = padd (padd (0 :: pmul q (1 :: g)) r) (pscale (1 :: g) c ++ zeros n) := by
            rw [← hstep, hdiv, cons_padd (a := pmul q (1 :: g)) (by rw [pmul_length _ _ (by simp), hq, hr]; simp)]
        _ = padd (pmul (c :: q) (1 :: g)) r := by
            rw [pmul_cons c q (by simp), hq, padd_assoc, padd_comm r, ← padd_assoc]

/-! ## The codeword (R154) -/

/-- The codeword is the message followed by the remainder, and so a multiple of the divisor: the remainder, added
again, takes the place of the zeros. -/
theorem exists_encodeCore_eq (m g : Poly) :
    ∃ q r : Poly, encodeCore m (1 :: g) g.length = m ++ r ∧ r.length = g.length ∧ q.length = m.length ∧
      m ++ zeros g.length = padd (pmul q (1 :: g)) r ∧ m ++ r = pmul q (1 :: g) := by
  obtain ⟨q, r, hq, hr, hred, hdiv⟩ := exists_division g (n := m.length) (buf := m ++ zeros g.length) (by simp)
  have hcode : encodeCore m (1 :: g) g.length = m ++ r := by
    rw [encodeCore, hred, List.drop_left' (zeros_length _)]
  have hmul : m ++ r = pmul q (1 :: g) := by
    calc m ++ r
        = padd (m ++ zeros g.length) ([] ++ r) := by
          rw [padd_append (by simp [hr]), padd_nil, padd_comm, padd_zeros, hr, Nat.sub_self]
          rfl
      _ = pmul q (1 :: g) := by
          rw [hdiv, List.nil_append, padd_padd_self,
            Nat.sub_eq_zero_of_le (by rw [pmul_length _ _ (by simp), hq, hr]; simp)]
          rfl
  exact ⟨q, r, hcode, hr, hq, hdiv, hmul⟩

theorem exists_generator_eq_cons (t : Nat) : ∃ g : Poly, generator t = 1 :: g ∧ g.length = t := by
  obtain ⟨g, hg⟩ := List.head?_eq_some_iff.1 (generator_head? t)
  exact ⟨g, hg, by simpa [hg] using generator_length t⟩

/-- A multiple of the generator is 0 where the generator is. -/
theorem syndrome_pmul_generator (q : Poly) (t : Nat) : syndrome (pmul q (generator t)) t = zeros t := by
  refine List.eq_replicate_iff.2 ⟨syndrome_length _ t, fun b hb => ?_⟩
  obtain ⟨i, hi, rfl⟩ := List.mem_map.1 hb
  have hroot := (peval_generator_eq_zero t (expTable i)).2 ⟨i, List.mem_range.1 hi, rfl⟩
  rw [peval_pmul, hroot]
  exact gmul_zero _

/-- Settles O47: the reduction is a division by the generator, which is monic. -/
theorem codewordIsSystematic : Obligations.CodewordIsSystematic := by
  intro m t
  obtain ⟨g, hg, rfl⟩ := exists_generator_eq_cons t
  obtain ⟨q, r, hcode, hr, hq, hdiv, hmul⟩ := exists_encodeCore_eq m g
  rw [← hg] at hcode hdiv hmul
  have hsyn : syndrome (m ++ r) g.length = zeros g.length := by rw [hmul, syndrome_pmul_generator]
  refine ⟨q, r, hcode, hr, hq, hdiv, hmul, fun i hi => ?_, hsyn⟩
  rw [← syndrome_getD _ _ i hi, hsyn]
  simp [zeros, hi]

theorem syndrome_encodeCore (m : Poly) (t : Nat) : syndrome (encodeCore m (generator t) t) t = zeros t := by
  obtain ⟨q, r, hcode, -, -, -, -, -, hsyn⟩ := codewordIsSystematic m t
  rw [hcode, hsyn]

/-! ## Linearity (R155) -/

theorem reduce_zipWith (g : Poly) (ps : List Nat) {a b : Poly} (h : a.length = b.length) :
    ps.foldl (reduceAt g) (List.zipWith (· ^^^ ·) a b) =
      List.zipWith (· ^^^ ·) (ps.foldl (reduceAt g) a) (ps.foldl (reduceAt g) b) := by
  induction ps generalizing a b with
  | nil => rfl
  | cons p ps ih =>
    simp only [List.foldl_cons]
    rw [reduceAt_zipWith g h, ih (by simpa using h)]

theorem encodeCore_zipWith (g : Poly) (t : Nat) {m₁ m₂ : Poly} (h : m₁.length = m₂.length) :
    encodeCore (List.zipWith (· ^^^ ·) m₁ m₂) g t =
      List.zipWith (· ^^^ ·) (encodeCore m₁ g t) (encodeCore m₂ g t) := by
  have hlen : (List.zipWith (· ^^^ ·) m₁ m₂).length = m₂.length := by simp [h]
  have hzeros : zeros t = List.zipWith (· ^^^ ·) (zeros t) (zeros t) := by simp [zeros]
  have hbuf : List.zipWith (· ^^^ ·) m₁ m₂ ++ zeros t = List.zipWith (· ^^^ ·) (m₁ ++ zeros t) (m₂ ++ zeros t) := by
    rw [List.zipWith_append h, ← hzeros]
  rw [encodeCore, encodeCore, encodeCore, hlen, h, hbuf, reduce_zipWith g _ (by simp [h]), List.drop_zipWith,
    List.zipWith_append h]

/-- Settles O48: each pass of the reduction is linear. -/
theorem encodingIsLinear : Obligations.EncodingIsLinear :=
  ⟨by decide +kernel, fun _ _ t h => encodeCore_zipWith (generator t) t h⟩

end Sys2Proof.Machine

end

/-! SUPPORT. Roots of polynomials: a polynomial is known by its values at as many elements as it has coefficients, and
so the generator for T = 255 is x^255 + 1 (R151). -/

section

namespace Sys2Proof.Machine

/-! ## Dividing by a root -/

theorem exists_root_division {p : Poly} (hp : p ≠ []) {a : Byte} (ha : peval p a = 0) :
    ∃ q : Poly, q.length + 1 = p.length ∧ p = pmul q [1, a] := by
  have hpos := List.length_pos_iff.2 hp
  obtain ⟨q, r, hq, hr, -, hdiv⟩ := exists_division [a] (n := p.length - 1) (buf := p) (by simp; omega)
  obtain ⟨c, rfl⟩ := List.length_eq_one_iff.1 hr
  have hc : c = 0 := by
    rw [hdiv, peval_padd, peval_pmul, peval_pair] at ha
    simpa [peval] using ha
  have hsum := padd_zeros (pmul q [1, a]) 1
  rw [pmul_length _ _ (by simp)] at hsum
  exact ⟨q, by omega, hdiv.trans (by simpa [zeros, hc] using hsum)⟩

theorem pmul_zeros (n : Nat) {b : Poly} (hb : b ≠ []) : pmul (zeros n) b = zeros (n + b.length - 1) := by
  obtain ⟨d, b, rfl⟩ := List.exists_cons_of_ne_nil hb
  change pmul (zeros n) (d :: b) = zeros (n + b.length)
  induction n with
  | zero => simp [zeros, pmul]
  | succ n ih =>
    have hcons : ∀ n, zeros (n + 1) = 0#8 :: zeros n := fun _ => rfl
    rw [Nat.add_right_comm, hcons, hcons, pmul, ih, BitVec.ofNat_eq_ofNat, pscale_zero, xorAt_zeros]

/-- A polynomial with as many roots as coefficients is zero: each root takes one coefficient away. -/
theorem eq_zeros_of_roots {roots : List Byte} (hnodup : roots.Nodup) {p : Poly} (hlen : p.length ≤ roots.length)
    (h : ∀ v ∈ roots, peval p v = 0) : p = zeros p.length := by
  induction roots generalizing p with
  | nil => simp [List.length_eq_zero_iff.1 (Nat.le_zero.1 hlen), zeros]
  | cons a roots ih =>
    by_cases hp : p = []
    · rw [hp]
      rfl
    obtain ⟨ha, hnodup⟩ := List.nodup_cons.1 hnodup
    obtain ⟨hroot, hroots⟩ := List.forall_mem_cons.1 h
    obtain ⟨q, hq, rfl⟩ := exists_root_division hp hroot
    have hrest : ∀ v ∈ roots, peval q v = 0 := fun v hv => by
      have hprod := hroots v hv
      rw [peval_pmul] at hprod
      refine (gmul_eq_zero.1 hprod).resolve_right fun hfactor => ha ?_
      have hva : v = a := by simpa using hfactor
      exact hva ▸ hv
    have hzero := ih hnodup (Nat.le_of_succ_le_succ (hq.trans_le hlen)) hrest
    rw [hzero, pmul_zeros _ (by simp), zeros_length]

/-- Polynomials of one length are equal if they agree at as many elements as they have coefficients. -/
theorem eq_of_peval_eq {vs : List Byte} (hnodup : vs.Nodup) {p q : Poly} (hpq : p.length = q.length)
    (hlen : p.length ≤ vs.length) (h : ∀ v ∈ vs, peval p v = peval q v) : p = q := by
  have hsum : padd p q = zeros q.length := by
    have hzero := eq_zeros_of_roots hnodup (p := padd p q) (by rw [padd_length]; omega) fun v hv => by
      rw [peval_padd, h v hv, BitVec.xor_self]
      rfl
    rwa [padd_length, hpq, Nat.max_self] at hzero
  have hself := padd_padd_self p q
  rw [hsum, padd_comm, padd_zeros, hpq, Nat.sub_self] at hself
  exact hself.symm

/-! ## The generator for T = 255 -/

theorem peval_monomial_expTable (n i : Nat) : peval (monomial n) (expTable i) = expTable (i * n) := by
  induction n with
  | zero =>
    have hone : expTable 0 = 1 := rfl
    simp [hone, monomial, zeros, peval]
  | succ n ih =>
    rw [monomial_succ, peval_concat, ih, ← expInt_natCast, ← expInt_natCast, gmul_expInt, Nat.mul_succ]
    simp [← expInt_natCast]

/-- Both sides are monic with every non-zero element as a root: below x^255 each has the value 1 there. -/
theorem generator_255 : generator 255 = [1] ++ zeros 254 ++ [1] := by
  obtain ⟨g, hg, hlen⟩ := exists_generator_eq_cons 255
  have hnodup : ((List.range 255).map expTable).Nodup := List.nodup_range.map_on fun i hi j hj =>
    expTable_inj (List.mem_range.1 hi) (List.mem_range.1 hj)
  have htail : g = zeros 254 ++ [1] := by
    refine eq_of_peval_eq hnodup (by simp [hlen]) (by simp [hlen]) fun v hv => ?_
    obtain ⟨i, hi, rfl⟩ := List.mem_map.1 hv
    have hroot := (peval_generator_eq_zero 255 (expTable i)).2 ⟨i, List.mem_range.1 hi, rfl⟩
    have hone : expTable (i * 255) = 1 := expTable_congr (j := 0) (by omega)
    rw [hg, peval_cons, hlen, peval_monomial_expTable, hone] at hroot
    calc peval g (expTable i)
        = gmul 1 1 := (BitVec.xor_eq_zero_iff.1 hroot).symm
      _ = 1 := gmul_one 1
      _ = peval (zeros 254 ++ [1]) (expTable i) := by
        rw [peval_zeros_append]
        simp [peval]
  rw [hg, htail]
  rfl

end Sys2Proof.Machine

end

/-! SUPPORT. The codec commands RS_CONFIG, RS_ENCODE and RS_DECODE (R151, R152, R162): what each completes with, and
what a decode makes of the word that an encode has written (R165). -/

section

namespace Sys2Proof.Machine

/-! ## Operands and results -/

/-- The message is the values of the first entries of BUF, whatever their tags are (R152). -/
theorem messageOf_eq_some_iff {p : Pending} {k : Nat} {m : Poly} :
    messageOf p k = some m ↔ m.length = k ∧ ∀ j, j < k → (p.buf.read j).map Symbol.value = m[j]? := by
  constructor
  · intro h
    refine ⟨messageOf_length h, fun j hj => ?_⟩
    obtain ⟨xs, hxs, rfl⟩ := messageOf_eq_some.1 h
    rw [List.getElem?_map, ← (Memory.readFrom_eq_some.1 hxs).2 j hj, Nat.zero_add]
  · rintro ⟨rfl, h⟩
    cases hxs : p.buf.readFrom 0 m.length with
    | none =>
      obtain ⟨j, hj, hnone⟩ := Memory.readFrom_eq_none.1 hxs
      have hread := h j hj
      rw [← Nat.zero_add j, hnone] at hread
      simp [hj] at hread
    | some xs =>
      obtain ⟨hlen, hread⟩ := Memory.readFrom_eq_some.1 hxs
      refine messageOf_eq_some.2 ⟨xs, hxs, List.ext_getElem? fun j => ?_⟩
      rcases Nat.lt_or_ge j m.length with hj | hj
      · rw [← h j hj, List.getElem?_map, ← hread j hj, Nat.zero_add]
      · rw [List.getElem?_eq_none hj, List.getElem?_eq_none (by simpa [hlen] using hj)]

theorem take_eq_map_getD {l : List Byte} {n : Nat} (h : n ≤ l.length) :
    l.take n = (List.range n).map fun i => l.getD i 0 := by
  refine List.ext_getElem (by simpa using h) fun i hi _ => ?_
  have hil : i < l.length := hi.trans_le (List.length_take_le' n l)
  simp [hil]

theorem generatorOf_eq_map (s : State) (p : Pending) :
    generatorOf s p = (List.range (p.cfgT.toNat + 1)).map fun i => s.gen.toList.getD i 0 :=
  take_eq_map_getD (s.gen.length_toList.symm ▸ p.cfgT.isLt)

theorem genWindow_getElem (t : Nat) (g : Poly) {i : Nat} (hi : i < 256) :
    (genWindow t g)[i] = if i ≤ t then g.getD i 0 else 0 := by
  simp [genWindow]

theorem genWindow_getD {t i : Nat} (g : Poly) (hi : i ≤ t) (ht : t < 256) :
    (genWindow t g).toList.getD i 0 = g.getD i 0 := by
  have h := genWindow_getElem t g (hi.trans_lt ht)
  rw [if_pos hi] at h
  rw [← h, List.getD_eq_getElem _ _ (by simp; omega)]
  rfl

/-- Under the invariant RS_ENCODE reads the generator for the T of its snapshot (R40, R70). -/
theorem generatorOf_of_inv {s : State} (hs : Inv s) {p : Pending} (hp : s.pending = some p) :
    generatorOf s p = generator p.cfgT.toNat := by
  have hT : p.cfgT = s.cfgT := by rw [hs.pending_snapshot p hp]; rfl
  have hlen := generator_length p.cfgT.toNat
  rw [generatorOf_eq_map, hs.gen_generator, ← hT]
  calc (List.range (p.cfgT.toNat + 1)).map (fun i => (genWindow p.cfgT.toNat (generator p.cfgT.toNat)).toList.getD i 0)
      = (List.range (p.cfgT.toNat + 1)).map fun i => (generator p.cfgT.toNat).getD i 0 :=
        List.map_congr_left fun i hi => genWindow_getD _ (Nat.le_of_lt_succ (List.mem_range.1 hi)) p.cfgT.isLt
    _ = (generator p.cfgT.toNat).take (p.cfgT.toNat + 1) := (take_eq_map_getD hlen.ge).symm
    _ = generator p.cfgT.toNat := List.take_of_length_le hlen.le

theorem setWord_buf_read (s : State) (w : Poly) (j : Nat) :
    (s.setWord w).buf.read j = if j < w.length then some ⟨w.getD j 0, false⟩ else s.buf.read j := by
  rw [setWord_buf, Memory.read_writeFrom]
  by_cases hj : j < w.length <;> simp [hj]

/-! ## Completions -/

theorem applyReport_ok (s : State) (sy : List Byte) (w : Poly) (a f : Nat) :
    applyReport s ⟨.ok, a, f, some sy, some w⟩ = ((s.setSyndromes sy).setWord w).complete .ok a f := rfl

section

variable {s : State} {p : Pending} (hp : s.pending = some p)

include hp

theorem exec_rsConfig (t : Nat) : exec (.rsConfig t) s = .next ((s.setConfig t).complete .ok 0 0) :=
  withPending_some hp _

/-- Each block command starts with the length check (R152, R161, R162). -/
theorem exec_of_too_long {k : Nat} {i : Instr} (hlong : 255 < k + p.cfgT.toNat)
    (hi : i = .rsEncode k ∨ i = .rsSyndrome k ∨ i = .rsDecode k) : exec i s = .next (s.complete .length 0 0) := by
  rcases hi with rfl | rfl | rfl <;> exact (withPending_some hp _).trans (withLength_of_lt hlong s _)

theorem exec_rsEncode {k : Nat} (hle : k + p.cfgT.toNat ≤ 255) {m : Poly} (hm : messageOf p k = some m) :
    exec (.rsEncode k) s =
      .next ((s.setWord (encodeCore m (generatorOf s p) p.cfgT.toNat)).complete .ok 0 0) := by
  simp only [exec, execRsEncode, withPending_some hp, withLength_of_le hle, hm, parityCount]

/-- An encode that reports OK has written the codeword of a message that fits. -/
theorem exec_rsEncode_ok {k : Nat} {t : State} (h : exec (.rsEncode k) s = .next t) (herr : t.err = .ok) :
    k + p.cfgT.toNat ≤ 255 ∧ ∃ m, messageOf p k = some m ∧
      t = (s.setWord (encodeCore m (generatorOf s p) p.cfgT.toNat)).complete .ok 0 0 := by
  rcases Nat.lt_or_ge 255 (k + p.cfgT.toNat) with hlong | hle
  · rw [exec_of_too_long hp hlong (.inl rfl)] at h
    cases h
    cases herr
  · cases hxs : p.buf.readFrom 0 k with
    | none =>
      rw [execRsEncode_unwritten hp hle hxs] at h
      cases h
    | some xs =>
      have hm : messageOf p k = some (xs.map Symbol.value) := messageOf_eq_some.2 ⟨xs, hxs, rfl⟩
      rw [exec_rsEncode hp hle hm] at h
      cases h
      exact ⟨hle, _, hm, rfl⟩

theorem exec_rsDecode {k : Nat} (hle : k + p.cfgT.toNat ≤ 255) {rx : List Symbol}
    (hrx : p.buf.readFrom 0 (k + p.cfgT.toNat) = some rx) :
    exec (.rsDecode k) s = .next (applyReport s (decodeWord rx p.cfgT.toNat)) := by
  simp only [exec, execRsDecode, withPending_some hp, withLength_of_le hle, receivedWord, hrx, parityCount]

end

/-! ## A decode of what was encoded (R165) -/

/-- A word without erasures whose syndrome is zero is accepted as it is. -/
theorem decodeWord_of_codeword {w : Poly} {t : Nat} (h : syndrome w t = zeros t) :
    decodeWord (w.map fun v => ⟨v, false⟩) t = ⟨.ok, 0, 0, some (zeros t), some w⟩ := by
  have hes : erasures (w.map fun v => ⟨v, false⟩) = [] := by
    refine List.filter_eq_nil_iff.2 fun j hj => ?_
    have hj : j < w.length := by simpa using hj
    simp [List.getD_eq_getElem?_getD, hj]
  have hw : workingCopy (w.map fun v => ⟨v, false⟩) = w := by simp [workingCopy, Function.comp_def]
  rw [decodeWord_of_zero (by simp [hes]) (by simp [hw, h, zeros]), hes, hw, h]
  rfl

/-- RS_DECODE, started after a command has stored a codeword, writes the codeword again. -/
theorem exec_rsDecode_start_setWord (s : State) {k : Nat} {c : Poly} (hlen : c.length = k + s.cfgT.toNat)
    (hle : k + s.cfgT.toNat ≤ 255) (hsyn : syndrome c s.cfgT.toNat = zeros s.cfgT.toNat) (w : Word) :
    exec (.rsDecode k) (((s.setWord c).complete .ok 0 0).start w) =
      .next ((((((s.setWord c).complete .ok 0 0).start w).setSyndromes (zeros s.cfgT.toNat)).setWord c).complete
        .ok 0 0) := by
  have hrx := Memory.readFrom_writeFrom s.buf (c.map fun v => (⟨v, false⟩ : Symbol)) 0
  rw [List.length_map, hlen] at hrx
  have hT : (snapshot ((s.setWord c).complete .ok 0 0) w).cfgT = s.cfgT := rfl
  rw [exec_rsDecode (start_pending ((s.setWord c).complete .ok 0 0) w) hle hrx, hT, decodeWord_of_codeword hsyn,
    applyReport_ok]

/-! ## The statements -/

/-- Settles O43: the configuration's two registers, with T = 255 read off the roots of its generator. -/
theorem rsConfigBuildsTheGenerator : Obligations.RsConfigBuildsTheGenerator := by
  refine ⟨fun t ht => decode_eq_ok_iff.2 ?_, resetGen_eq.symm, generator_255, by decide +kernel,
    fun s p t hp ht => ⟨_, exec_rsConfig hp t, rfl, Nat.mod_eq_of_lt (Nat.lt_succ_of_le ht), fun i =>
      genWindow_getElem t _ i.isLt⟩⟩
  simp only [BitVec.toNat_ofNat, argument, opcode]
  omega

/-- Settles O44: the length check comes first. -/
theorem tooLongWordsReportLength : Obligations.TooLongWordsReportLength :=
  fun _ _ _ _ hp hlong hi => exec_of_too_long hp hlong (by simpa using hi)

/-- Settles O46: the codeword is stored over the first K + T entries. -/
theorem rsEncodeWritesTheCodeword : Obligations.RsEncodeWritesTheCodeword := by
  rintro s p k m hp hle rfl hm
  have hmsg : messageOf p m.length = some m := messageOf_eq_some_iff.2 ⟨rfl, fun j hj => by
    obtain ⟨e, he⟩ := hm j hj
    simp [he, hj]⟩
  refine ⟨_, exec_rsEncode hp hle hmsg, rfl, fun j hj => ?_, fun j hj => ?_⟩
  · rw [complete_buf, setWord_buf_read, encodeCore_length, if_pos hj, generatorOf_eq_map]
  · rw [complete_buf, setWord_buf_read, encodeCore_length, if_neg (by omega)]

/-- Settles O58: the codeword's syndrome is zero, so the decode stores the same word, which starts with the message. -/
theorem decodeOfEncodeReturnsTheMessage : Obligations.DecodeOfEncodeReturnsTheMessage := by
  rintro s s1 s2 p k hs hp henc herr rfl
  obtain ⟨hle, m, hm, rfl⟩ := exec_rsEncode_ok hp henc herr
  obtain ⟨rfl, hread⟩ := messageOf_eq_some_iff.1 hm
  have hT : p.cfgT = s.cfgT := by rw [hs.pending_snapshot p hp]; rfl
  rw [generatorOf_of_inv hs hp, hT]
  rw [hT] at hle
  refine ⟨_, exec_rsDecode_start_setWord s (encodeCore_length ..) hle (syndrome_encodeCore m _) _, rfl, rfl, rfl,
    fun j => ?_, fun j hj => ?_⟩
  · simp only [complete_buf, setWord_buf_read, setSyndromes_buf, start_buf]
    split <;> rfl
  · have hfront : (encodeCore m (generator s.cfgT.toNat) s.cfgT.toNat)[j]? = m[j]? := by
      rw [← List.getElem?_take_of_lt hj, encodeCore_message]
    have hlt : j < (encodeCore m (generator s.cfgT.toNat) s.cfgT.toNat).length :=
      hj.trans_le ((Nat.le_add_right ..).trans_eq (encodeCore_length ..).symm)
    rw [complete_buf, setWord_buf_read, if_pos hlt, hread j hj, ← hfront, List.getD_eq_getElem _ _ hlt,
      List.getElem?_eq_getElem hlt, Option.map_some]

end Sys2Proof.Machine

end

/-! SUPPORT. RS_SYNDROME and RS_DECODE as functions of the received word (R161 to R165, R182), and the Forney syndromes
(R166). -/

section

namespace Sys2Proof.Machine

/-! ## The received word (R163) -/

theorem mem_erasures {rx : List Symbol} {q : Nat} :
    q ∈ erasures rx ↔ q < rx.length ∧ (rx.getD q ⟨0, false⟩).erased = true := by
  rw [erasures, List.mem_filter, List.mem_range]

theorem erasures_nodup (rx : List Symbol) : (erasures rx).Nodup := List.nodup_range.filter _

theorem erasures_lt {rx : List Symbol} : ∀ q ∈ erasures rx, q < rx.length := fun _ hq => (mem_erasures.1 hq).1

theorem erasures_length (rx : List Symbol) : (erasures rx).length = rx.countP Symbol.erased := by
  have hrx : (List.range rx.length).map (fun q => rx.getD q ⟨0, false⟩) = rx :=
    List.ext_getElem (by simp) fun q _ hq => by simp [hq]
  conv_rhs => rw [← hrx, List.countP_map]
  rw [erasures, List.countP_eq_length_filter]
  rfl

/-- A word is received as a whole when its entries are read one by one. -/
theorem readFrom_of_getElem? {α : Type} {m : Memory α} {n : Nat} {xs : List α} (hlen : xs.length = n)
    (h : ∀ j, j < n → m.read j = xs[j]?) : m.readFrom 0 n = some xs :=
  Memory.readFrom_eq_some.2 ⟨hlen, fun j hj => by rw [Nat.zero_add, h j hj]⟩

theorem workingCopy_getD {rx : List Symbol} {q : Nat} (hq : q < rx.length) :
    (workingCopy rx).getD q 0 =
      if (rx.getD q ⟨0, false⟩).erased = true then 0 else (rx.getD q ⟨0, false⟩).value := by
  simp [workingCopy, hq]

/-! ## What a completion writes -/

theorem setSyndromes_syn_read (s : State) (sy : List Byte) (i : Nat) :
    (s.setSyndromes sy).syn.read i = if i < sy.length then some (sy.getD i 0) else s.syn.read i := by
  rw [setSyndromes_syn, Memory.read_writeFrom]
  by_cases hi : i < sy.length <;> simp [hi]

theorem exec_rsSyndrome {s : State} {p : Pending} (hp : s.pending = some p) {k : Nat} (hle : k + p.cfgT.toNat ≤ 255)
    {rx : List Symbol} (hrx : p.buf.readFrom 0 (k + p.cfgT.toNat) = some rx) :
    exec (.rsSyndrome k) s =
      .next ((s.setSyndromes (syndrome (workingCopy rx) p.cfgT.toNat)).complete .ok (erasures rx).length 0) := by
  simp only [exec, execRsSyndrome, withPending_some hp, withLength_of_le hle, receivedWord, hrx, parityCount]

/-- Settles O49: the syndromes of the working copy are stored over the first T entries. -/
theorem rsSyndromeWritesTheSyndromes : Obligations.RsSyndromeWritesTheSyndromes := by
  intro s p k rx hp hle hlen hread
  refine ⟨_, exec_rsSyndrome hp hle (readFrom_of_getElem? hlen hread), ?_, fun i hi => ?_, fun i hi => ?_⟩
  · rw [← erasures_length]
    rfl
  · rw [complete_syn, setSyndromes_syn_read, syndrome_length, if_pos hi, syndrome_getD _ _ _ hi]
    rfl
  · rw [complete_syn, setSyndromes_syn_read, syndrome_length, if_neg (Nat.not_lt.2 hi)]

/-! ## The zero-syndrome path (R165) -/

theorem syndrome_eq_zeros_iff {w : Poly} {t : Nat} :
    syndrome w t = zeros t ↔ ∀ i, i < t → peval w (expTable i) = 0 := by
  simp [syndrome, zeros, List.eq_replicate_iff]

/-- The check of R165 asks whether the syndrome is zero. -/
theorem all_zero_iff {sy : List Byte} {t : Nat} (h : sy.length = t) : sy.all (· = 0) = true ↔ sy = zeros t := by
  simp [zeros, List.eq_replicate_iff, h]

theorem decodeWord_of_syndrome_eq_zeros {rx : List Symbol} {t : Nat} (he : (erasures rx).length ≤ t)
    (hz : syndrome (workingCopy rx) t = zeros t) :
    decodeWord rx t = ⟨.ok, (erasures rx).length, 0, some (zeros t), some (workingCopy rx)⟩ := by
  rw [decodeWord_of_zero he ((all_zero_iff (syndrome_length _ _)).2 hz), hz]

/-- Settles O50: the report of the zero-syndrome path, applied. -/
theorem zeroSyndromeWritesTheWorkingCopy : Obligations.ZeroSyndromeWritesTheWorkingCopy := by
  intro s p k rx hp hle hlen hread he hz
  have hexec := exec_rsDecode hp hle (readFrom_of_getElem? hlen hread)
  rw [decodeWord_of_syndrome_eq_zeros (by rwa [erasures_length]) (syndrome_eq_zeros_iff.2 hz), applyReport_ok,
    erasures_length] at hexec
  refine ⟨_, hexec, rfl, fun j hj => ?_, fun j hj => ?_, fun i hi => ?_, fun i hi => ?_⟩
  · have hjx : j < rx.length := by rwa [hlen]
    rw [complete_buf, setWord_buf_read, workingCopy_length, if_pos hjx, workingCopy_getD hjx,
      List.getD_eq_getElem _ _ hjx, List.getElem?_eq_getElem hjx, Option.map_some]
  · rw [complete_buf, setWord_buf_read, workingCopy_length, hlen, if_neg (Nat.not_lt.2 hj), setSyndromes_buf]
  · rw [complete_syn, setWord_syn, setSyndromes_syn_read, zeros_length, if_pos hi]
    simp [zeros, hi]
  · rw [complete_syn, setWord_syn, setSyndromes_syn_read, zeros_length, if_neg (Nat.not_lt.2 hi)]

/-! ## The Forney syndromes (R166) -/

@[simp] theorem forneyPass_length (x : Byte) (f : List Byte) : (forneyPass x f).length = f.length - 1 := by
  simp [forneyPass]

theorem forneyPass_cons_cons (x a b : Byte) (f : List Byte) :
    forneyPass x (a :: b :: f) = (gmul a x ^^^ b) :: forneyPass x (b :: f) := rfl

/-- The passes commute: both orders leave a x y + b (x + y) + c of three neighbours. -/
theorem forneyPass_comm (x y : Byte) (f : List Byte) :
    forneyPass x (forneyPass y f) = forneyPass y (forneyPass x f) := by
  match f with
  | [] => rfl
  | [_] => rfl
  | [_, _] => rfl
  | a :: b :: c :: f =>
    have ih := forneyPass_comm x y (b :: c :: f)
    simp only [forneyPass_cons_cons] at ih ⊢
    rw [ih]
    congr 1
    rw [xor_gmul, xor_gmul, gmul_assoc, gmul_assoc, gmul_comm x y]
    ac_rfl

theorem forneySyndromes_length (sy : List Byte) (es : List Nat) (n : Nat) :
    (forneySyndromes sy es n).length = sy.length - es.length := by
  induction es generalizing sy with
  | nil => rfl
  | cons q es ih =>
    refine (ih _).trans ?_
    rw [forneyPass_length, List.length_cons]
    omega

theorem forneySyndromes_perm {es ds : List Nat} (h : es.Perm ds) (sy : List Byte) (n : Nat) :
    forneySyndromes sy es n = forneySyndromes sy ds n :=
  h.foldl_eq' (fun _ _ _ _ f => forneyPass_comm _ _ f) sy

/-- Settles O53: a pass joins neighbours, and two passes can be exchanged. -/
theorem forneyPassesCommute : Obligations.ForneyPassesCommute :=
  ⟨fun sy es n _ => forneySyndromes_length sy es n, fun sy _ _ n h => forneySyndromes_perm h sy n⟩

/-! ## What a decode depends on (R182) -/

/-- What the decoder sees of a symbol: its tag, and its value unless it is erased (R163). -/
def Symbol.visible (x : Symbol) : Bool × Byte := (x.erased, if x.erased = true then 0 else x.value)

theorem workingCopy_eq_map_visible (rx : List Symbol) : workingCopy rx = (rx.map Symbol.visible).map Prod.snd := by
  rw [List.map_map]
  rfl

theorem erasures_eq_filter_visible (rx : List Symbol) :
    erasures rx =
      (List.range (rx.map Symbol.visible).length).filter fun q => ((rx.map Symbol.visible).getD q (false, 0)).1 := by
  rw [erasures, List.length_map]
  refine List.filter_congr fun q hq => ?_
  have hq : q < rx.length := List.mem_range.1 hq
  simp [hq, Symbol.visible]

theorem decodeWord_congr {rx rx' : List Symbol} (h : rx.map Symbol.visible = rx'.map Symbol.visible) (t : Nat) :
    decodeWord rx t = decodeWord rx' t := by
  have hlen : rx.length = rx'.length := by simpa using congrArg List.length h
  simp only [decodeWord, erasures_eq_filter_visible, workingCopy_eq_map_visible, h, hlen]

/-- A word that is seen alike in two buffers is readable in both or in neither. -/
theorem readFrom_visible {m m' : Memory Symbol} {n : Nat} {rx : List Symbol} (hrx : m.readFrom 0 n = some rx)
    (h : ∀ j, j < n → (m.read j).map Symbol.visible = (m'.read j).map Symbol.visible) :
    ∃ rx', m'.readFrom 0 n = some rx' ∧ rx.map Symbol.visible = rx'.map Symbol.visible := by
  obtain ⟨hlen, hread⟩ := Memory.readFrom_eq_some.1 hrx
  simp only [Nat.zero_add] at hread
  cases hrx' : m'.readFrom 0 n with
  | none =>
    obtain ⟨j, hj, hnone⟩ := Memory.readFrom_eq_none.1 hrx'
    have hseen := h j hj
    rw [hread j hj, ← Nat.zero_add j, hnone] at hseen
    simp [hlen, hj] at hseen
  | some rx' =>
    obtain ⟨hlen', hread'⟩ := Memory.readFrom_eq_some.1 hrx'
    simp only [Nat.zero_add] at hread'
    refine ⟨rx', rfl, List.ext_getElem? fun j => ?_⟩
    rw [List.getElem?_map, List.getElem?_map]
    rcases Nat.lt_or_ge j n with hj | hj
    · rw [← hread j hj, ← hread' j hj, h j hj]
    · rw [List.getElem?_eq_none (hlen.trans_le hj), List.getElem?_eq_none (hlen'.trans_le hj)]

/-- What one report writes, it writes in any state: the outcome and the counts, the word if it holds one, and the
syndromes if it holds them. -/
theorem applyReport_agree (s s' : State) (r : DecodeReport) :
    (applyReport s' r).err = (applyReport s r).err ∧ (applyReport s' r).neras = (applyReport s r).neras ∧
      (applyReport s' r).nerr = (applyReport s r).nerr ∧
      (∀ w, r.word = some w → ∀ j, j < w.length → (applyReport s' r).buf.read j = (applyReport s r).buf.read j) ∧
      (∀ sy, r.syn = some sy → ∀ i, i < sy.length → (applyReport s' r).syn.read i = (applyReport s r).syn.read i) := by
  simp only [applyReport_eq]
  refine ⟨trivial, trivial, trivial, fun w hw j hj => ?_, fun sy hsy i hi => ?_⟩
  · simp [hw, Memory.read_writeFrom, hj]
  · simp [hsy, Memory.read_writeFrom, hi]

end Sys2Proof.Machine

end

/-! SUPPORT. The outcomes of RS_DECODE (R162, R169 to R177): when each stage fails, and what is written. -/

section

namespace Sys2Proof.Machine

/-! ## When the magnitudes fail (R176) -/

theorem gmul_foldl_eq_zero {xs : List Byte} (h : 0#8 ∈ xs) (a : Byte) : xs.foldl gmul a = 0#8 := by
  induction xs generalizing a with
  | nil => cases h
  | cons x xs ih =>
    rcases List.mem_cons.1 h with rfl | h
    · rw [List.foldl_cons, gmul_zero]
      exact List.foldlRecOn xs gmul (motive := fun y => y = 0#8) rfl fun _ hy z _ => hy ▸ zero_gmul z
    · exact ih h _

/-- A repeated locator value makes a factor of the denominator 0. -/
theorem forneyDenominator_eq_zero {xs : List Byte} {l m : Nat} (hm : m < xs.length) (hml : m ≠ l) {xinv : Byte}
    (hinv : gmul (xs.getD m 0) xinv = 1) : forneyDenominator xs xinv l = 0#8 := by
  rw [forneyDenominator_eq]
  refine gmul_foldl_eq_zero (List.mem_map.2 ⟨m, List.mem_filter.2 ⟨List.mem_range.2 hm, by simpa using hml⟩, ?_⟩) 1
  rw [hinv]
  rfl

theorem magnitude_eq_gdiv (omega : Poly) {xs : List Byte} {l : Nat} {xinv : Byte}
    (hinv : ginv (xs.getD l 0) = .ok xinv) :
    magnitude omega xs l = gdiv (peval omega xinv) (forneyDenominator xs xinv l) := by
  rw [magnitude, hinv]

theorem gdiv_error {x y : Byte} {e : ErrorKind} (h : gdiv x y = .error e) : e = .divByZero := by
  unfold gdiv at h
  split_ifs at h
  exact (Except.error.inj h).symm

section

variable {xs : List Byte} (hne : ∀ x ∈ xs, x ≠ 0)

include hne

theorem exists_ginv_getD_eq {l : Nat} (hl : l < xs.length) :
    ∃ xinv, ginv (xs.getD l 0) = .ok xinv ∧ gmul xinv (xs.getD l 0) = 1 := by
  refine exists_ginv_eq ?_
  rw [List.getD_eq_getElem _ _ hl]
  exact hne _ (List.getElem_mem hl)

/-- Only the division can fail, for no locator value is 0. -/
theorem magnitude_error (omega : Poly) {l : Nat} (hl : l < xs.length) {e : ErrorKind}
    (h : magnitude omega xs l = .error e) : e = .divByZero := by
  obtain ⟨xinv, hinv, -⟩ := exists_ginv_getD_eq hne hl
  rw [magnitude_eq_gdiv omega hinv] at h
  exact gdiv_error h

theorem magnitude_of_repeated (omega : Poly) {l m : Nat} (hl : l < xs.length) (hm : m < xs.length) (hml : m ≠ l)
    (heq : xs.getD m 0 = xs.getD l 0) : magnitude omega xs l = .error .divByZero := by
  obtain ⟨xinv, hinv, hmul⟩ := exists_ginv_getD_eq hne hl
  rw [magnitude_eq_gdiv omega hinv, forneyDenominator_eq_zero hm hml (by rw [heq, gmul_comm, hmul])]
  exact gdiv_zero _

theorem magnitudes_eq_divByZero {omega : Poly} {ls : List Nat} (hls : ∀ l ∈ ls, l < xs.length)
    (h : ∃ l ∈ ls, magnitude omega xs l = .error .divByZero) : magnitudes omega xs ls = .error .divByZero := by
  induction ls with
  | nil => simp at h
  | cons l ls ih =>
    obtain ⟨hl, hls⟩ := List.forall_mem_cons.1 hls
    cases hmag : magnitude omega xs l with
    | error e => rw [magnitudes, hmag, magnitude_error hne omega hl hmag]
    | ok y =>
      have htail : ∃ l ∈ ls, magnitude omega xs l = .error .divByZero := by simpa [hmag] using h
      rw [magnitudes, hmag, ih hls htail]

end

/-- The correction fails, with DIV_BY_ZERO, where a position stands twice among the errata. -/
theorem correctErrata_of_repeated {ps : List Nat} (hps : ¬ ps.Nodup) (w : Poly) (sy : List Byte) (n t : Nat) :
    correctErrata w sy ps n t = .error .divByZero := by
  obtain ⟨l, m, hl, hm, hlm, heq⟩ : ∃ l m, ∃ (hl : l < ps.length) (hm : m < ps.length), l < m ∧ ps[l] = ps[m] := by
    simpa [List.Nodup, List.pairwise_iff_getElem] using hps
  have hne : ∀ x ∈ (ps.map fun q => n - 1 - q).map expTable, x ≠ 0 := fun x hx => by
    obtain ⟨c, -, rfl⟩ := List.mem_map.1 hx
    exact expTable_ne_zero c
  have hmags : ∀ omega, magnitudes omega ((ps.map fun q => n - 1 - q).map expTable) (List.range ps.length) =
      .error .divByZero := fun omega =>
    magnitudes_eq_divByZero hne (by simp) ⟨l, List.mem_range.2 hl, magnitude_of_repeated hne omega (m := m)
      (by simpa using hl) (by simpa using hm) (Nat.ne_of_gt hlm) (by simp [hl, hm, heq])⟩
  rw [correctErrata, hmags]

theorem correctErrata_getD_of_notMem {w : Poly} {sy : List Byte} {ps : List Nat} {n t : Nat} {w' : Poly}
    (h : correctErrata w sy ps n t = .ok w') {j : Nat} (hj : j ∉ ps) : w'.getD j 0 = w.getD j 0 := by
  simp only [correctErrata] at h
  split at h
  · cases h
  · cases h
    exact correct_getD_of_notMem hj w _

/-! ## The checks after a non-zero syndrome (R169 to R176) -/

theorem chienOutside_iff {loc : Poly} {n : Nat} :
    chienOutside loc n = true ↔ ∃ i, i < 255 ∧ n ≤ i ∧ peval loc.reverse (expTable i) = 0 := by
  simp only [chienOutside, List.any_eq_true, chienRoots, List.mem_filter, List.mem_range, decide_eq_true_iff]
  exact exists_congr fun i => by tauto

/-- The outcome of the correction stages for the locator loc, in the order of R197. -/
def locationOutcome (loc : Poly) (es : List Nat) (n t : Nat) : ErrorKind :=
  if t - es.length < 2 * (loc.length - 1) then .tooManyErrors
  else if (∃ i, i < 255 ∧ n ≤ i ∧ peval loc.reverse (expTable i) = 0) ∨
      (chienPositions loc n).length ≠ loc.length - 1 then .tooManyErrors
  else if (es ++ chienPositions loc n).Nodup then .ok else .divByZero

theorem locationOutcome_ne_tooManyErasures (loc : Poly) (es : List Nat) (n t : Nat) :
    locationOutcome loc es n t ≠ .tooManyErasures := by
  unfold locationOutcome
  split_ifs <;> simp

/-- The stages after a non-zero syndrome report this outcome: they correct the word, or they fail. -/
theorem locateAndCorrect_outcome {w : Poly} {sy : List Byte} {es : List Nat} {n t : Nat} {loc : Poly} (hn : n ≤ 255)
    (hw : w.length = n) (hsy : sy.length = t) (hes : ∀ q ∈ es, q < n)
    (hloc : berlekampMassey (forneySyndromes sy es n) = .ok loc) :
    (locationOutcome loc es n t = .ok ∧ ∃ w', correctErrata w sy (es ++ chienPositions loc n) n t = .ok w' ∧
      locateAndCorrect w sy es n t = .ok (w', loc.length - 1)) ∨
    (locationOutcome loc es n t ≠ .ok ∧
      locateAndCorrect w sy es n t = .error (locationOutcome loc es n t)) := by
  have hlt : ∀ q ∈ es ++ chienPositions loc n, q < n := fun q hq =>
    (List.mem_append.1 hq).elim (hes q) fun h => (mem_chienPositions.1 h).1
  simp only [locateAndCorrect, locationOutcome, hloc, forneySyndromes_length, hsy, chienOutside_iff]
  split_ifs with hdegree hroots hnodup
  · exact .inr ⟨by simp, rfl⟩
  · exact .inr ⟨by simp, rfl⟩
  · obtain ⟨w', hok, -⟩ := correctionAddsTheMagnitudes w sy _ n t hw hn hnodup hlt
    exact .inl ⟨rfl, w', hok, by rw [hok]⟩
  · exact .inr ⟨by simp, by rw [correctErrata_of_repeated hnodup]⟩

/-! ## The reports of a decode (R162) -/

/-- The reports of a decode: the failure for too many erasures, the zero-syndrome path, and the two ends of the
correction stages. -/
inductive DecodeCase (rx : List Symbol) (t : Nat) (loc : Poly) : DecodeReport → Prop where
  | tooManyErasures (he : t < (erasures rx).length) :
      DecodeCase rx t loc ⟨.tooManyErasures, (erasures rx).length, 0, none, none⟩
  | zeroSyndrome (he : (erasures rx).length ≤ t) (hz : syndrome (workingCopy rx) t = zeros t) :
      DecodeCase rx t loc
        ⟨.ok, (erasures rx).length, 0, some (syndrome (workingCopy rx) t), some (workingCopy rx)⟩
  | failed (he : (erasures rx).length ≤ t) (hz : syndrome (workingCopy rx) t ≠ zeros t)
      (hout : locationOutcome loc (erasures rx) rx.length t ≠ .ok) :
      DecodeCase rx t loc ⟨locationOutcome loc (erasures rx) rx.length t, (erasures rx).length, 0,
        some (syndrome (workingCopy rx) t), none⟩
  | corrected (he : (erasures rx).length ≤ t) (hz : syndrome (workingCopy rx) t ≠ zeros t)
      (hout : locationOutcome loc (erasures rx) rx.length t = .ok) {w' : Poly}
      (hw' : correctErrata (workingCopy rx) (syndrome (workingCopy rx) t)
        (erasures rx ++ chienPositions loc rx.length) rx.length t = .ok w') :
      DecodeCase rx t loc
        ⟨.ok, (erasures rx).length, loc.length - 1, some (syndrome (workingCopy rx) t), some w'⟩

theorem decodeWord_case {rx : List Symbol} {t : Nat} {loc : Poly} (hn : rx.length ≤ 255)
    (hloc : berlekampMassey (forneySyndromes (syndrome (workingCopy rx) t) (erasures rx) rx.length) = .ok loc) :
    DecodeCase rx t loc (decodeWord rx t) := by
  rcases Nat.lt_or_ge t (erasures rx).length with he | he
  · rw [decodeWord_of_lt he]
    exact .tooManyErasures he
  by_cases hz : syndrome (workingCopy rx) t = zeros t
  · rw [decodeWord_of_syndrome_eq_zeros he hz, ← hz]
    exact .zeroSyndrome he hz
  rw [decodeWord_of_nonzero he (Bool.eq_false_iff.2 fun h => hz ((all_zero_iff (syndrome_length _ _)).1 h))]
  rcases locateAndCorrect_outcome hn (workingCopy_length rx) (syndrome_length _ t) erasures_lt hloc with
    ⟨hout, w', hw', hok⟩ | ⟨hout, herror⟩
  · rw [hok]
    exact .corrected he hz hout hw'
  · rw [herror]
    exact .failed he hz hout

/-- A decode that reports OK has written the word, and one that got past the count of erasures the syndromes. -/
theorem decodeWord_writes {rx : List Symbol} (hn : rx.length ≤ 255) (t : Nat) :
    ((decodeWord rx t).err = .ok → ∃ w, (decodeWord rx t).word = some w) ∧
      ((decodeWord rx t).err ≠ .tooManyErasures → ∃ sy, (decodeWord rx t).syn = some sy) := by
  obtain ⟨loc, hloc, -⟩ :=
    locatorIsNormal (forneySyndromes (syndrome (workingCopy rx) t) (erasures rx) rx.length)
  have hcase := decodeWord_case hn hloc
  generalize decodeWord rx t = r at hcase ⊢
  cases hcase with
  | tooManyErasures => exact ⟨nofun, fun h => absurd rfl h⟩
  | zeroSyndrome => exact ⟨fun _ => ⟨_, rfl⟩, fun _ => ⟨_, rfl⟩⟩
  | failed _ _ hout => exact ⟨fun h => absurd h hout, fun _ => ⟨_, rfl⟩⟩
  | corrected => exact ⟨fun _ => ⟨_, rfl⟩, fun _ => ⟨_, rfl⟩⟩

/-- Settles O57: the two received words are seen alike, so the decoder makes one report of them. -/
theorem rsDecodeDependsOnlyOnTheWord : Obligations.RsDecodeDependsOnlyOnTheWord := by
  intro s s' p p' k t hp hp' hT hseen hexec
  rcases Nat.lt_or_ge 255 (k + p.cfgT.toNat) with hlong | hle
  · rw [exec_of_too_long hp hlong (.inr (.inr rfl))] at hexec
    cases hexec
    refine ⟨_, exec_of_too_long hp' (hT ▸ hlong) (.inr (.inr rfl)), rfl, rfl, rfl, nofun, fun h => ?_⟩
    simp at h
  cases hrx : p.buf.readFrom 0 (k + p.cfgT.toNat) with
  | none =>
    rw [execRsDecode_unwritten hp hle hrx] at hexec
    cases hexec
  | some rx =>
    obtain ⟨rx', hrx', heq⟩ := readFrom_visible hrx hseen
    rw [exec_rsDecode hp hle hrx] at hexec
    cases hexec
    have hlen := Memory.readFrom_length hrx
    have hexec' := exec_rsDecode hp' (hT ▸ hle) (hT ▸ hrx')
    rw [← hT, ← decodeWord_congr heq] at hexec'
    obtain ⟨herr, hneras, hnerr, hbuf, hsyn⟩ := applyReport_agree s s' (decodeWord rx p.cfgT.toNat)
    obtain ⟨hword, hsyndromes⟩ := decodeWord_writes (hlen.trans_le hle) p.cfgT.toNat
    have hreport : (applyReport s (decodeWord rx p.cfgT.toNat)).err = (decodeWord rx p.cfgT.toNat).err := by
      rw [applyReport_eq]
    refine ⟨_, hexec', herr, hneras, hnerr, fun h j hj => ?_, fun h i hi => ?_⟩
    · obtain ⟨w, hw⟩ := hword (hreport ▸ h)
      exact hbuf w hw j (by rwa [decodeWord_word_length hw, hlen])
    · obtain ⟨sy, hsy⟩ := hsyndromes fun herasures => h (by simp [hreport, herasures])
      exact hsyn sy hsy i (by rwa [decodeWord_syn_length hsy])

/-- Settles O51: the four reports, applied. -/
theorem rsDecodeOutcome : Obligations.RsDecodeOutcome := by
  intro s p k rx hp hle hrx n es sy f
  obtain ⟨loc, hloc, -⟩ := locatorIsNormal f
  have hexec := exec_rsDecode hp hle hrx
  have hn : n = rx.length := (Memory.readFrom_length hrx).symm
  have hn255 : n ≤ 255 := hle
  clear_value n
  subst hn
  have hcase := decodeWord_case hn255 hloc
  generalize decodeWord rx p.cfgT.toNat = r at hcase hexec
  have hsyn : ∀ e, e ≠ ErrorKind.tooManyErasures → ∀ i, (s.setSyndromes sy).syn.read i =
      if e ≠ .tooManyErasures ∧ i < p.cfgT.toNat then some (sy.getD i 0) else s.syn.read i := fun e he i => by
    simp only [setSyndromes_syn_read, sy, syndrome_length, ne_eq, he, not_false_eq_true, true_and]
  have hin : ∀ w : Poly, w.length = rx.length → ∀ j, j < rx.length →
      ((s.setSyndromes sy).setWord w).buf.read j = some ⟨w.getD j 0, false⟩ := fun w hw j hj => by
    rw [setWord_buf_read, if_pos (hw ▸ hj)]
  have hout : ∀ w : Poly, w.length = rx.length → ∀ j, rx.length ≤ j →
      ((s.setSyndromes sy).setWord w).buf.read j = s.buf.read j := fun w hw j hj => by
    rw [setWord_buf_read, if_neg (Nat.not_lt.2 (hw ▸ hj)), setSyndromes_buf]
  refine ⟨loc, _, hloc, hexec, ?_⟩
  cases hcase with
  | tooManyErasures he =>
    exact ⟨rfl, (if_pos he).symm, fun _ => ⟨rfl, rfl⟩, nofun, fun _ => (if_neg fun h => h.1 rfl).symm, fun _ _ => rfl,
      nofun, nofun, nofun⟩
  | zeroSyndrome he hz =>
    have hw : (workingCopy rx).length = rx.length := workingCopy_length rx
    exact ⟨rfl, ((if_neg (Nat.not_lt.2 he)).trans (if_pos hz)).symm, fun h => absurd rfl h, fun _ h => absurd hz h,
      hsyn .ok nofun, hout _ hw, fun _ j hj => ⟨_, hin _ hw j hj, fun _ _ => rfl⟩, fun _ _ => hin _ hw,
      fun _ h => absurd hz h⟩
  | failed he hz herr =>
    exact ⟨rfl, ((if_neg (Nat.not_lt.2 he)).trans (if_neg hz)).symm, fun _ => ⟨rfl, rfl⟩,
      fun h => absurd h herr,
      hsyn (locationOutcome loc es rx.length p.cfgT.toNat) (locationOutcome_ne_tooManyErasures loc _ _ _),
      fun _ _ => rfl, fun h => absurd h herr, fun h => absurd h herr, fun h => absurd h herr⟩
  | @corrected he hz herr w' hw' =>
    have hw : w'.length = rx.length := (correctErrata_length hw').trans (workingCopy_length rx)
    exact ⟨rfl, ((if_neg (Nat.not_lt.2 he)).trans ((if_neg hz).trans herr)).symm, fun h => absurd rfl h,
      fun _ _ => rfl, hsyn .ok nofun, hout _ hw,
      fun _ j hj => ⟨_, hin _ hw j hj, fun hes hps => correctErrata_getD_of_notMem hw' (by simp [es, hes, hps])⟩,
      fun _ h => absurd h hz, fun _ _ => ⟨w', hw', hin _ hw⟩⟩

end Sys2Proof.Machine

end

/-! SUPPORT. Power sums: the syndromes of a word as sums over its errata (R138), and what the passes of the Forney
syndromes make of them (R166). -/

section

namespace Sys2Proof.Machine

/-! ## Sums over coefficient positions -/

/-- The sum in the field (R97) of the terms g c over the list of coefficient positions. -/
def fieldSum (g : Nat → Byte) (cs : List Nat) : Byte := cs.foldr (fun c acc => g c ^^^ acc) 0

@[simp] theorem fieldSum_nil (g : Nat → Byte) : fieldSum g [] = 0 := rfl

@[simp] theorem fieldSum_cons (g : Nat → Byte) (c : Nat) (cs : List Nat) :
    fieldSum g (c :: cs) = g c ^^^ fieldSum g cs := rfl

@[simp] theorem fieldSum_append (g : Nat → Byte) (cs ds : List Nat) :
    fieldSum g (cs ++ ds) = fieldSum g cs ^^^ fieldSum g ds := by
  induction cs with
  | nil => simp
  | cons c cs ih => rw [List.cons_append, fieldSum_cons, ih, fieldSum_cons, BitVec.xor_assoc]

theorem fieldSum_congr {g h : Nat → Byte} {cs : List Nat} (hgh : ∀ c ∈ cs, g c = h c) :
    fieldSum g cs = fieldSum h cs := by
  induction cs with
  | nil => rfl
  | cons c cs ih =>
    obtain ⟨hc, hcs⟩ := List.forall_mem_cons.1 hgh
    rw [fieldSum_cons, fieldSum_cons, hc, ih hcs]

theorem fieldSum_eq_zero {g : Nat → Byte} {cs : List Nat} (hg : ∀ c ∈ cs, g c = 0) : fieldSum g cs = 0 := by
  induction cs with
  | nil => rfl
  | cons c cs ih =>
    obtain ⟨hc, hcs⟩ := List.forall_mem_cons.1 hg
    rw [fieldSum_cons, hc, ih hcs, BitVec.xor_self]
    rfl

theorem fieldSum_perm {cs ds : List Nat} (h : cs.Perm ds) (g : Nat → Byte) : fieldSum g cs = fieldSum g ds :=
  h.foldr_eq' (fun _ _ _ _ _ => by ac_rfl) 0

theorem gmul_fieldSum (a : Byte) (g : Nat → Byte) (cs : List Nat) :
    gmul a (fieldSum g cs) = fieldSum (fun c => gmul a (g c)) cs := by
  induction cs with
  | nil => simp
  | cons c cs ih => rw [fieldSum_cons, gmul_xor, ih, fieldSum_cons]

theorem fieldSum_xor (g h : Nat → Byte) (cs : List Nat) :
    fieldSum (fun c => g c ^^^ h c) cs = fieldSum g cs ^^^ fieldSum h cs := by
  induction cs with
  | nil => simp
  | cons c cs ih =>
    simp only [fieldSum_cons, ih]
    ac_rfl

/-- Positions whose terms are 0 can be left out. -/
theorem fieldSum_eq_of_subset {g : Nat → Byte} {cs ds : List Nat} (hcs : cs.Nodup) (hsub : cs ⊆ ds)
    (hds : ds.Nodup) (hg : ∀ c ∈ ds, c ∉ cs → g c = 0) : fieldSum g ds = fieldSum g cs := by
  have hin : (ds.filter (· ∈ cs)).Perm cs :=
    (List.perm_ext_iff_of_nodup (hds.filter _) hcs).2 fun c => by
      rw [List.mem_filter, decide_eq_true_iff]
      exact ⟨fun h => h.2, fun h => ⟨hsub h, h⟩⟩
  have hout : fieldSum g (ds.filter fun c => !decide (c ∈ cs)) = 0 := fieldSum_eq_zero fun c hc => by
    obtain ⟨hc, hnot⟩ := List.mem_filter.1 hc
    exact hg c hc (by simpa using hnot)
  calc fieldSum g ds
      = fieldSum g (ds.filter (· ∈ cs) ++ ds.filter fun c => !decide (c ∈ cs)) :=
        (fieldSum_perm (List.filter_append_perm _ ds) g).symm
    _ = fieldSum g cs := by
        rw [fieldSum_append, hout, fieldSum_perm hin]
        exact BitVec.xor_zero

/-- A sum with one term that is not 0. -/
theorem fieldSum_eq_single {g : Nat → Byte} {cs : List Nat} (hcs : cs.Nodup) {c : Nat} (hc : c ∈ cs)
    (hg : ∀ d ∈ cs, d ≠ c → g d = 0) : fieldSum g cs = g c := by
  rw [fieldSum_eq_of_subset (List.nodup_singleton c) (by simpa using hc) hcs fun d hd hne =>
    hg d hd (by simpa using hne)]
  exact BitVec.xor_zero

/-! ## Power sums -/

/-- The power sum of index j: the magnitudes y c at the coefficient positions c, times the j-th powers of the locator
values 2^c. -/
def powerSum (y : Nat → Byte) (cs : List Nat) (j : Nat) : Byte :=
  fieldSum (fun c => gmul (y c) (expTable (c * j))) cs

/-- The first t power sums. -/
def powerSums (y : Nat → Byte) (cs : List Nat) (t : Nat) : List Byte := (List.range t).map (powerSum y cs)

@[simp] theorem powerSums_length (y : Nat → Byte) (cs : List Nat) (t : Nat) : (powerSums y cs t).length = t := by
  simp [powerSums]

theorem powerSums_getD {j t : Nat} (hj : j < t) (y : Nat → Byte) (cs : List Nat) :
    (powerSums y cs t).getD j 0 = powerSum y cs j := by
  simp [powerSums, hj]

/-- Positions whose magnitudes are 0 can be left out. -/
theorem powerSums_eq_of_subset {y : Nat → Byte} {cs ds : List Nat} (hcs : cs.Nodup) (hsub : cs ⊆ ds)
    (hds : ds.Nodup) (hy : ∀ c ∈ ds, c ∉ cs → y c = 0) (t : Nat) : powerSums y ds t = powerSums y cs t :=
  List.map_congr_left fun j _ => fieldSum_eq_of_subset hcs hsub hds fun c hc hnot => by
    rw [hy c hc hnot]
    exact zero_gmul _

theorem expTable_add (i j : Nat) : expTable (i + j) = gmul (expTable i) (expTable j) := by
  simp only [← expInt_natCast, gmul_expInt, Nat.cast_add]

theorem expTable_mul_succ (c j : Nat) : expTable (c * (j + 1)) = gmul (expTable c) (expTable (c * j)) := by
  rw [Nat.mul_succ, Nat.add_comm, expTable_add]

/-- The magnitudes after the pass for the coefficient position q: that of q itself becomes 0. -/
def passMagnitude (q : Nat) (y : Nat → Byte) (c : Nat) : Byte := gmul (y c) (expTable q ^^^ expTable c)

/-- A pass turns power sums into power sums of one index less. -/
theorem powerSum_passMagnitude (q : Nat) (y : Nat → Byte) (cs : List Nat) (j : Nat) :
    powerSum (passMagnitude q y) cs j = gmul (powerSum y cs j) (expTable q) ^^^ powerSum y cs (j + 1) := by
  rw [gmul_comm, powerSum, powerSum, powerSum, gmul_fieldSum, ← fieldSum_xor]
  refine fieldSum_congr fun c _ => ?_
  rw [passMagnitude, gmul_xor, xor_gmul, expTable_mul_succ, gmul_comm (expTable q)]
  simp only [gmul_assoc, gmul_comm (expTable q)]

/-- The locator values are different, so magnitudes whose first power sums are 0 are 0: a pass for one position leaves
one power sum less to the others. -/
theorem eq_zero_of_powerSum_eq_zero {cs : List Nat} (hcs : cs.Nodup) (hlt : ∀ c ∈ cs, c < 255) {y : Nat → Byte}
    (h : ∀ j, j < cs.length → powerSum y cs j = 0) : ∀ c ∈ cs, y c = 0 := by
  induction cs generalizing y with
  | nil => simp
  | cons a cs ih =>
    obtain ⟨ha, hcs⟩ := List.nodup_cons.1 hcs
    obtain ⟨halt, hlt⟩ := List.forall_mem_cons.1 hlt
    have hpass : ∀ c ∈ cs, passMagnitude a y c = 0 := ih hcs hlt fun j hj => by
      have hj' : j + 1 < (a :: cs).length := Nat.succ_lt_succ hj
      have hsum := powerSum_passMagnitude a y (a :: cs) j
      rw [h j (Nat.lt_of_succ_lt hj'), h (j + 1) hj'] at hsum
      simpa [powerSum, passMagnitude] using hsum
    have htail : ∀ c ∈ cs, y c = 0 := fun c hc => by
      refine (gmul_eq_zero.1 (hpass c hc)).resolve_right fun heq => ha ?_
      rw [expTable_inj halt (hlt c hc) (BitVec.xor_eq_zero_iff.1 heq)]
      exact hc
    have hhead := h 0 (Nat.succ_pos _)
    rw [powerSum, fieldSum_cons, fieldSum_eq_zero fun c hc => by rw [htail c hc]; exact zero_gmul _] at hhead
    have hone : expTable (a * 0) = 1 := by
      rw [Nat.mul_zero]
      rfl
    rw [hone] at hhead
    exact List.forall_mem_cons.2 ⟨by simpa using hhead, htail⟩

/-! ## The syndrome as a power sum (R138) -/

/-- The coefficient of x^c in the sequence w. -/
def coefficientAt (w : Poly) (c : Nat) : Byte := w.getD (w.length - 1 - c) 0

theorem peval_eq_powerSum (w : Poly) (j : Nat) :
    peval w (expTable j) = powerSum (coefficientAt w) (List.range w.length) j := by
  induction w with
  | nil => rfl
  | cons a w ih =>
    have htail : powerSum (coefficientAt (a :: w)) (List.range w.length) j =
        powerSum (coefficientAt w) (List.range w.length) j := fieldSum_congr fun c hc => by
      have hc : c < w.length := List.mem_range.1 hc
      have hidx : (a :: w).length - 1 - c = w.length - 1 - c + 1 := by simp; omega
      rw [coefficientAt, hidx, List.getD_cons_succ, coefficientAt]
    have hhead : coefficientAt (a :: w) w.length = a := by simp [coefficientAt]
    rw [peval_cons, peval_monomial_expTable, ih, ← htail, List.length_cons, List.range_succ, powerSum, powerSum,
      fieldSum_append, fieldSum_cons, hhead, Nat.mul_comm j, BitVec.xor_comm]
    congr 1
    exact BitVec.xor_zero.symm

theorem syndrome_eq_powerSums (w : Poly) (t : Nat) :
    syndrome w t = powerSums (coefficientAt w) (List.range w.length) t :=
  List.map_congr_left fun j _ => peval_eq_powerSum w j

/-- A codeword does not count in the syndrome. -/
theorem syndrome_padd_of_codeword {w c : Poly} {t : Nat} (hc : syndrome c t = zeros t) :
    syndrome (padd w c) t = syndrome w t :=
  List.map_congr_left fun i hi => by
    rw [peval_padd, syndrome_eq_zeros_iff.1 hc i (List.mem_range.1 hi)]
    exact BitVec.xor_zero

/-! ## The Forney syndromes of power sums (R166) -/

theorem forneyPass_powerSums (q : Nat) (y : Nat → Byte) (cs : List Nat) (t : Nat) :
    forneyPass (expTable q) (powerSums y cs t) = powerSums (passMagnitude q y) cs (t - 1) := by
  refine List.ext_getElem (by simp) fun j hj _ => ?_
  have hj : j < t - 1 := by simpa using hj
  simp [forneyPass, powerSums, powerSum_passMagnitude]

/-- The magnitudes after one pass for each erasure. -/
def forneyMagnitude (es : List Nat) (n : Nat) (y : Nat → Byte) : Nat → Byte :=
  es.foldl (fun y q => passMagnitude (n - 1 - q) y) y

theorem forneySyndromes_powerSums (es : List Nat) (n : Nat) (y : Nat → Byte) (cs : List Nat) (t : Nat) :
    forneySyndromes (powerSums y cs t) es n = powerSums (forneyMagnitude es n y) cs (t - es.length) := by
  induction es generalizing y t with
  | nil => rfl
  | cons q es ih =>
    have hstep : forneySyndromes (powerSums y cs t) (q :: es) n =
        forneySyndromes (powerSums (passMagnitude (n - 1 - q) y) cs (t - 1)) es n := by
      rw [← forneyPass_powerSums]
      rfl
    rw [hstep, ih, List.length_cons, Nat.add_comm es.length, ← Nat.sub_sub]
    rfl

/-- The passes remove the erased positions and no other. -/
theorem forneyMagnitude_eq_zero {es : List Nat} {n : Nat} (hn : n ≤ 255) (hes : ∀ q ∈ es, q < n) {c : Nat} (hc : c < n)
    (y : Nat → Byte) : forneyMagnitude es n y c = 0 ↔ y c = 0 ∨ n - 1 - c ∈ es := by
  induction es generalizing y with
  | nil => simp [forneyMagnitude]
  | cons q es ih =>
    obtain ⟨hq, hes⟩ := List.forall_mem_cons.1 hes
    have hpass : passMagnitude (n - 1 - q) y c = 0 ↔ y c = 0 ∨ n - 1 - c = q := by
      refine gmul_eq_zero.trans (or_congr_right (BitVec.xor_eq_zero_iff.trans ?_))
      constructor
      · intro h
        have := expTable_inj (by omega) (by omega) h
        omega
      · intro h
        rw [show n - 1 - q = c by omega]
    refine (ih hes _).trans ?_
    rw [hpass, List.mem_cons, or_assoc]

end Sys2Proof.Machine

end

/-! SUPPORT. The Berlekamp-Massey pass on power sums (R167, R168): it finds the locator of the positions, provided that
there are twice as many power sums as positions. -/

section

namespace Sys2Proof.Machine

/-! ## The products of a sequence with a window of the syndromes -/

/-- The sum of the products of the entries of p with the entries of f from index k on. With the locator for p it is the
discrepancy of R167 at index k + len(p) - 1. -/
def correlation (f : List Byte) : Poly → Nat → Byte
  | [], _ => 0
  | a :: p, k => gmul a (f.getD k 0) ^^^ correlation f p (k + 1)

@[simp] theorem correlation_nil (f : List Byte) (k : Nat) : correlation f [] k = 0 := rfl

theorem correlation_concat (f : List Byte) (p : Poly) (a : Byte) (k : Nat) :
    correlation f (p ++ [a]) k = correlation f p k ^^^ gmul a (f.getD (k + p.length) 0) := by
  induction p generalizing k with
  | nil => simp [correlation]
  | cons b p ih =>
    rw [List.cons_append, correlation, ih, correlation, List.length_cons, Nat.add_right_comm k 1, Nat.add_assoc k,
      BitVec.xor_assoc]

/-- A shift of the auxiliary polynomial by x changes nothing. -/
theorem correlation_concat_zero (f : List Byte) (p : Poly) (k : Nat) :
    correlation f (p ++ [0]) k = correlation f p k := by
  simp [correlation_concat]

theorem correlation_pscale (f : List Byte) (p : Poly) (a : Byte) (k : Nat) :
    correlation f (pscale p a) k = gmul (correlation f p k) a := by
  induction p using List.reverseRecOn with
  | nil => simp [pscale]
  | append_singleton p b ih =>
    rw [pscale_concat, correlation_concat, correlation_concat, ih, pscale_length, xor_gmul, gmul_assoc, gmul_assoc,
      gmul_comm a]

/-- Sums are aligned at the constant term, so the longer operand starts at the window's index (R131). -/
theorem correlation_padd (f : List Byte) (p q : Poly) (k : Nat) :
    correlation f (padd p q) k =
      correlation f p (k + (q.length - p.length)) ^^^ correlation f q (k + (p.length - q.length)) := by
  induction p, q using concat_induction₂ with
  | nil_left q => simp
  | nil_right p => simp
  | concat p q u v ih =>
    have hp : k + (q.length - p.length) + p.length = k + (padd p q).length := by rw [padd_length]; omega
    have hq : k + (p.length - q.length) + q.length = k + (padd p q).length := by rw [padd_length]; omega
    rw [padd_concat, correlation_concat, correlation_concat, correlation_concat, ih]
    simp only [List.length_append, List.length_singleton, Nat.add_sub_add_right, hp, hq, xor_gmul]
    ac_rfl

/-- The discrepancy sums the products from the constant term on, the correlation from the other end. -/
theorem foldl_discrepancy (f : List Byte) (l : Poly) (r m : Nat) (hm : m ≤ l.length) (hr : l.length ≤ r) :
    (List.range m).foldl
        (fun d i => d ^^^ gmul ((l ++ [1]).getD (l.length - (i + 1)) 0) (f.getD (r - (i + 1)) 0)) (f.getD r 0) =
      f.getD r 0 ^^^ correlation f (l.drop (l.length - m)) (r - m) := by
  induction m with
  | zero => simp
  | succ m ih =>
    have hidx : l.length - (m + 1) < l.length := by omega
    have hnext : l.length - (m + 1) + 1 = l.length - m := by omega
    have hwindow : r - (m + 1) + 1 = r - m := by omega
    have hentry : (l ++ [1]).getD (l.length - (m + 1)) 0 = l[l.length - (m + 1)] := by
      simp [List.getD_eq_getElem?_getD, hidx]
    rw [List.range_succ, List.foldl_append, ih (by omega), List.foldl_cons, List.foldl_nil, hentry,
      List.drop_eq_getElem_cons hidx, correlation, hnext, hwindow]
    ac_rfl

/-- The discrepancy of a locator whose constant term is 1 (R167). -/
theorem discrepancy_eq_correlation (f : List Byte) {loc : Poly} (hconst : loc.getLast? = some 1) {r k : Nat}
    (hk : k + loc.length = r + 1) : discrepancy f loc r = correlation f loc k := by
  obtain ⟨l, rfl⟩ := List.getLast?_eq_some_iff.1 hconst
  obtain rfl : r = k + l.length := by simpa [← Nat.add_assoc] using hk.symm
  have hlen : (l ++ [(1 : Byte)]).length - 1 = l.length := by simp
  simp only [discrepancy, hlen]
  rw [foldl_discrepancy f l _ _ (Nat.le_refl _) (Nat.le_add_left ..), correlation_concat, Nat.sub_self, List.drop_zero,
    Nat.add_sub_cancel, BitVec.xor_comm]
  congr 1
  exact (one_gmul _).symm

/-- On power sums, a window's products weigh each magnitude by the value of the reversed sequence at its locator
value. -/
theorem correlation_powerSums (y : Nat → Byte) (cs : List Nat) {t : Nat} (p : Poly) {k : Nat}
    (hk : k + p.length ≤ t) :
    correlation (powerSums y cs t) p k = powerSum (fun c => gmul (y c) (peval p.reverse (expTable c))) cs k := by
  induction p generalizing k with
  | nil => exact (fieldSum_eq_zero fun c _ => by simp).symm
  | cons a p ih =>
    rw [List.length_cons] at hk
    rw [correlation, ih (by omega), powerSums_getD (by omega), powerSum, powerSum, powerSum, gmul_fieldSum,
      ← fieldSum_xor]
    refine fieldSum_congr fun c _ => ?_
    rw [List.reverse_cons, peval_concat, gmul_xor, xor_gmul, expTable_mul_succ, BitVec.xor_comm, gmul_comm (y c) a]
    simp only [gmul_assoc]

/-! ## The invariant of the iterations (R167) -/

/-- What holds of the locator and the auxiliary polynomial before iteration r, for at most m errors: together they have
r + 2 coefficients; the locator has at most m + 1 of them, and its discrepancy was 0 wherever it has been tested; and
the auxiliary polynomial, scaled as it is, has the discrepancies 0 to 0 and 1 that the next correction calls for. -/
structure MasseyInv (f : List Byte) (m r : Nat) (loc aux : Poly) : Prop extends LocatorInv r loc aux where
  length_sum : loc.length + aux.length = r + 2
  locator_length_le : loc.length ≤ m + 1
  locator_zero : ∀ k, k + loc.length ≤ r → correlation f loc k = 0
  aux_zero : ∀ k, k + 2 < loc.length → correlation f aux k = 0
  aux_one : ∀ k, k + 2 = loc.length → correlation f aux k = 1

theorem masseyInv_init (f : List Byte) (m : Nat) : MasseyInv f m 0 [1] [1] where
  constant_term := rfl
  locator_length := Nat.le_refl _
  aux_length := Nat.le_refl _
  length_sum := rfl
  locator_length_le := Nat.le_add_left ..
  locator_zero := fun k hk => by simp at hk
  aux_zero := fun k hk => by simp at hk
  aux_one := fun k hk => by simp at hk

/-- A sequence of power sums of m positions: a locator whose discrepancy was 0 at m indexes in a row has it 0 at the
next one too. -/
def Recurrent (f : List Byte) (m : Nat) : Prop :=
  ∀ p k, m ≤ k → k + p.length ≤ f.length → (∀ j, j < k → correlation f p j = 0) → correlation f p k = 0

section

variable {y : Nat → Byte} {cs : List Nat} (hcs : cs.Nodup) (hlt : ∀ c ∈ cs, c < 255)

include hcs hlt

/-- A sequence with as many discrepancies of 0 in a row as there are positions is 0 at every locator value. -/
theorem weights_eq_zero {t : Nat} {p : Poly} (hp : cs.length + p.length ≤ t + 1)
    (h : ∀ j, j < cs.length → correlation (powerSums y cs t) p j = 0) :
    ∀ c ∈ cs, gmul (y c) (peval p.reverse (expTable c)) = 0 :=
  eq_zero_of_powerSum_eq_zero hcs hlt fun j hj => by
    rw [← correlation_powerSums y cs p (by omega : j + p.length ≤ t), h j hj]

theorem recurrent_powerSums (t : Nat) : Recurrent (powerSums y cs t) cs.length := by
  intro p k hk hkt h
  rw [powerSums_length] at hkt
  rw [correlation_powerSums y cs p hkt]
  refine fieldSum_eq_zero fun c hc => ?_
  exact gmul_of_eq_zero (.inl (weights_eq_zero hcs hlt (by omega) (fun j hj => h j (by omega)) c hc))

end

/-! ## The iterations keep the invariant -/

section

variable {f : List Byte} {m r : Nat} {loc aux : Poly} {d : Byte} (h : MasseyInv f m r loc aux)
  (hd : ∀ k, k + loc.length = r + 1 → correlation f loc k = d)

include h hd

/-- Without a discrepancy the locator has been tested at one more index. -/
theorem masseyInv_of_eq_zero (h0 : d = 0) (hinv : LocatorInv (r + 1) loc (aux ++ [0])) :
    MasseyInv f m (r + 1) loc (aux ++ [0]) where
  toLocatorInv := hinv
  length_sum := by
    have := h.length_sum
    rw [List.length_append, List.length_singleton]
    omega
  locator_length_le := h.locator_length_le
  locator_zero := fun k hk => by
    rcases Nat.lt_or_ge (k + loc.length) (r + 1) with hlt | hge
    · exact h.locator_zero k (by omega)
    · exact (hd k (by omega)).trans h0
  aux_zero := fun k hk => (correlation_concat_zero f aux k).trans (h.aux_zero k hk)
  aux_one := fun k hk => (correlation_concat_zero f aux k).trans (h.aux_one k hk)

/-- A long locator is corrected in place: the auxiliary polynomial's discrepancy 1, scaled by d, meets d. -/
theorem masseyInv_of_ge (hge : ¬ loc.length < (aux ++ [0]).length)
    (hinv : LocatorInv (r + 1) (padd loc (pscale (aux ++ [0]) d)) (aux ++ [0])) :
    MasseyInv f m (r + 1) (padd loc (pscale (aux ++ [0]) d)) (aux ++ [0]) := by
  have hsum := h.length_sum
  have hauxLen : (aux ++ [0]).length = aux.length + 1 := List.length_append
  have hlen : (padd loc (pscale (aux ++ [0]) d)).length = loc.length := by
    rw [padd_length, pscale_length]
    omega
  have hcorr : ∀ k, correlation f (padd loc (pscale (aux ++ [0]) d)) k =
      correlation f loc k ^^^ gmul (correlation f aux (k + (loc.length - (aux.length + 1)))) d := fun k => by
    rw [correlation_padd, correlation_pscale, pscale_length, hauxLen, correlation_concat_zero,
      Nat.sub_eq_zero_of_le (by omega), Nat.add_zero]
  exact { hinv with
    length_sum := by omega
    locator_length_le := hlen.trans_le h.locator_length_le
    locator_zero := fun k hk => by
      rw [hcorr]
      rcases Nat.lt_or_ge (k + loc.length) (r + 1) with hlt | hge
      · rw [h.locator_zero k (by omega), h.aux_zero _ (by omega)]
        simp
      · rw [hd k (by omega), h.aux_one _ (by omega)]
        simp
    aux_zero := fun k hk => (correlation_concat_zero f aux k).trans (h.aux_zero k (hlen ▸ hk))
    aux_one := fun k hk => (correlation_concat_zero f aux k).trans (h.aux_one k (hlen ▸ hk)) }

/-- A short locator gives way to the scaled auxiliary polynomial, and takes its place, scaled to the discrepancy 1. It
grows within the bound: were it longer, its discrepancy would have been 0 at too many indexes for d not to be 0. -/
theorem masseyInv_of_lt (hf : Recurrent f m) (hr : r < f.length) (h0 : d ≠ 0) (hlt : loc.length < (aux ++ [0]).length)
    {di : Byte} (hdi : gmul di d = 1)
    (hinv : LocatorInv (r + 1) (padd (pscale (aux ++ [0]) d) (pscale (pscale loc di) d)) (pscale loc di)) :
    MasseyInv f m (r + 1) (padd (pscale (aux ++ [0]) d) (pscale (pscale loc di) d)) (pscale loc di) := by
  have hsum := h.length_sum
  have hlocLen := h.locator_length
  have hauxLen : (aux ++ [0]).length = aux.length + 1 := List.length_append
  have hlen : (padd (pscale (aux ++ [0]) d) (pscale (pscale loc di) d)).length = aux.length + 1 := by
    simp only [padd_length, pscale_length]
    omega
  have hcorr : ∀ k, correlation f (padd (pscale (aux ++ [0]) d) (pscale (pscale loc di) d)) k =
      gmul (correlation f aux k) d ^^^ correlation f loc (k + (aux.length + 1 - loc.length)) := fun k => by
    rw [correlation_padd]
    simp only [correlation_pscale, pscale_length, hauxLen, correlation_concat_zero, gmul_assoc, hdi]
    rw [Nat.sub_eq_zero_of_le (by omega), Nat.add_zero]
    simp
  have hbound : aux.length ≤ m := by
    by_contra hm
    refine h0 ((hd (r + 1 - loc.length) (by omega)).symm.trans ?_)
    exact hf loc _ (by omega) (by omega) fun j hj => h.locator_zero j (by omega)
  exact { hinv with
    length_sum := by
      rw [hlen, pscale_length]
      omega
    locator_length_le := hlen.trans_le (Nat.succ_le_succ hbound)
    locator_zero := fun k hk => by
      rw [hcorr]
      rcases Nat.lt_or_ge (k + aux.length) r with hlt | hge
      · rw [h.aux_zero _ (by omega), h.locator_zero _ (by omega)]
        simp
      · rw [h.aux_one _ (by omega), hd _ (by omega)]
        simp
    aux_zero := fun k hk => by
      rw [correlation_pscale, h.locator_zero k (by omega)]
      exact zero_gmul di
    aux_one := fun k hk => by rw [correlation_pscale, hd k (by omega), gmul_comm, hdi] }

end

theorem bmStep_massey {f : List Byte} {m r : Nat} {loc aux : Poly} (hf : Recurrent f m) (hr : r < f.length)
    (h : MasseyInv f m r loc aux) :
    ∃ loc' aux', bmStep f (loc, aux) r = .ok (loc', aux') ∧ MasseyInv f m (r + 1) loc' aux' := by
  obtain ⟨loc', aux', hstep, hinv⟩ := bmStep_inv f r h.toLocatorInv
  refine ⟨loc', aux', hstep, ?_⟩
  obtain ⟨d, hd⟩ : ∃ d, discrepancy f loc r = d := ⟨_, rfl⟩
  have hdk : ∀ k, k + loc.length = r + 1 → correlation f loc k = d := fun k hk => by
    rw [← discrepancy_eq_correlation f h.constant_term hk, hd]
  by_cases h0 : d = 0
  · rw [bmStep_of_eq_zero (hd.trans h0)] at hstep
    cases hstep
    exact masseyInv_of_eq_zero h hdk h0 hinv
  by_cases hlt : loc.length < (aux ++ [0]).length
  · obtain ⟨di, hdi, hmul⟩ := exists_ginv_eq h0
    rw [bmStep_of_lt hd h0 hlt hdi] at hstep
    cases hstep
    exact masseyInv_of_lt h hdk hf hr h0 hlt hmul hinv
  · rw [bmStep_of_ge hd h0 hlt] at hstep
    cases hstep
    exact masseyInv_of_ge h hdk hlt hinv

theorem bmLoop_massey {f : List Byte} {m : Nat} (hf : Recurrent f m) (k : Nat) {r : Nat} (hr : r + k = f.length)
    {loc aux : Poly} (h : MasseyInv f m r loc aux) :
    ∃ loc' aux', bmLoop f (List.range' r k) (loc, aux) = .ok (loc', aux') ∧ MasseyInv f m f.length loc' aux' := by
  induction k generalizing r loc aux with
  | zero => exact ⟨loc, aux, rfl, hr ▸ h⟩
  | succ k ih =>
    obtain ⟨loc', aux', hstep, h'⟩ := bmStep_massey hf (by omega) h
    obtain ⟨loc'', aux'', hloop, h''⟩ := ih (r := r + 1) (by omega) h'
    exact ⟨loc'', aux'', (bmLoop_cons hstep).trans hloop, h''⟩

/-! ## The locator that the pass finds -/

/-- Two monic polynomials with the same roots, as many as the degree of the one and no fewer than that of the other,
are equal. -/
theorem eq_of_monic_roots {vs : List Byte} (hvs : vs.Nodup) {p q : Poly} (hp : p.head? = some 1)
    (hq : q.head? = some 1) (hplen : p.length ≤ vs.length + 1) (hqlen : q.length = vs.length + 1)
    (hpv : ∀ v ∈ vs, peval p v = 0) (hqv : ∀ v ∈ vs, peval q v = 0) : p = q := by
  obtain ⟨p', rfl⟩ := List.head?_eq_some_iff.1 hp
  obtain ⟨q', rfl⟩ := List.head?_eq_some_iff.1 hq
  simp only [List.length_cons] at hplen hqlen
  rcases Nat.lt_or_ge p'.length vs.length with hlt | hge
  · have hzero := eq_zeros_of_roots hvs (show (1 :: p').length ≤ vs.length from hlt) hpv
    simp [zeros, List.replicate_succ] at hzero
  · have hlen : p'.length = q'.length := by omega
    congr 1
    refine eq_of_peval_eq hvs hlen (by omega) fun v hv => ?_
    have hpv' := hpv v hv
    have hqv' := hqv v hv
    rw [peval_cons] at hpv' hqv'
    rw [← BitVec.xor_eq_zero_iff.1 hpv', ← BitVec.xor_eq_zero_iff.1 hqv', hlen]

theorem normalise_of_head?_ne {p : Poly} (h : p.head? ≠ some 0) : normalise p = p := by
  match p with
  | [] => rfl
  | [_] => rfl
  | c :: d :: p => exact if_neg fun hc => h (congrArg some hc)

theorem errataLocator_head? (cs : List Nat) : (errataLocator cs).head? ≠ some 0 := by
  induction cs using List.reverseRecOn with
  | nil => simp [errataLocator]
  | append_singleton cs c ih =>
    obtain ⟨a, l, hl⟩ := List.exists_cons_of_length_eq_add_one (errataLocator_length cs)
    rw [hl, List.head?_cons] at ih
    rw [errataLocator_concat, hl, pmul_head?]
    exact fun h => gmul_ne_zero (expTable_ne_zero c) (fun ha => ih (congrArg some ha)) (Option.some.inj h)

theorem peval_errataLocator_reverse_eq_zero {cs : List Nat} {c : Nat} (hc : c ∈ cs) :
    peval (errataLocator cs).reverse (expTable c) = 0 := by
  rw [errataLocator_reverse, peval_foldl_pmul_eq_zero]
  exact ⟨c, hc, (peval_root_factor c _).2 rfl⟩

/-- With twice as many power sums as positions, the pass finds the locator of the positions (R167, R168). -/
theorem berlekampMassey_powerSums {y : Nat → Byte} {cs : List Nat} (hcs : cs.Nodup) (hlt : ∀ c ∈ cs, c < 255)
    (hy : ∀ c ∈ cs, y c ≠ 0) {t : Nat} (ht : 2 * cs.length ≤ t) :
    berlekampMassey (powerSums y cs t) = .ok (errataLocator cs) := by
  obtain ⟨loc, aux, hloop, hinv⟩ := bmLoop_massey (recurrent_powerSums hcs hlt t) (powerSums y cs t).length
    (Nat.zero_add _) (masseyInv_init _ cs.length)
  have hlen := hinv.locator_length_le
  have hroots : ∀ c ∈ cs, peval loc.reverse (expTable c) = 0 := fun c hc => by
    refine (gmul_eq_zero.1 (weights_eq_zero hcs hlt (t := t) (by omega) (fun j hj => ?_) c hc)).resolve_left (hy c hc)
    refine hinv.locator_zero j ?_
    rw [powerSums_length]
    omega
  have hnodup : (cs.map expTable).Nodup := hcs.map_on fun c hc d hd => expTable_inj (hlt c hc) (hlt d hd)
  have hloc : loc.reverse = (errataLocator cs).reverse := by
    refine eq_of_monic_roots hnodup ?_ ?_ (by simpa using hlen) (by simp [errataLocator_length])
      (List.forall_mem_map.2 hroots) (List.forall_mem_map.2 fun c hc => peval_errataLocator_reverse_eq_zero hc)
    · rw [List.head?_reverse, hinv.constant_term]
    · rw [List.head?_reverse, errataLocator_getLast?]
  rw [berlekampMassey, List.range_eq_range', hloop, List.reverse_inj.1 hloc]
  exact congrArg Except.ok (normalise_of_head?_ne (errataLocator_head? cs))

end Sys2Proof.Machine

end

/-! SUPPORT. Forney's formula (R172 to R177): on power sums the correction adds the magnitude of every
errata position. -/

section

namespace Sys2Proof.Machine

/-! ## Products with the errata locator -/

theorem pmul_padd_pair (p q : Poly) (a b : Byte) :
    pmul (padd p q) [a, b] = padd (pmul p [a, b]) (pmul q [a, b]) := by
  have hconcat : ∀ p q : Poly, padd p q ++ [0] = padd (p ++ [0]) (q ++ [0]) := fun p q => (padd_concat p q 0 0).symm
  simp only [pmul_pair, pscale_padd, hconcat]
  rw [padd_padd_padd_comm]

theorem pmul_pscale_pair (p : Poly) (k a b : Byte) : pmul (pscale p k) [a, b] = pscale (pmul p [a, b]) k := by
  have hconcat : pscale p a ++ [0] = pscale p a ++ [0#8] := rfl
  rw [pmul_pair, pmul_pair, pscale_padd, hconcat, pscale_concat, pscale_comm p a, pscale_comm p b, zero_gmul]
  rfl

theorem pmul_append_zeros_pair (p : Poly) (n : Nat) (a b : Byte) :
    pmul (p ++ zeros n) [a, b] = pmul p [a, b] ++ zeros n := by
  have happend : ∀ k, pscale (p ++ zeros n) k = pscale p k ++ zeros n := fun k => by simp [pscale, zeros]
  have hshift : zeros n ++ [0] = [0] ++ zeros n := (zeros_succ n).symm.trans List.replicate_succ
  rw [pmul_pair, pmul_pair, happend, happend, List.append_assoc, hshift, ← List.append_assoc, padd_append rfl,
    padd_self, zeros_length]

theorem pmul_ne_nil {p q : Poly} (hp : p ≠ []) (hq : q ≠ []) : pmul p q ≠ [] := by
  have := List.length_pos_iff.2 hp
  have := List.length_pos_iff.2 hq
  refine List.length_pos_iff.1 ?_
  rw [pmul_length _ _ hq]
  omega

/-- A linear factor can be taken out of a product. -/
theorem pmul_assoc_pair (p : Poly) {l : Poly} (hl : l ≠ []) (a b : Byte) :
    pmul p (pmul l [a, b]) = pmul (pmul p l) [a, b] := by
  have hlpos := List.length_pos_iff.2 hl
  have hne : pmul l [a, b] ≠ [] := pmul_ne_nil hl (by simp)
  induction p with
  | nil =>
    rw [pmul, pmul, pmul_zeros _ (by simp), pmul_length _ _ (by simp)]
    congr 1
    simp
    omega
  | cons c p ih =>
    have hzero : pmul (0 :: pmul p l) [a, b] = 0 :: pmul (pmul p l) [a, b] := by
      rw [pmul, BitVec.ofNat_eq_ofNat, pscale_zero, xorAt_zeros]
    rw [pmul_cons c p hne, pmul_cons c p hl, ih, pmul_padd_pair, pmul_append_zeros_pair, pmul_pscale_pair, hzero]

theorem errataLocator_ne_nil (cs : List Nat) : errataLocator cs ≠ [] :=
  List.length_pos_iff.1 (by rw [errataLocator_length]; omega)

theorem pmul_one (p : Poly) : pmul p [1] = p := by
  induction p with
  | nil => rfl
  | cons c p ih => simpa [pmul, pscale, xorAt] using ih

theorem pmul_errataLocator_concat (p : Poly) (cs : List Nat) (c : Nat) :
    pmul p (errataLocator (cs ++ [c])) = pmul (pmul p (errataLocator cs)) [expTable c, 1] := by
  rw [errataLocator_concat, pmul_assoc_pair _ (errataLocator_ne_nil cs)]

theorem pmul_errataLocator_eq_foldl (p : Poly) (cs : List Nat) :
    pmul p (errataLocator cs) = cs.foldl (fun l c => pmul l [expTable c, 1]) p := by
  induction cs using List.reverseRecOn with
  | nil => exact pmul_one p
  | append_singleton cs c ih =>
    rw [pmul_errataLocator_concat, ih, List.foldl_append]
    rfl

/-- In a product with the locator the factor of any of its positions can come first. -/
theorem pmul_errataLocator_perm {cs rest : List Nat} {c : Nat} (h : cs.Perm (c :: rest)) (p : Poly) :
    pmul p (errataLocator cs) = pmul (pmul p [expTable c, 1]) (errataLocator rest) := by
  rw [pmul_errataLocator_eq_foldl, pmul_errataLocator_eq_foldl]
  exact h.foldl_eq' (fun _ _ _ _ l => pmul_pair_comm l _ _ _ _) p

theorem pmul_padd_errataLocator (p q : Poly) (cs : List Nat) :
    pmul (padd p q) (errataLocator cs) = padd (pmul p (errataLocator cs)) (pmul q (errataLocator cs)) := by
  induction cs using List.reverseRecOn with
  | nil => exact (pmul_one _).trans (congrArg₂ padd (pmul_one p).symm (pmul_one q).symm)
  | append_singleton cs c ih => simp only [pmul_errataLocator_concat, ih, pmul_padd_pair]

theorem pmul_pscale_errataLocator (p : Poly) (k : Byte) (cs : List Nat) :
    pmul (pscale p k) (errataLocator cs) = pscale (pmul p (errataLocator cs)) k := by
  induction cs using List.reverseRecOn with
  | nil => exact (pmul_one _).trans (congrArg (pscale · k) (pmul_one p).symm)
  | append_singleton cs c ih => simp only [pmul_errataLocator_concat, ih, pmul_pscale_pair]

theorem pmul_append_zeros_errataLocator (p : Poly) (n : Nat) (cs : List Nat) :
    pmul (p ++ zeros n) (errataLocator cs) = pmul p (errataLocator cs) ++ zeros n := by
  induction cs using List.reverseRecOn with
  | nil => exact (pmul_one _).trans (congrArg (· ++ zeros n) (pmul_one p).symm)
  | append_singleton cs c ih => simp only [pmul_errataLocator_concat, ih, pmul_append_zeros_pair]

/-! ## The evaluator is linear in the syndromes (R135, R140) -/

theorem peval_pmodx_zeros_append (n : Nat) (p : Poly) (t : Nat) (x : Byte) :
    peval (pmodx (zeros n ++ p) t) x = peval (pmodx p t) x := by
  have hidx : n + p.length - t - n = p.length - t := by omega
  rw [peval_pmodx, peval_pmodx, List.drop_append, List.length_append, zeros_length, hidx, zeros, List.drop_replicate]
  exact peval_zeros_append _ _ x

theorem peval_pmodx_padd (p q : Poly) (t : Nat) (x : Byte) :
    peval (pmodx (padd p q) t) x = peval (pmodx p t) x ^^^ peval (pmodx q t) x := by
  rw [← peval_pmodx_zeros_append (q.length - p.length) p, ← peval_pmodx_zeros_append (p.length - q.length) q, padd]
  have hlen : (zeros (q.length - p.length) ++ p).length = (zeros (p.length - q.length) ++ q).length := by
    simp
    omega
  generalize zeros (q.length - p.length) ++ p = p' at hlen ⊢
  generalize zeros (p.length - q.length) ++ q = q' at hlen ⊢
  rw [peval_pmodx, peval_pmodx, peval_pmodx, List.length_zipWith, List.drop_zipWith, hlen, Nat.min_self,
    ← padd_of_length_eq (by simp [hlen]), peval_padd]

theorem peval_pmodx_pscale (p : Poly) (k : Byte) (t : Nat) (x : Byte) :
    peval (pmodx (pscale p k) t) x = gmul (peval (pmodx p t) x) k := by
  rw [peval_pmodx, peval_pmodx, pscale_length, ← peval_pscale, pscale, pscale, List.map_drop]

theorem peval_pmodx_append_zeros (p : Poly) (t : Nat) (x : Byte) : peval (pmodx (p ++ zeros t) t) x = 0 := by
  rw [peval_pmodx, List.drop_left' (by simp)]
  exact peval_zeros t x

theorem peval_pmodx_of_length_le {p : Poly} {t : Nat} (h : p.length ≤ t) (x : Byte) :
    peval (pmodx p t) x = peval p x := by
  rw [peval_pmodx, Nat.sub_eq_zero_of_le h, List.drop_zero]

/-- The power sums of one position with the magnitude 1, highest index first: the start of the series
1 / (1 + 2^c x). -/
def geometric (c t : Nat) : Poly := ((List.range t).map fun j => expTable (c * j)).reverse

theorem geometric_succ (c t : Nat) : geometric c (t + 1) = expTable (c * t) :: geometric c t := by
  simp [geometric, List.range_succ]

theorem geometric_length (c t : Nat) : (geometric c t).length = t := by simp [geometric]

/-- The series times 1 + 2^c x leaves 1 and the term of x^t. -/
theorem pmul_geometric (c t : Nat) :
    pmul (geometric c t) [expTable c, 1] = padd ([expTable (c * t)] ++ zeros t) [1] := by
  induction t with
  | zero =>
    rw [Nat.mul_zero]
    rfl
  | succ t ih =>
    have hcons : 0 :: padd ([expTable (c * t)] ++ zeros t) [1] = padd ([0, expTable (c * t)] ++ zeros t) [1] :=
      (cons_padd (by simp) 0).symm
    have hscale : pscale [expTable c, 1] (expTable (c * t)) = [expTable (c * (t + 1)), expTable (c * t)] := by
      simp [pscale, expTable_mul_succ]
    have hsum : padd ([0, expTable (c * t)] ++ zeros t) ([expTable (c * (t + 1)), expTable (c * t)] ++ zeros t) =
        [expTable (c * (t + 1))] ++ zeros (t + 1) := by
      rw [padd_append rfl, padd_self, zeros_length]
      simp [padd, zeros, List.replicate_succ]
    rw [geometric_succ, pmul_cons _ _ (by simp), ih, geometric_length, hcons, hscale, padd_assoc, padd_comm [1],
      ← padd_assoc, hsum]

/-- For one position of the locator, the evaluator is the product of the other factors. -/
theorem peval_pmodx_pmul_geometric {cs rest : List Nat} {c : Nat} (h : cs.Perm (c :: rest)) {t : Nat}
    (ht : cs.length ≤ t) (x : Byte) :
    peval (pmodx (pmul (geometric c t) (errataLocator cs)) t) x = peval (errataLocator rest) x := by
  have hone : pmul [1] (errataLocator rest) = errataLocator rest := pmul_errataLocator_eq_foldl [1] rest
  rw [pmul_errataLocator_perm h, pmul_geometric, pmul_padd_errataLocator, pmul_append_zeros_errataLocator, hone,
    peval_pmodx_padd, peval_pmodx_append_zeros, peval_pmodx_of_length_le]
  · exact BitVec.zero_xor
  · rw [errataLocator_length]
    exact h.length_eq.symm.trans_le ht

theorem powerSums_cons_reverse (y : Nat → Byte) (d : Nat) (ds : List Nat) (t : Nat) :
    (powerSums y (d :: ds) t).reverse = padd (pscale (geometric d t) (y d)) (powerSums y ds t).reverse := by
  rw [padd_of_length_eq (by simp [geometric])]
  simp only [powerSums, pscale, geometric, ← List.map_reverse, List.map_map, List.zipWith_map, List.zipWith_self]
  exact List.map_congr_left fun j _ => congrArg (· ^^^ powerSum y ds j) (gmul_comm _ _)

/-- The evaluator's value is the sum of what the positions contribute, each times its magnitude. -/
theorem peval_errorEvaluator_powerSums (y : Nat → Byte) (ds cs : List Nat) (t : Nat) (x : Byte) :
    peval (errorEvaluator (powerSums y ds t) (errataLocator cs) t) x =
      fieldSum (fun d => gmul (y d) (peval (pmodx (pmul (geometric d t) (errataLocator cs)) t) x)) ds := by
  simp only [errorEvaluator]
  induction ds with
  | nil =>
    have hsum : powerSum y [] = fun _ => 0 := rfl
    have hzeros : (powerSums y [] t).reverse = [] ++ zeros t := by simp [powerSums, hsum, zeros]
    rw [hzeros, pmul_append_zeros_errataLocator, peval_pmodx_append_zeros, fieldSum_nil]
  | cons d ds ih =>
    rw [powerSums_cons_reverse, pmul_padd_errataLocator, pmul_pscale_errataLocator, peval_pmodx_padd,
      peval_pmodx_pscale, ih, fieldSum_cons, gmul_comm]

/-- Forney's formula (R175): at the inverse of a position's locator value only this position's magnitude counts, times
the product of the other factors. -/
theorem peval_errorEvaluator_at_inverse {cs rest : List Nat} (hcs : cs.Nodup) {c : Nat} (h : cs.Perm (c :: rest))
    {t : Nat} (ht : cs.length ≤ t) {xinv : Byte} (hinv : gmul xinv (expTable c) = 1) (y : Nat → Byte) :
    peval (errorEvaluator (powerSums y cs t) (errataLocator cs) t) xinv =
      gmul (y c) (peval (errataLocator rest) xinv) := by
  rw [peval_errorEvaluator_powerSums, ← peval_pmodx_pmul_geometric h ht]
  refine fieldSum_eq_single hcs (h.mem_iff.2 List.mem_cons_self) fun d hd hdc => ?_
  have hd' : cs.Perm (d :: cs.erase d) := List.perm_cons_erase hd
  have hc : c ∈ cs.erase d :=
    (List.mem_erase_of_ne (Ne.symm hdc)).2 (h.mem_iff.2 List.mem_cons_self)
  rw [peval_pmodx_pmul_geometric hd' ht, (peval_errataLocator_eq_zero _ xinv).2 ⟨c, hc, hinv⟩]
  exact gmul_zero _

/-! ## Coefficient positions -/

/-- The coefficient positions of positions of a word of n symbols. -/
theorem mem_map_coefficient {ps : List Nat} {n a : Nat} (hps : ∀ q ∈ ps, q < n) (ha : a < n) :
    a ∈ ps.map (fun q => n - 1 - q) ↔ n - 1 - a ∈ ps := by
  rw [List.mem_map]
  constructor
  · rintro ⟨q, hq, rfl⟩
    have := hps q hq
    rwa [show n - 1 - (n - 1 - q) = q by omega]
  · exact fun h => ⟨_, h, by omega⟩

theorem coefficients_nodup {ps : List Nat} {n : Nat} (hnodup : ps.Nodup) (hps : ∀ q ∈ ps, q < n) :
    (ps.map fun q => n - 1 - q).Nodup :=
  hnodup.map_on fun q hq r hr h => by
    have := hps q hq
    have := hps r hr
    omega

theorem coefficients_lt {ps : List Nat} {n : Nat} (hps : ∀ q ∈ ps, q < n) : ∀ a ∈ ps.map (fun q => n - 1 - q), a < n :=
  List.forall_mem_map.2 fun q hq => by
    have := hps q hq
    omega

/-! ## The correction on power sums -/

/-- The product of factors of the locator at v, as the denominator of R175 multiplies them. -/
theorem peval_errataLocator (cs : List Nat) (v : Byte) :
    peval (errataLocator cs) v = (cs.map fun c => 1 ^^^ gmul (expTable c) v).foldl gmul 1 := by
  induction cs using List.reverseRecOn with
  | nil => simp [errataLocator, peval]
  | append_singleton cs c ih =>
    rw [errataLocator_concat, peval_pmul, ih, peval_pair, BitVec.xor_comm, List.map_append, List.foldl_append]
    rfl

theorem perm_getD_cons_filter (cs : List Nat) {l : Nat} (hl : l < cs.length) :
    cs.Perm (cs.getD l 0 :: ((List.range cs.length).filter fun m => m ≠ l).map fun m => cs.getD m 0) := by
  have hcs : (List.range cs.length).map (fun m => cs.getD m 0) = cs :=
    List.ext_getElem (by simp) fun m _ hm => by simp [hm]
  have hrange : (List.range cs.length).Perm (l :: (List.range cs.length).filter fun m => m ≠ l) := by
    have hperm := List.perm_cons_erase (List.mem_range.2 hl)
    rw [List.nodup_range.erase_eq_filter] at hperm
    exact hperm.trans (.of_eq (congrArg _ (List.filter_congr fun m _ => by simp [bne, beq_eq_decide])))
  have hperm := hrange.map fun m => cs.getD m 0
  rwa [hcs] at hperm

theorem getD_map_expTable {cs : List Nat} {m : Nat} (hm : m < cs.length) :
    (cs.map expTable).getD m 0 = expTable (cs.getD m 0) := by
  simp [hm]

/-- The quotient of R175 is the magnitude of the power sums' position. -/
theorem magnitude_of_powerSums {cs : List Nat} (hcs : cs.Nodup) {t : Nat} (ht : cs.length ≤ t) {l : Nat}
    (hl : l < cs.length) {y : Nat → Byte} {xinv v : Byte} (hinv : ginv ((cs.map expTable).getD l 0) = .ok xinv)
    (hdiv : gdiv (peval (errorEvaluator (powerSums y cs t) (errataLocator cs) t) xinv)
      ((((List.range cs.length).filter fun m => m ≠ l).map fun m =>
        1 ^^^ gmul ((cs.map expTable).getD m 0) xinv).foldl gmul 1) = .ok v) : v = y (cs.getD l 0) := by
  rw [getD_map_expTable hl] at hinv
  have hfactors : (((List.range cs.length).filter fun m => m ≠ l).map fun m =>
      1 ^^^ gmul ((cs.map expTable).getD m 0) xinv).foldl gmul 1 = peval (errataLocator
        (((List.range cs.length).filter fun m => m ≠ l).map fun m => cs.getD m 0)) xinv := by
    rw [peval_errataLocator, List.map_map]
    congr 1
    refine List.map_congr_left fun m hm => ?_
    rw [getD_map_expTable (List.mem_range.1 (List.mem_filter.1 hm).1)]
    rfl
  rw [hfactors, peval_errorEvaluator_at_inverse hcs (perm_getD_cons_filter cs hl) ht
    ((ginv_eq_ok_iff (expTable_ne_zero _)).1 hinv)] at hdiv
  generalize peval (errataLocator _) xinv = d at hdiv
  by_cases hd : d = 0
  · rw [hd, gdiv_zero] at hdiv
    cases hdiv
  · rw [gdiv_gmul hd] at hdiv
    exact (Except.ok.inj hdiv).symm

/-- Where the syndromes are the power sums of the errata, the correction adds every position's magnitude (R175,
R177). -/
theorem correctErrata_powerSums {w : Poly} {ps : List Nat} {n t : Nat} (hw : w.length = n) (hn : n ≤ 255)
    (hps : ps.Nodup) (hlt : ∀ q ∈ ps, q < n) (ht : ps.length ≤ t) (y : Nat → Byte) :
    ∃ w', correctErrata w (powerSums y (ps.map fun q => n - 1 - q) t) ps n t = .ok w' ∧ w'.length = n ∧
      (∀ j, j ∉ ps → w'.getD j 0 = w.getD j 0) ∧ ∀ q ∈ ps, w'.getD q 0 = w.getD q 0 ^^^ y (n - 1 - q) := by
  obtain ⟨w', hok, hlen, -, hmag⟩ :=
    correctionAddsTheMagnitudes w (powerSums y (ps.map fun q => n - 1 - q) t) ps n t hw hn hps hlt
  refine ⟨w', hok, hlen, fun j => correctErrata_getD_of_notMem hok, fun q hq => ?_⟩
  obtain ⟨l, hl, rfl⟩ := List.getElem_of_mem hq
  obtain ⟨xinv, v, hinv, hdiv, hw'⟩ := hmag l hl
  have hxs : (ps.map fun q => expTable (n - 1 - q)) = (ps.map fun q => n - 1 - q).map expTable := by
    rw [List.map_map]
    rfl
  simp only [hxs, ← errataLocator_eq_foldl, ← peval_pmodx] at hdiv
  have hv : v = y ((ps.map fun q => n - 1 - q).getD l 0) :=
    magnitude_of_powerSums (coefficients_nodup hps hlt) (t := t) (by rwa [List.length_map])
      (by rwa [List.length_map]) (hxs ▸ hinv) (by rwa [List.length_map])
  rw [List.getD_eq_getElem _ _ hl] at hw'
  rw [hw', hv]
  simp [hl]

end Sys2Proof.Machine

end

/-! SUPPORT. The contract of RS_DECODE (R180): a word within the correction capacity is corrected. -/

section

namespace Sys2Proof.Machine

/-! ## The errata of a received word -/

/-- The positions of the errors: not erased, and with another value than the codeword c has. -/
def errorPositions (rx : List Symbol) (c : Poly) : List Nat :=
  (List.range rx.length).filter fun q =>
    !(rx.getD q ⟨0, false⟩).erased && decide ((rx.getD q ⟨0, false⟩).value ≠ c.getD q 0)

theorem errorPositions_length {rx : List Symbol} {c : Poly} (hc : c.length = rx.length) :
    (errorPositions rx c).length = (rx.zip c).countP fun xc => !xc.1.erased && decide (xc.1.value ≠ xc.2) := by
  have hzip : (List.range rx.length).map (fun q => (rx.getD q ⟨0, false⟩, c.getD q 0)) = rx.zip c :=
    List.ext_getElem (by simp [hc]) fun q _ hq => by
      rw [List.length_zip] at hq
      have hqx : q < rx.length := by omega
      have hqc : q < c.length := by omega
      simp [hqx, hqc]
  rw [← hzip, List.countP_map, errorPositions, List.countP_eq_length_filter]
  rfl

theorem errorPositions_nodup (rx : List Symbol) (c : Poly) : (errorPositions rx c).Nodup := List.nodup_range.filter _

theorem mem_errorPositions {rx : List Symbol} {c : Poly} {q : Nat} :
    q ∈ errorPositions rx c ↔ q < rx.length ∧ q ∉ erasures rx ∧ (workingCopy rx).getD q 0 ≠ c.getD q 0 := by
  rw [errorPositions, List.mem_filter, List.mem_range, mem_erasures]
  refine and_congr_right fun hq => ?_
  rw [workingCopy_getD hq]
  cases (rx.getD q ⟨0, false⟩).erased <;> simp [hq]

/-- The difference of the working copy from the codeword c, by coefficient positions. -/
def differenceAt (rx : List Symbol) (c : Poly) : Nat → Byte := coefficientAt (padd (workingCopy rx) c)

section

variable {rx : List Symbol} {c : Poly} {t : Nat} (hc : c.length = rx.length)

include hc

theorem differenceAt_eq (a : Nat) :
    differenceAt rx c a = (workingCopy rx).getD (rx.length - 1 - a) 0 ^^^ c.getD (rx.length - 1 - a) 0 := by
  have hlen : (workingCopy rx).length = c.length := by rw [workingCopy_length, hc]
  rw [differenceAt, coefficientAt, padd_length, ← hlen, Nat.max_self, padd_of_length_eq hlen, zipWith_xor_getD hlen,
    workingCopy_length]

theorem differenceAt_eq_zero {a : Nat} :
    differenceAt rx c a = 0 ↔ (workingCopy rx).getD (rx.length - 1 - a) 0 = c.getD (rx.length - 1 - a) 0 := by
  rw [differenceAt_eq hc]
  exact BitVec.xor_eq_zero_iff

/-- Where the working copy differs from the codeword, the position is erased or an error. -/
theorem mem_errata_of_differenceAt_ne {a : Nat} (ha : a < rx.length) (hne : differenceAt rx c a ≠ 0) :
    rx.length - 1 - a ∈ erasures rx ++ errorPositions rx c := by
  by_cases he : rx.length - 1 - a ∈ erasures rx
  · exact List.mem_append_left _ he
  · exact List.mem_append_right _
      (mem_errorPositions.2 ⟨by omega, he, fun h => hne ((differenceAt_eq_zero hc).2 h)⟩)

end

theorem errata_lt {rx : List Symbol} {c : Poly} : ∀ q ∈ erasures rx ++ errorPositions rx c, q < rx.length := fun q hq =>
  (List.mem_append.1 hq).elim (erasures_lt q) fun h => (mem_errorPositions.1 h).1

theorem errata_nodup (rx : List Symbol) (c : Poly) : (erasures rx ++ errorPositions rx c).Nodup :=
  List.nodup_append.2 ⟨erasures_nodup rx, errorPositions_nodup rx c, fun _ hq _ hr h =>
    (mem_errorPositions.1 hr).2.1 (h ▸ hq)⟩

/-! ## A correctable word, stage by stage -/

/-- The Chien search finds the errors, in some order (R170). -/
theorem chienPositions_errors_perm {rx : List Symbol} (hn : rx.length ≤ 255) (c : Poly) :
    (chienPositions (errataLocator ((errorPositions rx c).map fun q => rx.length - 1 - q)) rx.length).Perm
      (errorPositions rx c) :=
  (chienSearchFindsTheLocatorPositions _ _ hn (errorPositions_nodup rx c) fun _ hq => (mem_errorPositions.1 hq).1).1

/-- With the locator of the errors no check fails. -/
theorem locationOutcome_of_correctable {rx : List Symbol} {c : Poly} {t : Nat} (hn : rx.length ≤ 255)
    (hcap : (erasures rx).length + 2 * (errorPositions rx c).length ≤ t) :
    locationOutcome (errataLocator ((errorPositions rx c).map fun q => rx.length - 1 - q)) (erasures rx) rx.length t =
      .ok := by
  obtain ⟨hperm, houtside, -⟩ := chienSearchFindsTheLocatorPositions (errorPositions rx c) rx.length hn
    (errorPositions_nodup rx c) fun _ hq => (mem_errorPositions.1 hq).1
  have hnodup := ((hperm.append_left (erasures rx)).nodup_iff).2 (errata_nodup rx c)
  rw [locationOutcome, if_neg, if_neg, if_pos hnodup]
  · rw [not_or, ← chienOutside_iff, houtside, hperm.length_eq, errataLocator_length, List.length_map]
    simp
  · rw [errataLocator_length, List.length_map]
    omega

section

variable {rx : List Symbol} {c : Poly} {t : Nat} (hc : c.length = rx.length) (hcode : syndrome c t = zeros t)

include hc hcode

theorem syndrome_eq_powerSums_range :
    syndrome (workingCopy rx) t = powerSums (differenceAt rx c) (List.range rx.length) t := by
  rw [← syndrome_padd_of_codeword hcode, syndrome_eq_powerSums, padd_length, workingCopy_length, hc, Nat.max_self]
  rfl

/-- The syndrome is made of the errata alone. -/
theorem syndrome_eq_powerSums_errata {ps : List Nat} (hps : ps.Perm (erasures rx ++ errorPositions rx c)) :
    syndrome (workingCopy rx) t = powerSums (differenceAt rx c) (ps.map fun q => rx.length - 1 - q) t := by
  have hlt : ∀ q ∈ ps, q < rx.length := fun q hq => errata_lt q (hps.mem_iff.1 hq)
  rw [syndrome_eq_powerSums_range hc hcode]
  refine powerSums_eq_of_subset (coefficients_nodup (hps.nodup_iff.2 (errata_nodup rx c)) hlt)
    (fun a ha => List.mem_range.2 (coefficients_lt hlt a ha)) List.nodup_range (fun a ha hnot => ?_) t
  have ha : a < rx.length := List.mem_range.1 ha
  by_contra hne
  exact hnot ((mem_map_coefficient hlt ha).2 (hps.mem_iff.2 (mem_errata_of_differenceAt_ne hc ha hne)))

variable (hn : rx.length ≤ 255) (hcap : (erasures rx).length + 2 * (errorPositions rx c).length ≤ t)

include hn hcap

/-- A zero syndrome says that the working copy is the codeword (R165, R180). -/
theorem workingCopy_eq_of_syndrome_eq_zeros (hz : syndrome (workingCopy rx) t = zeros t) : workingCopy rx = c := by
  have hlt := coefficients_lt (errata_lt (rx := rx) (c := c))
  have hmag := eq_zero_of_powerSum_eq_zero (coefficients_nodup (errata_nodup rx c) errata_lt)
    (fun a ha => (hlt a ha).trans_le hn) (y := differenceAt rx c) fun j hj => by
      rw [List.length_map, List.length_append] at hj
      have hjt : j < t := by omega
      rw [← powerSums_getD hjt, ← syndrome_eq_powerSums_errata hc hcode (.refl _), hz]
      simp [zeros]
  refine List.ext_getElem (by rw [workingCopy_length, hc]) fun q hq hqc => ?_
  have hqx : q < rx.length := by rwa [workingCopy_length] at hq
  have hidx : rx.length - 1 - (rx.length - 1 - q) = q := by omega
  have hzero : differenceAt rx c (rx.length - 1 - q) = 0 := by
    by_contra hne
    have ha : rx.length - 1 - q < rx.length := by omega
    exact hne (hmag _ ((mem_map_coefficient errata_lt ha).2 (mem_errata_of_differenceAt_ne hc ha hne)))
  have heq := (differenceAt_eq_zero hc).1 hzero
  rwa [hidx, List.getD_eq_getElem _ _ hq, List.getD_eq_getElem _ _ hqc] at heq

/-- The pass finds the locator of the errors, for the Forney syndromes carry nothing of the erasures. -/
theorem berlekampMassey_of_correctable :
    berlekampMassey (forneySyndromes (syndrome (workingCopy rx) t) (erasures rx) rx.length) =
      .ok (errataLocator ((errorPositions rx c).map fun q => rx.length - 1 - q)) := by
  have herr : ∀ q ∈ errorPositions rx c, q < rx.length := fun q hq => (mem_errorPositions.1 hq).1
  have hlt := coefficients_lt herr
  have hnodup := coefficients_nodup (errorPositions_nodup rx c) herr
  have hzero := fun a (ha : a < rx.length) =>
    forneyMagnitude_eq_zero hn erasures_lt ha (differenceAt rx c)
  rw [syndrome_eq_powerSums_range hc hcode, forneySyndromes_powerSums,
    powerSums_eq_of_subset hnodup (fun a ha => List.mem_range.2 (hlt a ha)) List.nodup_range fun a ha hnot => ?_]
  · refine berlekampMassey_powerSums hnodup (fun a ha => (hlt a ha).trans_le hn) (fun a ha h => ?_) (by
      rw [List.length_map]
      omega)
    obtain ⟨-, hes, hne⟩ := mem_errorPositions.1 ((mem_map_coefficient herr (hlt a ha)).1 ha)
    rcases (hzero a (hlt a ha)).1 h with h | h
    · exact hne ((differenceAt_eq_zero hc).1 h)
    · exact hes h
  · have ha : a < rx.length := List.mem_range.1 ha
    refine (hzero a ha).2 (or_iff_not_imp_left.2 fun hne => ?_)
    exact (List.mem_append.1 (mem_errata_of_differenceAt_ne hc ha hne)).resolve_right fun h =>
      hnot ((mem_map_coefficient herr ha).2 h)

/-- The correction gives the codeword: each magnitude is the difference at its position. -/
theorem correctErrata_of_correctable {ps : List Nat} (hps : ps.Perm (erasures rx ++ errorPositions rx c)) :
    correctErrata (workingCopy rx) (syndrome (workingCopy rx) t) ps rx.length t = .ok c := by
  have hlt : ∀ q ∈ ps, q < rx.length := fun q hq => errata_lt q (hps.mem_iff.1 hq)
  have hlen : ps.length ≤ t := by
    rw [hps.length_eq, List.length_append]
    omega
  obtain ⟨w', hok, hw', hother, hsame⟩ := correctErrata_powerSums (workingCopy_length rx) hn
    (hps.nodup_iff.2 (errata_nodup rx c)) hlt hlen (differenceAt rx c)
  rw [syndrome_eq_powerSums_errata hc hcode hps, hok]
  congr 1
  refine List.ext_getElem (hw'.trans hc.symm) fun q hq hqc => ?_
  have hqx : q < rx.length := hw' ▸ hq
  have hidx : rx.length - 1 - (rx.length - 1 - q) = q := by omega
  rw [← List.getD_eq_getElem _ 0 hq, ← List.getD_eq_getElem _ 0 hqc]
  by_cases hmem : q ∈ ps
  · rw [hsame q hmem, differenceAt_eq hc, hidx, ← BitVec.xor_assoc, BitVec.xor_self, BitVec.zero_xor]
  · rw [hother q hmem]
    by_contra hne
    refine hmem (hps.mem_iff.2 ?_)
    have h := mem_errata_of_differenceAt_ne hc (a := rx.length - 1 - q) (by omega) fun h =>
      hne (by rwa [differenceAt_eq_zero hc, hidx] at h)
    rwa [hidx] at h

/-- What RS_DECODE reports of a correctable word (R180). -/
theorem decodeWord_of_correctable :
    decodeWord rx t = ⟨.ok, (erasures rx).length,
      if syndrome (workingCopy rx) t = zeros t then 0 else (errorPositions rx c).length,
      some (syndrome (workingCopy rx) t), some c⟩ := by
  have hcase := decodeWord_case hn (berlekampMassey_of_correctable hc hcode hn hcap)
  have hout := locationOutcome_of_correctable hn hcap
  generalize decodeWord rx t = r at hcase ⊢
  cases hcase with
  | tooManyErasures he => omega
  | zeroSyndrome he hz => rw [if_pos hz, workingCopy_eq_of_syndrome_eq_zeros hc hcode hn hcap hz]
  | failed he hz herr => exact absurd hout herr
  | corrected he hz _ hw' =>
    rw [correctErrata_of_correctable hc hcode hn hcap ((chienPositions_errors_perm hn c).append_left _)] at hw'
    cases hw'
    rw [if_neg hz, errataLocator_length, List.length_map, Nat.add_sub_cancel]

end

/-! ## The statements -/

/-- Settles O60: the difference from the codeword is located and corrected. -/
theorem correctableWordsAreRecovered : Obligations.CorrectableWordsAreRecovered := by
  intro s p m rx hp hle hrx c e f hcap
  have hlen : rx.length = m.length + p.cfgT.toNat := Memory.readFrom_length hrx
  have hclen : c.length = m.length + p.cfgT.toNat := encodeCore_length ..
  have hc : c.length = rx.length := hclen.trans hlen.symm
  have hf : (errorPositions rx c).length = f := errorPositions_length hc
  have he : (erasures rx).length = e := erasures_length rx
  have hexec := exec_rsDecode hp hle hrx
  rw [decodeWord_of_correctable hc (syndrome_encodeCore m _) (hlen.trans_le hle) (by rwa [he, hf]), he, hf,
    applyReport_ok] at hexec
  refine ⟨_, hexec, rfl, rfl, apply_ite (BitVec.ofNat 8) _ _ _, fun j hj => ?_⟩
  rw [complete_buf, setWord_buf_read, if_pos (hclen ▸ hj)]

/-- Settles O59: without errors the correctable words are those with up to T erasures. -/
theorem upToTErasuresAreRecovered : Obligations.UpToTErasuresAreRecovered := by
  intro s p m rx hp hle hrx hvalue herasures
  have hlen : rx.length = m.length + p.cfgT.toNat := Memory.readFrom_length hrx
  have hnone : ((rx.zip (encodeCore m (generator p.cfgT.toNat) p.cfgT.toNat)).countP fun xc =>
      !xc.1.erased && decide (xc.1.value ≠ xc.2)) = 0 := by
    refine List.countP_eq_zero.2 fun xc hxc => ?_
    obtain ⟨j, hj, rfl⟩ := List.getElem_of_mem hxc
    rw [List.length_zip] at hj
    have hjx : j < rx.length := by omega
    have hjc : j < (encodeCore m (generator p.cfgT.toNat) p.cfgT.toNat).length := by omega
    have hv := hvalue j (hlen ▸ hjx) rx[j] (List.getElem?_eq_getElem hjx)
    rw [List.getD_eq_getElem _ _ hjc] at hv
    simpa using hv
  obtain ⟨t, hexec, herr, hneras, hnerr, hbuf⟩ :=
    correctableWordsAreRecovered s p m rx hp hle hrx (by rwa [hnone, Nat.mul_zero, Nat.add_zero])
  refine ⟨t, hexec, herr, ?_, hneras, hbuf⟩
  rw [hnerr, hnone]
  exact ite_self _

end Sys2Proof.Machine

end

/-! SUPPORT. Starts and completions (R190 to R199): which write starts a command, what every command can answer and
report, and why a started command comes to its end. -/

section

namespace Sys2Proof.Machine

/-! ## What a command answers -/

theorem gpow_error {x : Byte} {n : Int} {e : ErrorKind} (h : gpow x n = .error e) : e = .logOfZero := by
  unfold gpow at h
  split_ifs at h
  exact (Except.error.inj h).symm

theorem ginv_error {x : Byte} {e : ErrorKind} (h : ginv x = .error e) : e = .logOfZero :=
  gpow_error (ginv_eq_gpow x ▸ h)

/-- The outcomes of the correction stages (R197). -/
theorem locationOutcome_cases (loc : Poly) (es : List Nat) (n t : Nat) :
    locationOutcome loc es n t = .ok ∨ locationOutcome loc es n t = .divByZero ∨
      locationOutcome loc es n t = .tooManyErrors := by
  unfold locationOutcome
  split_ifs <;> simp

/-- The outcomes of a decode that passed its length check (R197). -/
theorem decodeWord_err_mem {rx : List Symbol} (hn : rx.length ≤ 255) (t : Nat) :
    (decodeWord rx t).err ∈ [.ok, .divByZero, .tooManyErasures, .tooManyErrors] := by
  obtain ⟨loc, hloc, -⟩ :=
    locatorIsNormal (forneySyndromes (syndrome (workingCopy rx) t) (erasures rx) rx.length)
  have hcase := decodeWord_case hn hloc
  generalize decodeWord rx t = r at hcase ⊢
  cases hcase with
  | tooManyErasures => simp
  | zeroSyndrome => simp
  | failed => rcases locationOutcome_cases loc (erasures rx) rx.length t with h | h | h <;> simp [h]
  | corrected => simp

@[simp] theorem applyReport_err (s : State) (r : DecodeReport) : (applyReport s r).err = r.err := by
  rw [applyReport_eq]

/-- The column "raised by" of R190, read by command. -/
def reportableErrors : Instr → List ErrorKind
  | .gfMul => [.ok]
  | .gfDiv => [.ok, .divByZero]
  | .gfPow => [.ok, .logOfZero]
  | .gfInv => [.ok, .logOfZero]
  | .rsConfig _ => [.ok]
  | .rsEncode _ => [.ok, .length]
  | .rsSyndrome _ => [.ok, .length]
  | .rsDecode _ => [.ok, .divByZero, .tooManyErasures, .tooManyErrors, .length]

/-- The answers of a command whose snapshot is p: it completes with one of its errors, or it stops on an entry of BUF
that holds no value (R48). -/
inductive CommandAnswer (p : Pending) (i : Instr) : Result → Prop where
  | completes {t : State} (herr : t.err ∈ reportableErrors i) : CommandAnswer p i (.next t)
  | unwritten {j : Nat} (hj : j < 255) (hread : p.buf.read j = none) : CommandAnswer p i (.fault .unwrittenSymbol)

/-- A field command reports OK or the one failure of its rule (R38). -/
theorem completeField_answer {p : Pending} {i : Instr} (s : State) {r : Except ErrorKind Byte}
    (hok : .ok ∈ reportableErrors i) (herror : ∀ e, r = .error e → e ∈ reportableErrors i) :
    CommandAnswer p i (.next (completeField s r)) := by
  cases r with
  | ok v => exact .completes hok
  | error e => exact .completes (herror e rfl)

section

variable {s : State} {p : Pending} (hp : s.pending = some p)

include hp

/-- A block command fails its length check, stops on one of the n entries that it reads, or completes with what it
computes from them. -/
theorem blockCommand_answer {i : Instr} {k n : Nat} (hi : i = .rsEncode k ∨ i = .rsSyndrome k ∨ i = .rsDecode k)
    (hn : n ≤ k + p.cfgT.toNat)
    (hnone : k + p.cfgT.toNat ≤ 255 → p.buf.readFrom 0 n = none → exec i s = .fault .unwrittenSymbol)
    (hsome : k + p.cfgT.toNat ≤ 255 → ∀ xs, p.buf.readFrom 0 n = some xs →
      ∃ t, exec i s = .next t ∧ t.err ∈ reportableErrors i) :
    CommandAnswer p i (exec i s) := by
  rcases Nat.lt_or_ge 255 (k + p.cfgT.toNat) with hlong | hle
  · rw [exec_of_too_long hp hlong hi]
    exact .completes (by rcases hi with rfl | rfl | rfl <;> simp [reportableErrors])
  cases hread : p.buf.readFrom 0 n with
  | none =>
    obtain ⟨j, hj, hentry⟩ := Memory.readFrom_eq_none.1 hread
    rw [hnone hle hread]
    exact .unwritten (hj.trans_le (hn.trans hle)) (Nat.zero_add j ▸ hentry)
  | some xs =>
    obtain ⟨t, hexec, herr⟩ := hsome hle xs hread
    rw [hexec]
    exact .completes herr

/-- What every command answers (R190, R196). -/
theorem exec_answer (i : Instr) : CommandAnswer p i (exec i s) := by
  cases i with
  | gfMul =>
    rw [exec_gfMul hp]
    exact completeField_answer s (by simp [reportableErrors]) nofun
  | gfDiv =>
    rw [exec_gfDiv hp]
    exact completeField_answer s (by simp [reportableErrors]) fun e he => by simp [reportableErrors, gdiv_error he]
  | gfPow =>
    rw [exec_gfPow hp]
    exact completeField_answer s (by simp [reportableErrors]) fun e he => by simp [reportableErrors, gpow_error he]
  | gfInv =>
    rw [exec_gfInv hp]
    exact completeField_answer s (by simp [reportableErrors]) fun e he => by simp [reportableErrors, ginv_error he]
  | rsConfig n =>
    rw [exec_rsConfig hp]
    exact .completes (by simp [reportableErrors])
  | rsEncode k =>
    refine blockCommand_answer hp (.inl rfl) (Nat.le_add_right ..) (execRsEncode_unwritten hp) fun hle xs hxs => ?_
    exact ⟨_, exec_rsEncode hp hle (messageOf_eq_some.2 ⟨xs, hxs, rfl⟩), by simp [reportableErrors]⟩
  | rsSyndrome k =>
    refine blockCommand_answer hp (.inr (.inl rfl)) le_rfl (execRsSyndrome_unwritten hp) fun hle rx hrx => ?_
    exact ⟨_, exec_rsSyndrome hp hle hrx, by simp [reportableErrors]⟩
  | rsDecode k =>
    refine blockCommand_answer hp (.inr (.inr rfl)) le_rfl (execRsDecode_unwritten hp) fun hle rx hrx => ?_
    have herr := decodeWord_err_mem ((Memory.readFrom_length hrx).trans_le hle) p.cfgT.toNat
    exact ⟨_, exec_rsDecode hp hle hrx, by rw [applyReport_err]; exact List.mem_append_left [.length] herr⟩

end

/-- Settles O56: a command that answers a next state had one pending, and each command's answers are known. -/
theorem commandsReportOnlyTheirErrors : Obligations.CommandsReportOnlyTheirErrors := by
  intro i s t h
  suffices herr : t.err ∈ reportableErrors i by cases i <;> exact herr
  cases hp : s.pending with
  | none => cases i <;> cases (withPending_none hp _).symm.trans h
  | some p =>
    have hanswer := exec_answer hp i
    rw [h] at hanswer
    cases hanswer with
    | completes herr => exact herr

/-! ## The end of a command -/

/-- Under the invariant the engine's turn while busy completes the pending command, an Illegal word too, or stops on an
entry that holds no value (R48, R192, R196). -/
theorem engineTurn_completes_or_unwritten {s : State} (hs : Inv s) (hb : s.busy = true) :
    (∃ t, engineTurn s = .next t ∧ CompletedFrom s t) ∨
      (engineTurn s = .fault .unwrittenSymbol ∧ ∃ j, j < 255 ∧ s.buf.read j = none) := by
  obtain ⟨p, hp⟩ := Option.isSome_iff_exists.1 (hs.busy_pending ▸ hb)
  have hbuf : p.buf = s.buf := by rw [hs.pending_snapshot p hp]; rfl
  cases hd : decode p.word with
  | error e => exact .inl ⟨_, engineTurn_of_illegal hb hp hd, .complete ..⟩
  | ok i =>
    rw [engineTurn_of_command hb hp hd]
    have hanswer := exec_answer hp i
    generalize hexec : exec i s = r at hanswer ⊢
    cases hanswer with
    | completes => exact .inl ⟨_, rfl, exec_completedFrom hexec⟩
    | unwritten hj hread => exact .inr ⟨rfl, _, hj, hbuf ▸ hread⟩

/-- Settles O22: the frame of a completion is the same for every command. -/
theorem engineCompletesOrFindsNoValue : Obligations.EngineCompletesOrFindsNoValue := by
  intro s hs hb
  refine (engineTurn_completes_or_unwritten hs hb).imp_left fun ⟨t, ht, hc⟩ => ?_
  exact ⟨t, ht, hc.busy, hc.done, hc.pending, hc.cmd, hc.ie, hc.opa, hc.opb, hc.opn, hc.program, hc.log⟩

/-- An access can be refused for its width or its alignment only (R61, R62). -/
theorem accessRefusal_cases {off : Offset} {width : Width} {r : Refusal} (h : accessRefusal off width = some r) :
    r = .accessWidth ∨ r = .misalignedAccess := by
  unfold accessRefusal at h
  split_ifs at h
  · exact .inl (Option.some.inj h).symm
  · exact .inr (Option.some.inj h).symm

/-- The host's turn never faults, and it is refused for an undefined access only (R61, R62). -/
theorem hostTurn_next_or_refused (s : State) :
    (∃ t, hostTurn s = .next t) ∨
      ∃ r, hostTurn s = .refused r ∧ (r = .accessWidth ∨ r = .misalignedAccess) := by
  unfold hostTurn
  split
  · exact .inl ⟨_, rfl⟩
  · split
    · next hr => exact .inr ⟨_, rfl, accessRefusal_cases hr⟩
    · exact .inl ⟨_, rfl⟩
  · split
    · next hr => exact .inr ⟨_, rfl, accessRefusal_cases hr⟩
    · exact .inl ⟨_, rfl⟩
  · split <;> exact .inl ⟨_, rfl⟩
  · split <;> exact .inl ⟨_, rfl⟩

/-- A result at which no command is pending any more, or at which the run stops as the spec says that a model stops:
at an entry without value (R48), or at an undefined access (R61, R62). -/
def CommandOver : Result → Prop
  | .next t => t.busy = false
  | .fault r => r = .unwrittenSymbol
  | .refused r => r = .accessWidth ∨ r = .misalignedAccess

theorem engineTurn_commandOver {s : State} (hs : Inv s) (hb : s.busy = true) : CommandOver (engineTurn s) := by
  rcases engineTurn_completes_or_unwritten hs hb with ⟨t, ht, hc⟩ | ⟨hfault, -⟩
  · rw [ht]
    exact hc.busy
  · rw [hfault]
    exact rfl

/-- Nothing the host does ends a command (R67, R74). -/
theorem hostTurn_keeps_busy {s t : State} (hb : s.busy = true) (h : hostTurn s = .next t) : t.busy = true := by
  obtain ⟨ie, done, hblock⟩ := hostTurn_busy hb h
  rw [← block_busy, hblock]
  exact hb

/-- A step of a busy block ends the command, or it is a turn of the host, which the schedule held and which leaves the
command pending (R74, R215). -/
theorem step_commandOver_or_pending {s : State} (hs : Inv s) (hb : s.busy = true) :
    CommandOver (step s) ∨ ∃ t, step s = .next t ∧ t.busy = true ∧ s.turns.length = t.turns.length + 1 := by
  rcases step_eq s with ⟨hts, -⟩ | ⟨turn, ts, hts, he⟩
  · rw [step_of_no_turns hb hts]
    exact .inl (engineTurn_commandOver hs hb)
  have hs' : Inv { s with turns := ts } := hs.of_block_eq (block_turns s ts)
  rw [he]
  cases turn with
  | engine => exact .inl (engineTurn_commandOver hs' hb)
  | reset => exact .inl rfl
  | host =>
    rcases hostTurn_next_or_refused { s with turns := ts } with ⟨t, ht⟩ | ⟨r, hr, hcause⟩
    · exact .inr ⟨t, ht, hostTurn_keeps_busy (s := { s with turns := ts }) hb ht, by rw [hts, hostTurn_turns ht]; rfl⟩
    · exact .inl (by rw [takeTurn, hr]; exact hcause)

/-- Runs of one step, and runs that begin with a step that answers a next state, for any machine. -/
theorem run_one (M : Host.Core) (s : M.State) : M.run 1 s = M.step s := by
  rw [Host.Core.run]
  cases M.step s <;> rfl

theorem run_succ_of_next {M : Host.Core} {s t : M.State} (h : M.step s = .next t) (n : Nat) :
    M.run (n + 1) s = M.run n t := by
  rw [Host.Core.run, h]

/-- A started command ends within the turns of the schedule and one more (R196, R215). -/
theorem exists_run_commandOver {s : State} (hs : Inv s) (hb : s.busy = true) :
    ∃ n, n ≤ s.turns.length + 1 ∧ CommandOver (core.run n s) := by
  induction hlen : s.turns.length generalizing s with
  | zero =>
    rcases step_commandOver_or_pending hs hb with hover | ⟨t, -, -, ht⟩
    · exact ⟨1, le_rfl, (run_one core s).symm ▸ hover⟩
    · omega
  | succ m ih =>
    rcases step_commandOver_or_pending hs hb with hover | ⟨t, hstep, hbt, ht⟩
    · exact ⟨1, by omega, (run_one core s).symm ▸ hover⟩
    · obtain ⟨n, hn, hover⟩ := ih (everyStepKeepsTheInvariant s t hs hstep) hbt (by omega)
      exact ⟨n + 1, by omega, (run_succ_of_next (M := core) hstep n).symm ▸ hover⟩

/-- Settles O23, by induction on the length of the schedule: each turn of the host uses up one entry. -/
theorem everyStartedCommandCompletes : Obligations.EveryStartedCommandCompletes := by
  intro s hs hb
  obtain ⟨n, hn, hover⟩ := exists_run_commandOver hs hb
  refine ⟨n, hn, ?_⟩
  revert hover
  cases core.run n s <;> exact id

/-! ## The start of a command -/

/-- A write of CMD starts a command while idle and does nothing while busy (R27, R195). -/
theorem hostWrite_cmd (s : State) (w : Word) : hostWrite s 0x000C w = if s.busy then s else s.start w := rfl

/-- A write of any other register leaves BUSY as it is (R66, R195). -/
theorem writeReg_busy_of_ne_cmd {r : Reg} (hr : r ≠ .cmd) (s : State) (v : Word) : (writeReg s v r).busy = s.busy := by
  cases r with
  | cmd => exact absurd rfl hr
  | status => rw [writeReg_status]
  | opa | opb | opn | buf => exact (apply_ite State.busy ..).trans (ite_self _)
  | _ => rfl

/-- A write that takes BUSY from 0 to 1 is a write of CMD, and it is the start of the written word (R195). -/
theorem hostWrite_starts {s : State} {off : Offset} {v : Word} (hidle : s.busy = false)
    (hb : (hostWrite s off v).busy = true) : regAt off = .cmd ∧ hostWrite s off v = s.start v := by
  have hreg : regAt off = .cmd := by
    by_contra hr
    rw [hostWrite, writeReg_busy_of_ne_cmd hr, hidle] at hb
    cases hb
  exact ⟨hreg, by rw [hostWrite, hreg, writeReg, hidle]; rfl⟩

/-- Settles O17: of the turns that change the block only the host's write can set BUSY. -/
theorem onlyACmdWriteStartsACommand : Obligations.OnlyACmdWriteStartsACommand := by
  intro s t h hidle hb
  rw [← block_busy] at hb
  obtain ⟨ts, (⟨-, ht⟩ | ht | ⟨off, v, rest, hp, ht⟩) | ⟨hbusy, -⟩⟩ := step_effect h
  · rw [ht] at hb
    cases hb
  · rw [ht, block_busy, hidle] at hb
    cases hb
  · rw [ht, block_busy] at hb
    obtain ⟨hreg, hstart⟩ := hostWrite_starts (s := { s with turns := ts }) hidle hb
    rw [hstart] at ht
    exact ⟨off, v, rest, hp, hreg, congrArg State.cmd ht, congrArg State.pending ht⟩
  · rw [hidle] at hbusy
    cases hbusy

/-- An aligned 32-bit write has its turn. -/
theorem hostTurn_write {s : State} {off : Offset} {v : Word} {rest : List HostOp} (hal : off.toNat % 4 = 0)
    (hp : s.program = .write off .word v :: rest) : hostTurn s = .next { hostWrite s off v with program := rest } := by
  simp only [hostTurn, hp, accessRefusal_word hal]

/-- A write of CMD by an idle block's host is a start (R195). -/
theorem hostTurn_cmd_of_idle {s : State} {w : Word} {rest : List HostOp} (hidle : s.busy = false)
    (hp : s.program = .write 0x000C .word w :: rest) : hostTurn s = .next { s.start w with program := rest } := by
  rw [hostTurn_write (by decide) hp, hostWrite_cmd, hidle]
  rfl

/-- Settles O16: while idle the write is a start, and while busy it is ignored. -/
theorem cmdWriteStartsACommandWhenIdle : Obligations.CmdWriteStartsACommandWhenIdle := by
  refine fun s w rest hp => ⟨fun hidle => hostTurn_cmd_of_idle hidle hp, fun hb => ?_⟩
  rw [hostTurn_write (by decide) hp, hostWrite_cmd, if_pos hb]

/-- Settles O21: the started word is pending, and it completes as an Illegal word does. -/
theorem illegalWordCompletesWithIllegalCmd : Obligations.IllegalWordCompletesWithIllegalCmd :=
  ⟨rfl, fun s w _ rest hidle hd hp => ⟨{ s.start w with program := rest }, hostTurn_cmd_of_idle hidle hp, rfl,
    engineTurn_of_illegal (s := { s.start w with program := rest }) rfl rfl hd⟩⟩

/-! ## The interrupt -/

theorem irq_eq_true_iff (s : State) : s.irq = true ↔ s.done = true ∧ s.ie = true := Bool.and_eq_true_iff

/-- IRQ is 0 where DONE is 0: after a start, and after DONE is cleared (R199). -/
theorem irq_of_not_done {s : State} (h : s.done = false) : s.irq = false := by
  rw [State.irq, h, Bool.false_and]

theorem hostWrite_status (s : State) (v : Word) :
    hostWrite s 0x0010 v = if v.getLsbD 1 then s.clearDone else s := rfl

theorem hostWrite_ctrl (s : State) (v : Word) : hostWrite s 0x0008 v = { s with ie := v.getLsbD 0 } := rfl

/-- Settles O24: each write reaches DONE or IE, or neither. -/
theorem interruptIsDoneAndEnabled : Obligations.InterruptIsDoneAndEnabled := by
  refine fun s => ⟨irq_eq_true_iff s, fun v hv => ?_, fun v hv => ?_, fun v hv => ?_, fun v hv => ?_, fun v hidle => ?_⟩
  · rw [hostWrite_status, if_pos hv]
    exact irq_of_not_done rfl
  · rw [hostWrite_status, if_neg (Bool.eq_false_iff.1 hv)]
  · rw [hostWrite_ctrl, hv]
    exact Bool.and_false _
  · rw [hostWrite_ctrl, hv]
    exact Bool.and_true _
  · rw [hostWrite_cmd, if_neg (Bool.eq_false_iff.1 hidle)]
    exact irq_of_not_done rfl

end Sys2Proof.Machine

end

/-! SUPPORT. The reset event (R210). -/

section

namespace Sys2Proof.Machine

/-- Reset takes its turn whoever else could move: neither BUSY nor the pending command is asked for. -/
theorem step_of_reset_turn {s : State} {ts : List Turn} (ht : s.turns = .reset :: ts) :
    step s = .next (State.resetBlock { s with turns := ts }) := by
  simp only [step, schedule, ht, takeTurn]

/-- Reset leaves nothing of the old block. -/
@[simp] theorem resetBlock_block (s : State) : s.resetBlock.block = State.reset.block := rfl

/-- Reset withdraws the interrupt: DONE is 0 (R199). -/
@[simp] theorem resetBlock_irq (s : State) : s.resetBlock.irq = false := irq_of_not_done (resetBlock_done s)

/-- Settles O26: the turn replaces the block, and the host's program, log and schedule go on. -/
theorem resetEventRestoresTheResetState : Obligations.ResetEventRestoresTheResetState := by
  intro s ts hts
  exact ⟨State.resetBlock { s with turns := ts }, step_of_reset_turn hts, resetBlock_block _, resetBlock_pending _,
    resetBlock_irq _, resetBlock_program _, resetBlock_turns _, resetBlock_log _⟩

end Sys2Proof.Machine

end
